-- ==== Sys2Proof/Word.lean ====
section
/-! DEFINITION. The word types of the machine (00_scope.md R7, R10): registers, addresses and data are
32-bit vectors, a Thumb instruction is a 16-bit one, memory is made of bytes. Their arithmetic is that
of `BitVec`, which wraps modulo 2^32 as R10 says. -/

namespace Sys2Proof

/-- A register, address or data value (R7 "data and register width"). -/
abbrev Word := BitVec 32

/-- A Thumb instruction or a halfword of memory. -/
abbrev Half := BitVec 16

/-- One byte of memory. -/
abbrev Byte := BitVec 8

/-- `v[lo + len - 1 : lo]` in the notation of R9. -/
abbrev bits {n : Nat} (v : BitVec n) (lo len : Nat) : BitVec len := v.extractLsb' lo len

end Sys2Proof
end

