-- ==== Sys2Proof/Syntax.lean ====
section
/-! DEFINITION. The instructions as abstract syntax: one constructor per row of spec/opcode_table.json
(30_encoding.md R153, R170). A field the decoder ignores (R182) is no operand and stands in no constructor (DESIGN CHOICE,
safe: log 9); the bits of an undefined encoding are kept, for they say which encoding it is. -/

namespace Sys2Proof

/-- The sixteen condition codes in the order of their encodings (R152). -/
inductive Cond where
  | eq | ne | cs | cc | mi | pl | vs | vc | hi | ls | ge | lt | gt | le | al | nv
  deriving DecidableEq, Repr

/-- The shift types in the order of their encodings (R244). -/
inductive ShiftType where
  | lsl | lsr | asr | ror
  deriving DecidableEq, Repr

/-- A register number R0 to R15. It is a bit field: Thumb format 5 makes it by concatenation (R171). -/
abbrev RegNum := BitVec 4

/-- A three-bit register number of a Thumb instruction, R0 to R7. -/
abbrev LowReg := BitVec 3

/-- Operand 2 of an ARM data-processing instruction (R155). -/
inductive Operand2 where
  /-- I = 1: `imm8` rotated right by `2 * rot4` (R301). -/
  | imm (rot4 : BitVec 4) (imm8 : BitVec 8)
  /-- I = 0, bit 4 = 0: Rm shifted by an immediate (R302). -/
  | shiftImm (amount : BitVec 5) (type : ShiftType) (rm : RegNum)
  /-- I = 0, bit 4 = 1: Rm shifted by the low byte of Rs (R303). -/
  | shiftReg (rs : RegNum) (type : ShiftType) (rm : RegNum)
  deriving DecidableEq, Repr

/-- The P, U and W bits and the base register of a single or halfword transfer (R161, R158). -/
structure Addressing where
  /-- P: the offset is applied before the access. -/
  pre : Bool
  /-- U: the offset is added. -/
  up : Bool
  /-- W: write-back. -/
  wback : Bool
  rn : RegNum
  deriving DecidableEq, Repr

/-- The offset of LDR, LDRB, STR, STRB (R161). -/
inductive WordOffset where
  | imm12 (value : BitVec 12)
  | shifted (amount : BitVec 5) (type : ShiftType) (rm : RegNum)
  deriving DecidableEq, Repr

/-- The offset of LDRH, STRH, LDRSB, LDRSH (R158). -/
inductive HalfOffset where
  | imm8 (value : BitVec 8)
  | reg (rm : RegNum)
  deriving DecidableEq, Repr

/-- The P, U, S and W bits and the base register of a block transfer (R162). -/
structure BlockAddressing where
  pre : Bool
  up : Bool
  /-- S: the SPSR-restoring or User-bank form. -/
  sbit : Bool
  wback : Bool
  rn : RegNum
  deriving DecidableEq, Repr

/-- An instruction: 48 ARM constructors in the order of the table's ARM rows, then 63 Thumb ones. -/
inductive Instr where
  /-- B label (R370, layout R163). -/
  | armB (c : Cond) (offset : BitVec 24)
  /-- BL label (R371, layout R163). -/
  | armBl (c : Cond) (offset : BitVec 24)
  /-- STM (R425, layout R162). -/
  | armStm (c : Cond) (a : BlockAddressing) (list : BitVec 16)
  /-- LDM (R424, layout R162). -/
  | armLdm (c : Cond) (a : BlockAddressing) (list : BitVec 16)
  /-- STR (R405, layout R161). -/
  | armStr (c : Cond) (a : Addressing) (offset : WordOffset) (rd : RegNum)
  /-- LDR (R403, layout R161). -/
  | armLdr (c : Cond) (a : Addressing) (offset : WordOffset) (rd : RegNum)
  /-- STRB (R406, layout R161). -/
  | armStrb (c : Cond) (a : Addressing) (offset : WordOffset) (rd : RegNum)
  /-- LDRB (R404, layout R161). -/
  | armLdrb (c : Cond) (a : Addressing) (offset : WordOffset) (rd : RegNum)
  /-- MUL{S} Rd, Rm, Rs (R351, layout R156; the Rn field is ignored). -/
  | armMul (c : Cond) (s : Bool) (rd rs rm : RegNum)
  /-- MLA{S} Rd, Rm, Rs, Rn (R352, layout R156). -/
  | armMla (c : Cond) (s : Bool) (rd rn rs rm : RegNum)
  /-- UMULL{S} RdLo, RdHi, Rm, Rs (R353, layout R156). -/
  | armUmull (c : Cond) (s : Bool) (rdHi rdLo rs rm : RegNum)
  /-- UMLAL{S} RdLo, RdHi, Rm, Rs (R354, layout R156). -/
  | armUmlal (c : Cond) (s : Bool) (rdHi rdLo rs rm : RegNum)
  /-- SMULL{S} RdLo, RdHi, Rm, Rs (R355, layout R156). -/
  | armSmull (c : Cond) (s : Bool) (rdHi rdLo rs rm : RegNum)
  /-- SMLAL{S} RdLo, RdHi, Rm, Rs (R356, layout R156). -/
  | armSmlal (c : Cond) (s : Bool) (rdHi rdLo rs rm : RegNum)
  /-- SWP Rd, Rm, [Rn] (R440, layout R157). -/
  | armSwp (c : Cond) (rn rd rm : RegNum)
  /-- SWPB Rd, Rm, [Rn] (R441, layout R157). -/
  | armSwpb (c : Cond) (rn rd rm : RegNum)
  /-- An undefined word of class 000 with bits 7..4 = 1001 (R153 line 7, R476): `op` is bits 24..20,
`mid` bits 19..8, `low` bits 3..0. -/
  | armUndefMultiply (c : Cond) (op : BitVec 5) (mid : BitVec 12) (low : BitVec 4)
  /-- STRH (R412, layout R158). -/
  | armStrh (c : Cond) (a : Addressing) (offset : HalfOffset) (rd : RegNum)
  /-- LDRH (R411, layout R158). -/
  | armLdrh (c : Cond) (a : Addressing) (offset : HalfOffset) (rd : RegNum)
  /-- LDRSB (R413, layout R158). -/
  | armLdrsb (c : Cond) (a : Addressing) (offset : HalfOffset) (rd : RegNum)
  /-- LDRSH (R414, layout R158). -/
  | armLdrsh (c : Cond) (a : Addressing) (offset : HalfOffset) (rd : RegNum)
  /-- An undefined word of the halfword space with L = 0, SH = 10 (R153 line 8, R476): `op` is bits 24..21,
`mid` bits 19..8, `low` bits 3..0. -/
  | armUndefStoreSh10 (c : Cond) (op : BitVec 4) (mid : BitVec 12) (low : BitVec 4)
  /-- An undefined word of the halfword space with L = 0, SH = 11 (R153 line 8, R476): `op` is bits 24..21,
`mid` bits 19..8, `low` bits 3..0. -/
  | armUndefStoreSh11 (c : Cond) (op : BitVec 4) (mid : BitVec 12) (low : BitVec 4)
  /-- BX Rm (R372, layout R159). -/
  | armBx (c : Cond) (rm : RegNum)
  /-- MRS Rd, CPSR (R470, layout R160). -/
  | armMrsCpsr (c : Cond) (rd : RegNum)
  /-- MRS Rd, SPSR (R470, layout R160). -/
  | armMrsSpsr (c : Cond) (rd : RegNum)
  /-- MSR CPSR_<mask>, Rm (R471 to R473, layout R160). -/
  | armMsrCpsrReg (c : Cond) (mask : BitVec 4) (rm : RegNum)
  /-- MSR SPSR_<mask>, Rm (R471, R474, layout R160). -/
  | armMsrSpsrReg (c : Cond) (mask : BitVec 4) (rm : RegNum)
  /-- MSR CPSR_<mask>, #imm (R471 to R473, layout R160). -/
  | armMsrCpsrImm (c : Cond) (mask rot4 : BitVec 4) (imm8 : BitVec 8)
  /-- MSR SPSR_<mask>, #imm (R471, R474, layout R160). -/
  | armMsrSpsrImm (c : Cond) (mask rot4 : BitVec 4) (imm8 : BitVec 8)
  /-- AND{S} Rd, Rn, operand 2 (R310, layout R154). -/
  | armAnd (c : Cond) (s : Bool) (rn rd : RegNum) (op2 : Operand2)
  /-- EOR{S} Rd, Rn, operand 2 (R311, layout R154). -/
  | armEor (c : Cond) (s : Bool) (rn rd : RegNum) (op2 : Operand2)
  /-- SUB{S} Rd, Rn, operand 2 (R312, layout R154). -/
  | armSub (c : Cond) (s : Bool) (rn rd : RegNum) (op2 : Operand2)
  /-- RSB{S} Rd, Rn, operand 2 (R313, layout R154). -/
  | armRsb (c : Cond) (s : Bool) (rn rd : RegNum) (op2 : Operand2)
  /-- ADD{S} Rd, Rn, operand 2 (R314, layout R154). -/
  | armAdd (c : Cond) (s : Bool) (rn rd : RegNum) (op2 : Operand2)
  /-- ADC{S} Rd, Rn, operand 2 (R315, layout R154). -/
  | armAdc (c : Cond) (s : Bool) (rn rd : RegNum) (op2 : Operand2)
  /-- SBC{S} Rd, Rn, operand 2 (R316, layout R154). -/
  | armSbc (c : Cond) (s : Bool) (rn rd : RegNum) (op2 : Operand2)
  /-- RSC{S} Rd, Rn, operand 2 (R317, layout R154). -/
  | armRsc (c : Cond) (s : Bool) (rn rd : RegNum) (op2 : Operand2)
  /-- TST Rn, operand 2 (R318, layout R154; the Rd field is ignored). -/
  | armTst (c : Cond) (rn : RegNum) (op2 : Operand2)
  /-- TEQ Rn, operand 2 (R319, layout R154; the Rd field is ignored). -/
  | armTeq (c : Cond) (rn : RegNum) (op2 : Operand2)
  /-- CMP Rn, operand 2 (R320, layout R154; the Rd field is ignored). -/
  | armCmp (c : Cond) (rn : RegNum) (op2 : Operand2)
  /-- CMN Rn, operand 2 (R321, layout R154; the Rd field is ignored). -/
  | armCmn (c : Cond) (rn : RegNum) (op2 : Operand2)
  /-- ORR{S} Rd, Rn, operand 2 (R322, layout R154). -/
  | armOrr (c : Cond) (s : Bool) (rn rd : RegNum) (op2 : Operand2)
  /-- MOV{S} Rd, operand 2 (R323, layout R154; the Rn field is ignored). -/
  | armMov (c : Cond) (s : Bool) (rd : RegNum) (op2 : Operand2)
  /-- BIC{S} Rd, Rn, operand 2 (R324, layout R154). -/
  | armBic (c : Cond) (s : Bool) (rn rd : RegNum) (op2 : Operand2)
  /-- MVN{S} Rd, operand 2 (R325, layout R154; the Rn field is ignored). -/
  | armMvn (c : Cond) (s : Bool) (rd : RegNum) (op2 : Operand2)
  /-- An undefined word of class 110 (R153 line 13, R476); `rest` is bits 24..0. -/
  | armUndefClass110 (c : Cond) (rest : BitVec 25)
  /-- SWI #comment (R475, layout R164); `comment` is bits 24..0, bit 24 included (D16; log 15). -/
  | armSwi (c : Cond) (comment : BitVec 25)
  /-- Format 1: LSL Rd, Rs, #offset5 (R501). -/
  | thumbLslImm (offset5 : BitVec 5) (rs rd : LowReg)
  /-- Format 1: LSR Rd, Rs, #offset5 (R502). -/
  | thumbLsrImm (offset5 : BitVec 5) (rs rd : LowReg)
  /-- Format 1: ASR Rd, Rs, #offset5 (R503). -/
  | thumbAsrImm (offset5 : BitVec 5) (rs rd : LowReg)
  /-- Format 2: ADD Rd, Rs, Rn (R504). -/
  | thumbAddReg (rn rs rd : LowReg)
  /-- Format 2: SUB Rd, Rs, Rn (R505). -/
  | thumbSubReg (rn rs rd : LowReg)
  /-- Format 2: ADD Rd, Rs, #imm3 (R506). -/
  | thumbAddImm3 (imm3 : BitVec 3) (rs rd : LowReg)
  /-- Format 2: SUB Rd, Rs, #imm3 (R507). -/
  | thumbSubImm3 (imm3 : BitVec 3) (rs rd : LowReg)
  /-- Format 3: MOV Rd, #imm8 (R508). -/
  | thumbMovImm8 (rd : LowReg) (imm8 : BitVec 8)
  /-- Format 3: CMP Rd, #imm8 (R509). -/
  | thumbCmpImm8 (rd : LowReg) (imm8 : BitVec 8)
  /-- Format 3: ADD Rd, #imm8 (R510). -/
  | thumbAddImm8 (rd : LowReg) (imm8 : BitVec 8)
  /-- Format 3: SUB Rd, #imm8 (R511). -/
  | thumbSubImm8 (rd : LowReg) (imm8 : BitVec 8)
  /-- Format 4, op 0: AND Rd, Rs (R512). -/
  | thumbAnd (rs rd : LowReg)
  /-- Format 4, op 1: EOR Rd, Rs (R513). -/
  | thumbEor (rs rd : LowReg)
  /-- Format 4, op 2: LSL Rd, Rs (R514). -/
  | thumbLslReg (rs rd : LowReg)
  /-- Format 4, op 3: LSR Rd, Rs (R515). -/
  | thumbLsrReg (rs rd : LowReg)
  /-- Format 4, op 4: ASR Rd, Rs (R516). -/
  | thumbAsrReg (rs rd : LowReg)
  /-- Format 4, op 5: ADC Rd, Rs (R517). -/
  | thumbAdc (rs rd : LowReg)
  /-- Format 4, op 6: SBC Rd, Rs (R518). -/
  | thumbSbc (rs rd : LowReg)
  /-- Format 4, op 7: ROR Rd, Rs (R519). -/
  | thumbRorReg (rs rd : LowReg)
  /-- Format 4, op 8: TST Rd, Rs (R520). -/
  | thumbTst (rs rd : LowReg)
  /-- Format 4, op 9: NEG Rd, Rs (R521). -/
  | thumbNeg (rs rd : LowReg)
  /-- Format 4, op 10: CMP Rd, Rs (R522). -/
  | thumbCmpReg (rs rd : LowReg)
  /-- Format 4, op 11: CMN Rd, Rs (R523). -/
  | thumbCmn (rs rd : LowReg)
  /-- Format 4, op 12: ORR Rd, Rs (R524). -/
  | thumbOrr (rs rd : LowReg)
  /-- Format 4, op 13: MUL Rd, Rs (R525). -/
  | thumbMul (rs rd : LowReg)
  /-- Format 4, op 14: BIC Rd, Rs (R526). -/
  | thumbBic (rs rd : LowReg)
  /-- Format 4, op 15: MVN Rd, Rs (R527). -/
  | thumbMvn (rs rd : LowReg)
  /-- Format 5: ADD Rd, Rs with four-bit register numbers (R530). -/
  | thumbAddHi (rs rd : RegNum)
  /-- Format 5: CMP Rd, Rs with four-bit register numbers (R531). -/
  | thumbCmpHi (rs rd : RegNum)
  /-- Format 5: MOV Rd, Rs with four-bit register numbers (R532). -/
  | thumbMovHi (rs rd : RegNum)
  /-- Format 5: BX Rs (R533; H1 and the Rd field are ignored). -/
  | thumbBx (rs : RegNum)
  /-- Format 6: LDR Rd, [PC, #word8 * 4] (R561). -/
  | thumbLdrPc (rd : LowReg) (word8 : BitVec 8)
  /-- Format 7: STR Rd, [Rb, Ro] (R562). -/
  | thumbStrReg (ro rb rd : LowReg)
  /-- Format 7: STRB Rd, [Rb, Ro] (R563). -/
  | thumbStrbReg (ro rb rd : LowReg)
  /-- Format 7: LDR Rd, [Rb, Ro] (R564). -/
  | thumbLdrReg (ro rb rd : LowReg)
  /-- Format 7: LDRB Rd, [Rb, Ro] (R565). -/
  | thumbLdrbReg (ro rb rd : LowReg)
  /-- Format 8: STRH Rd, [Rb, Ro] (R566). -/
  | thumbStrhReg (ro rb rd : LowReg)
  /-- Format 8: LDSB Rd, [Rb, Ro] (R567). -/
  | thumbLdsb (ro rb rd : LowReg)
  /-- Format 8: LDRH Rd, [Rb, Ro] (R568). -/
  | thumbLdrhReg (ro rb rd : LowReg)
  /-- Format 8: LDSH Rd, [Rb, Ro] (R569). -/
  | thumbLdsh (ro rb rd : LowReg)
  /-- Format 9: STR Rd, [Rb, #offset5 * 4] (R570). -/
  | thumbStrImm (offset5 : BitVec 5) (rb rd : LowReg)
  /-- Format 9: LDR Rd, [Rb, #offset5 * 4] (R571). -/
  | thumbLdrImm (offset5 : BitVec 5) (rb rd : LowReg)
  /-- Format 9: STRB Rd, [Rb, #offset5] (R572). -/
  | thumbStrbImm (offset5 : BitVec 5) (rb rd : LowReg)
  /-- Format 9: LDRB Rd, [Rb, #offset5] (R573). -/
  | thumbLdrbImm (offset5 : BitVec 5) (rb rd : LowReg)
  /-- Format 10: STRH Rd, [Rb, #offset5 * 2] (R574). -/
  | thumbStrhImm (offset5 : BitVec 5) (rb rd : LowReg)
  /-- Format 10: LDRH Rd, [Rb, #offset5 * 2] (R575). -/
  | thumbLdrhImm (offset5 : BitVec 5) (rb rd : LowReg)
  /-- Format 11: STR Rd, [SP, #word8 * 4] (R576). -/
  | thumbStrSp (rd : LowReg) (word8 : BitVec 8)
  /-- Format 11: LDR Rd, [SP, #word8 * 4] (R577). -/
  | thumbLdrSp (rd : LowReg) (word8 : BitVec 8)
  /-- Format 12: ADD Rd, PC, #word8 * 4 (R578). -/
  | thumbAddRdPc (rd : LowReg) (word8 : BitVec 8)
  /-- Format 12: ADD Rd, SP, #word8 * 4 (R579). -/
  | thumbAddRdSp (rd : LowReg) (word8 : BitVec 8)
  /-- Format 13: ADD SP, #sword7 * 4 (R580). -/
  | thumbAddSpImm (sword7 : BitVec 7)
  /-- Format 13: SUB SP, #sword7 * 4 (R581). -/
  | thumbSubSpImm (sword7 : BitVec 7)
  /-- Format 14: PUSH {list} or PUSH {list, LR} (R582). -/
  | thumbPush (lr : Bool) (list : BitVec 8)
  /-- Format 14: POP {list} or POP {list, PC} (R583). -/
  | thumbPop (pc : Bool) (list : BitVec 8)
  /-- An undefined halfword with prefix 1011 (R170 line 15, R625); `rest` is bits 11..0. -/
  | thumbUndef1011 (rest : BitVec 12)
  /-- Format 15: STMIA Rb!, {list} (R584). -/
  | thumbStmia (rb : LowReg) (list : BitVec 8)
  /-- Format 15: LDMIA Rb!, {list} (R585). -/
  | thumbLdmia (rb : LowReg) (list : BitVec 8)
  /-- Format 17: SWI #value8 (R621). -/
  | thumbSwi (value8 : BitVec 8)
  /-- Format 16: B<cond> label, cond 0x0 to 0xE (R620). -/
  | thumbBCond (c : Cond) (soffset8 : BitVec 8)
  /-- Format 18: B label (R622). -/
  | thumbB (offset11 : BitVec 11)
  /-- An undefined halfword with prefix 11101 (R170 line 20, R625); `rest` is bits 10..0. -/
  | thumbUndef11101 (rest : BitVec 11)
  /-- Format 19, H = 0: first half of BL (R623). -/
  | thumbBlFirst (offset11 : BitVec 11)
  /-- Format 19, H = 1: second half of BL (R624). -/
  | thumbBlSecond (offset11 : BitVec 11)
  deriving DecidableEq, Repr

/-- An instruction as it is fetched: 32 bits in ARM state, 16 in Thumb state (R150). -/
inductive CodeWord where
  | arm (w : Word)
  | thumb (h : Half)
  deriving DecidableEq, Repr

end Sys2Proof
end

