-- ==== Sys2Proof/WellFormed.lean ====
section
/-! DEFINITION. Which terms of `Instr` are instructions. The types bound every operand but three: the bits
of an undefined encoding must not be those of a defined one (30_encoding.md R153 line 7, R170 line 15), and the
condition of Thumb format 16 is not 0xF, which is format 17 (R181). -/

namespace Sys2Proof

/-- Bits 24..20 of a class-000 word with bits 7..4 = 1001 that is no multiply (24..22 = 000), no long multiply
(24..23 = 01) and no swap (24..23 = 10, 21..20 = 00): R153 lines 4 to 7. -/
def undefinedMultiplyOp (op : BitVec 5) : Bool :=
  !(bits op 2 3 == 0b000#3) && !(bits op 3 2 == 0b01#2) &&
    !(bits op 3 2 == 0b10#2 && bits op 0 2 == 0b00#2)

/-- Bits 11..0 of a Thumb halfword with prefix 1011 that is neither format 13 (0xB0xx) nor format 14
(bits 10..9 = 10): R170 lines 13 to 15. -/
def undefined1011 (rest : BitVec 12) : Bool :=
  !(bits rest 8 4 == 0b0000#4) && !(bits rest 9 2 == 0b10#2)

/-- The check a term must pass to be an instruction. -/
def Instr.wellFormed : Instr → Bool
  | .armUndefMultiply _ op _ _ => undefinedMultiplyOp op
  | .thumbUndef1011 rest => undefined1011 rest
  | .thumbBCond c _ => c != .nv
  | .armB .. | .armBl .. | .armStm .. | .armLdm .. | .armStr .. | .armLdr .. | .armStrb .. | .armLdrb .. |
    .armMul .. | .armMla .. | .armUmull .. | .armUmlal .. | .armSmull .. | .armSmlal .. | .armSwp .. |
    .armSwpb .. | .armStrh .. | .armLdrh .. | .armLdrsb .. | .armLdrsh .. | .armUndefStoreSh10 .. |
    .armUndefStoreSh11 .. | .armBx .. | .armMrsCpsr .. | .armMrsSpsr .. | .armMsrCpsrReg .. |
    .armMsrSpsrReg .. | .armMsrCpsrImm .. | .armMsrSpsrImm .. | .armAnd .. | .armEor .. | .armSub .. |
    .armRsb .. | .armAdd .. | .armAdc .. | .armSbc .. | .armRsc .. | .armTst .. | .armTeq .. | .armCmp .. |
    .armCmn .. | .armOrr .. | .armMov .. | .armBic .. | .armMvn .. | .armUndefClass110 .. | .armSwi .. |
    .thumbLslImm .. | .thumbLsrImm .. | .thumbAsrImm .. | .thumbAddReg .. | .thumbSubReg .. |
    .thumbAddImm3 .. | .thumbSubImm3 .. | .thumbMovImm8 .. | .thumbCmpImm8 .. | .thumbAddImm8 .. |
    .thumbSubImm8 .. | .thumbAnd .. | .thumbEor .. | .thumbLslReg .. | .thumbLsrReg .. | .thumbAsrReg .. |
    .thumbAdc .. | .thumbSbc .. | .thumbRorReg .. | .thumbTst .. | .thumbNeg .. | .thumbCmpReg .. |
    .thumbCmn .. | .thumbOrr .. | .thumbMul .. | .thumbBic .. | .thumbMvn .. | .thumbAddHi .. |
    .thumbCmpHi .. | .thumbMovHi .. | .thumbBx .. | .thumbLdrPc .. | .thumbStrReg .. | .thumbStrbReg .. |
    .thumbLdrReg .. | .thumbLdrbReg .. | .thumbStrhReg .. | .thumbLdsb .. | .thumbLdrhReg .. |
    .thumbLdsh .. | .thumbStrImm .. | .thumbLdrImm .. | .thumbStrbImm .. | .thumbLdrbImm .. |
    .thumbStrhImm .. | .thumbLdrhImm .. | .thumbStrSp .. | .thumbLdrSp .. | .thumbAddRdPc .. |
    .thumbAddRdSp .. | .thumbAddSpImm .. | .thumbSubSpImm .. | .thumbPush .. | .thumbPop .. |
    .thumbStmia .. | .thumbLdmia .. | .thumbSwi .. | .thumbB .. | .thumbUndef11101 .. | .thumbBlFirst .. |
    .thumbBlSecond .. => true

end Sys2Proof
end

