-- ==== Sys2Proof/Decode.lean ====
section
/-! DEFINITION. The decoder, from spec/30_encoding.md: the ARM decode order of R153 with the layouts R154 to R164,
the Thumb decode order of R170 with the layouts R171. Both are total: every word is an instruction or one of the
undefined encodings, which are instructions too (R180). After it the encoder, from the same layouts; it writes 0 in the
fields the decoder ignores (DESIGN CHOICE, safe: log 9). -/

namespace Sys2Proof

/-! ## Fields and their codes -/

/-- Fields laid side by side, the highest first, as a vector of the width they add up to. -/
def pack {n m : Nat} (v : BitVec n) (h : n = m := by rfl) : BitVec m := v.cast h

/-- The condition a 4-bit field names (R152). -/
def Cond.ofBits (b : BitVec 4) : Cond :=
  match b.toNat with
  | 0 => .eq | 1 => .ne | 2 => .cs | 3 => .cc | 4 => .mi | 5 => .pl | 6 => .vs | 7 => .vc
  | 8 => .hi | 9 => .ls | 10 => .ge | 11 => .lt | 12 => .gt | 13 => .le | 14 => .al | _ => .nv

/-- The 4-bit field of a condition (R152). -/
def Cond.toBits : Cond → BitVec 4
  | .eq => 0x0#4 | .ne => 0x1#4 | .cs => 0x2#4 | .cc => 0x3#4
  | .mi => 0x4#4 | .pl => 0x5#4 | .vs => 0x6#4 | .vc => 0x7#4
  | .hi => 0x8#4 | .ls => 0x9#4 | .ge => 0xA#4 | .lt => 0xB#4
  | .gt => 0xC#4 | .le => 0xD#4 | .al => 0xE#4 | .nv => 0xF#4

/-- The shift type a 2-bit field names (R155, R244). -/
def ShiftType.ofBits (b : BitVec 2) : ShiftType :=
  match b.toNat with
  | 0 => .lsl | 1 => .lsr | 2 => .asr | _ => .ror

/-- The 2-bit field of a shift type (R155, R244). -/
def ShiftType.toBits : ShiftType → BitVec 2
  | .lsl => 0b00#2 | .lsr => 0b01#2 | .asr => 0b10#2 | .ror => 0b11#2

/-! ## ARM -/

/-- Operand 2 of a data-processing word (R155). -/
def decodeOperand2 (w : Word) : Operand2 :=
  if w.getLsbD 25 then .imm (bits w 8 4) (bits w 0 8)
  else if w.getLsbD 4 then .shiftReg (bits w 8 4) (.ofBits (bits w 5 2)) (bits w 0 4)
  else .shiftImm (bits w 7 5) (.ofBits (bits w 5 2)) (bits w 0 4)

/-- P, U, W and Rn of a single or halfword transfer (R161, R158). -/
def decodeAddressing (w : Word) : Addressing :=
  { pre := w.getLsbD 24, up := w.getLsbD 23, wback := w.getLsbD 21, rn := bits w 16 4 }

/-- The offset of a single data transfer (R161). -/
def decodeWordOffset (w : Word) : WordOffset :=
  if w.getLsbD 25 then .shifted (bits w 7 5) (.ofBits (bits w 5 2)) (bits w 0 4)
  else .imm12 (bits w 0 12)

/-- The offset of a halfword or signed transfer (R158). -/
def decodeHalfOffset (w : Word) : HalfOffset :=
  if w.getLsbD 22 then .imm8 (pack (bits w 8 4 ++ bits w 0 4)) else .reg (bits w 0 4)

/-- R153 line 1. -/
def decodeBranch (c : Cond) (w : Word) : Instr :=
  if w.getLsbD 24 then .armBl c (bits w 0 24) else .armB c (bits w 0 24)

/-- R153 line 2. -/
def decodeBlock (c : Cond) (w : Word) : Instr :=
  let a : BlockAddressing :=
    { pre := w.getLsbD 24, up := w.getLsbD 23, sbit := w.getLsbD 22, wback := w.getLsbD 21, rn := bits w 16 4 }
  if w.getLsbD 20 then .armLdm c a (bits w 0 16) else .armStm c a (bits w 0 16)

/-- R153 line 3: bit 22 is B, bit 20 is L. -/
def decodeSingle (c : Cond) (w : Word) : Instr :=
  let a := decodeAddressing w
  let o := decodeWordOffset w
  let rd := bits w 12 4
  if w.getLsbD 22 then
    if w.getLsbD 20 then .armLdrb c a o rd else .armStrb c a o rd
  else
    if w.getLsbD 20 then .armLdr c a o rd else .armStr c a o rd

/-- R153 lines 4 to 7: class 000 with bits 7..4 = 1001. -/
def decodeMultiplySpace (c : Cond) (w : Word) : Instr :=
  let s := w.getLsbD 20
  let hi := bits w 16 4
  let lo := bits w 12 4
  let rs := bits w 8 4
  let rm := bits w 0 4
  if bits w 22 3 = 0b000#3 then
    if w.getLsbD 21 then .armMla c s hi lo rs rm else .armMul c s hi rs rm
  else if bits w 23 2 = 0b01#2 then
    if w.getLsbD 22 then
      if w.getLsbD 21 then .armSmlal c s hi lo rs rm else .armSmull c s hi lo rs rm
    else
      if w.getLsbD 21 then .armUmlal c s hi lo rs rm else .armUmull c s hi lo rs rm
  else if bits w 23 2 = 0b10#2 ∧ bits w 20 2 = 0b00#2 then
    if w.getLsbD 22 then .armSwpb c hi lo rm else .armSwp c hi lo rm
  else .armUndefMultiply c (bits w 20 5) (bits w 8 12) rm

/-- R153 line 8: class 000, bits 7 and 4 set, SH not 00. -/
def decodeHalfSpace (c : Cond) (w : Word) : Instr :=
  let a := decodeAddressing w
  let o := decodeHalfOffset w
  let rd := bits w 12 4
  if w.getLsbD 20 then
    if bits w 5 2 = 0b01#2 then .armLdrh c a o rd
    else if bits w 5 2 = 0b10#2 then .armLdrsb c a o rd
    else .armLdrsh c a o rd
  else
    if bits w 5 2 = 0b01#2 then .armStrh c a o rd
    else if bits w 5 2 = 0b10#2 then .armUndefStoreSh10 c (bits w 21 4) (bits w 8 12) (bits w 0 4)
    else .armUndefStoreSh11 c (bits w 21 4) (bits w 8 12) (bits w 0 4)

/-- R153 lines 10 and 11: bits 24..23 = 10, bit 20 = 0; bit 21 separates MRS from MSR, bit 22 is R, bit 25 the
immediate form of MSR. -/
def decodePsr (c : Cond) (w : Word) : Instr :=
  if w.getLsbD 21 then
    if w.getLsbD 25 then
      if w.getLsbD 22 then .armMsrSpsrImm c (bits w 16 4) (bits w 8 4) (bits w 0 8)
      else .armMsrCpsrImm c (bits w 16 4) (bits w 8 4) (bits w 0 8)
    else
      if w.getLsbD 22 then .armMsrSpsrReg c (bits w 16 4) (bits w 0 4)
      else .armMsrCpsrReg c (bits w 16 4) (bits w 0 4)
  else
    if w.getLsbD 22 then .armMrsSpsr c (bits w 12 4) else .armMrsCpsr c (bits w 12 4)

/-- R153 line 12, opcodes of R154. -/
def decodeDataProcessing (c : Cond) (w : Word) : Instr :=
  let s := w.getLsbD 20
  let rn := bits w 16 4
  let rd := bits w 12 4
  let o := decodeOperand2 w
  match (bits w 21 4).toNat with
  | 0 => .armAnd c s rn rd o
  | 1 => .armEor c s rn rd o
  | 2 => .armSub c s rn rd o
  | 3 => .armRsb c s rn rd o
  | 4 => .armAdd c s rn rd o
  | 5 => .armAdc c s rn rd o
  | 6 => .armSbc c s rn rd o
  | 7 => .armRsc c s rn rd o
  | 8 => .armTst c rn o
  | 9 => .armTeq c rn o
  | 10 => .armCmp c rn o
  | 11 => .armCmn c rn o
  | 12 => .armOrr c s rn rd o
  | 13 => .armMov c s rd o
  | 14 => .armBic c s rn rd o
  | _ => .armMvn c s rd o

/-- The ARM decoder: the first matching line of R153 decides. -/
def decodeArm (w : Word) : Instr :=
  let c := Cond.ofBits (bits w 28 4)
  let cls := bits w 25 3
  if cls = 0b101#3 then decodeBranch c w
  else if cls = 0b100#3 then decodeBlock c w
  else if cls = 0b010#3 ∨ cls = 0b011#3 then decodeSingle c w
  else if cls = 0b000#3 ∧ bits w 4 4 = 0b1001#4 then decodeMultiplySpace c w
  else if cls = 0b000#3 ∧ w.getLsbD 7 ∧ w.getLsbD 4 ∧ bits w 5 2 ≠ 0b00#2 then decodeHalfSpace c w
  else if bits w 4 24 = 0x12FFF1#24 then .armBx c (bits w 0 4)
  else if (cls = 0b000#3 ∨ cls = 0b001#3) ∧ bits w 23 2 = 0b10#2 ∧ ¬ w.getLsbD 20 then decodePsr c w
  else if cls = 0b000#3 ∨ cls = 0b001#3 then decodeDataProcessing c w
  else if cls = 0b110#3 then .armUndefClass110 c (bits w 0 25)
  else .armSwi c (bits w 0 25)

/-! ## Thumb -/

/-- R170 line 4, operations of R171 format 4. -/
def decodeThumbAlu (h : Half) : Instr :=
  let rs := bits h 3 3
  let rd := bits h 0 3
  match (bits h 6 4).toNat with
  | 0 => .thumbAnd rs rd
  | 1 => .thumbEor rs rd
  | 2 => .thumbLslReg rs rd
  | 3 => .thumbLsrReg rs rd
  | 4 => .thumbAsrReg rs rd
  | 5 => .thumbAdc rs rd
  | 6 => .thumbSbc rs rd
  | 7 => .thumbRorReg rs rd
  | 8 => .thumbTst rs rd
  | 9 => .thumbNeg rs rd
  | 10 => .thumbCmpReg rs rd
  | 11 => .thumbCmn rs rd
  | 12 => .thumbOrr rs rd
  | 13 => .thumbMul rs rd
  | 14 => .thumbBic rs rd
  | _ => .thumbMvn rs rd

/-- R170 line 5: H1 and H2 extend the register numbers to four bits (R171 format 5). -/
def decodeThumbHi (h : Half) : Instr :=
  let rs : RegNum := pack (bits h 6 1 ++ bits h 3 3)
  let rd : RegNum := pack (bits h 7 1 ++ bits h 0 3)
  match (bits h 8 2).toNat with
  | 0 => .thumbAddHi rs rd
  | 1 => .thumbCmpHi rs rd
  | 2 => .thumbMovHi rs rd
  | _ => .thumbBx rs

/-- R170 lines 7 and 8: bits 11..9 select the operation (R171 formats 7 and 8). -/
def decodeThumbRegOffset (h : Half) : Instr :=
  let ro := bits h 6 3
  let rb := bits h 3 3
  let rd := bits h 0 3
  match (bits h 9 3).toNat with
  | 0b000 => .thumbStrReg ro rb rd
  | 0b010 => .thumbStrbReg ro rb rd
  | 0b100 => .thumbLdrReg ro rb rd
  | 0b110 => .thumbLdrbReg ro rb rd
  | 0b001 => .thumbStrhReg ro rb rd
  | 0b011 => .thumbLdsb ro rb rd
  | 0b101 => .thumbLdrhReg ro rb rd
  | _ => .thumbLdsh ro rb rd

/-- R170 lines 13 to 15: prefix 1011. -/
def decodeThumb1011 (h : Half) : Instr :=
  if bits h 8 4 = 0b0000#4 then
    if h.getLsbD 7 then .thumbSubSpImm (bits h 0 7) else .thumbAddSpImm (bits h 0 7)
  else if bits h 9 2 = 0b10#2 then
    if h.getLsbD 11 then .thumbPop (h.getLsbD 8) (bits h 0 8) else .thumbPush (h.getLsbD 8) (bits h 0 8)
  else .thumbUndef1011 (bits h 0 12)

/-- The Thumb decoder: bits 15..11 decide the line of R170, with the further tests the line names. -/
def decodeThumb (h : Half) : Instr :=
  let rd8 := bits h 8 3
  let imm8 := bits h 0 8
  let off5 := bits h 6 5
  let r3 := bits h 3 3
  let r0 := bits h 0 3
  match (bits h 11 5).toNat with
  | 0b00011 =>
    match (bits h 9 2).toNat with
    | 0b00 => .thumbAddReg (bits h 6 3) r3 r0
    | 0b01 => .thumbSubReg (bits h 6 3) r3 r0
    | 0b10 => .thumbAddImm3 (bits h 6 3) r3 r0
    | _ => .thumbSubImm3 (bits h 6 3) r3 r0
  | 0b00000 => .thumbLslImm off5 r3 r0
  | 0b00001 => .thumbLsrImm off5 r3 r0
  | 0b00010 => .thumbAsrImm off5 r3 r0
  | 0b00100 => .thumbMovImm8 rd8 imm8
  | 0b00101 => .thumbCmpImm8 rd8 imm8
  | 0b00110 => .thumbAddImm8 rd8 imm8
  | 0b00111 => .thumbSubImm8 rd8 imm8
  | 0b01000 => if h.getLsbD 10 then decodeThumbHi h else decodeThumbAlu h
  | 0b01001 => .thumbLdrPc rd8 imm8
  | 0b01010 => decodeThumbRegOffset h
  | 0b01011 => decodeThumbRegOffset h
  | 0b01100 => .thumbStrImm off5 r3 r0
  | 0b01101 => .thumbLdrImm off5 r3 r0
  | 0b01110 => .thumbStrbImm off5 r3 r0
  | 0b01111 => .thumbLdrbImm off5 r3 r0
  | 0b10000 => .thumbStrhImm off5 r3 r0
  | 0b10001 => .thumbLdrhImm off5 r3 r0
  | 0b10010 => .thumbStrSp rd8 imm8
  | 0b10011 => .thumbLdrSp rd8 imm8
  | 0b10100 => .thumbAddRdPc rd8 imm8
  | 0b10101 => .thumbAddRdSp rd8 imm8
  | 0b10110 => decodeThumb1011 h
  | 0b10111 => decodeThumb1011 h
  | 0b11000 => .thumbStmia rd8 imm8
  | 0b11001 => .thumbLdmia rd8 imm8
  | 0b11010 => .thumbBCond (.ofBits (bits h 8 4)) imm8
  | 0b11011 =>
    if bits h 8 4 = 0b1111#4 then .thumbSwi imm8 else .thumbBCond (.ofBits (bits h 8 4)) imm8
  | 0b11100 => .thumbB (bits h 0 11)
  | 0b11101 => .thumbUndef11101 (bits h 0 11)
  | 0b11110 => .thumbBlFirst (bits h 0 11)
  | _ => .thumbBlSecond (bits h 0 11)

/-! ## Words and bytes -/

/-- The decoder on a fetched word (R150). -/
def decode : CodeWord → Instr
  | .arm w => decodeArm w
  | .thumb h => decodeThumb h

/-- Why bytes hold no instruction. -/
inductive DecodeReject where
  /-- Fewer bytes than an instruction of the current state has (R150). -/
  | truncated
  deriving DecidableEq, Repr

/-- The little-endian halfword of two bytes, the lower address first (R150). -/
def halfOfBytes (b0 b1 : Byte) : Half := pack (b1 ++ b0)

/-- The little-endian word of four bytes, the lowest address first (R150). -/
def wordOfBytes (b0 b1 b2 b3 : Byte) : Word := pack (b3 ++ b2 ++ b1 ++ b0)

/-- Decoding bytes laid out as memory holds them, in ARM (`thumb = false`) or Thumb state; the rest is given back. -/
def decodeBytes (thumb : Bool) (bytes : List Byte) : Except DecodeReject (Instr × List Byte) :=
  match thumb, bytes with
  | true, b0 :: b1 :: rest => .ok (decodeThumb (halfOfBytes b0 b1), rest)
  | false, b0 :: b1 :: b2 :: b3 :: rest => .ok (decodeArm (wordOfBytes b0 b1 b2 b3), rest)
  | _, _ => .error .truncated

/-- The instruction the decoder reads from a row of spec/opcode_table.json whose bits are `w`: a row of at most 16
bits is a Thumb halfword, a longer one an ARM word. -/
def decodeTableWord (nbits w : Nat) : Option Instr :=
  let v : Word := BitVec.ofNat 32 w
  let bytes : List Byte :=
    if nbits ≤ 16 then [bits v 0 8, bits v 8 8] else [bits v 0 8, bits v 8 8, bits v 16 8, bits v 24 8]
  match decodeBytes (nbits ≤ 16) bytes with
  | .ok (i, _) => some i
  | .error _ => none

/-! ## The encoder -/

/-- The class bits 27..25 of a data-processing word: bit 25 is I (R154). -/
def Operand2.cls : Operand2 → BitVec 3
  | .imm .. => 0b001#3
  | .shiftImm .. | .shiftReg .. => 0b000#3

/-- Bits 11..0 of a data-processing word (R155). -/
def Operand2.field : Operand2 → BitVec 12
  | .imm rot4 imm8 => pack (rot4 ++ imm8)
  | .shiftImm amount type rm => pack (amount ++ type.toBits ++ 0b0#1 ++ rm)
  | .shiftReg rs type rm => pack (rs ++ 0b0#1 ++ type.toBits ++ 0b1#1 ++ rm)

/-- The class bits 27..25 of a single data transfer: bit 25 is I (R161). -/
def WordOffset.cls : WordOffset → BitVec 3
  | .imm12 _ => 0b010#3
  | .shifted .. => 0b011#3

/-- Bits 11..0 of a single data transfer; the ignored bit 4 is written 0 (R161). -/
def WordOffset.field : WordOffset → BitVec 12
  | .imm12 value => value
  | .shifted amount type rm => pack (amount ++ type.toBits ++ 0b0#1 ++ rm)

/-- Bit 22 of a halfword transfer (R158). -/
def HalfOffset.immediate : HalfOffset → Bool
  | .imm8 _ => true
  | .reg _ => false

/-- Bits 11..8 of a halfword transfer; ignored and written 0 for a register offset (R158). -/
def HalfOffset.high : HalfOffset → BitVec 4
  | .imm8 value => bits value 4 4
  | .reg _ => 0b0000#4

/-- Bits 3..0 of a halfword transfer (R158). -/
def HalfOffset.low : HalfOffset → BitVec 4
  | .imm8 value => bits value 0 4
  | .reg rm => rm

/-- A block transfer word (R162), `l` = 1 for LDM. -/
def encodeBlock (c : Cond) (l : Bool) (a : BlockAddressing) (list : BitVec 16) : Word :=
  pack (c.toBits ++ 0b100#3 ++ BitVec.ofBool a.pre ++ BitVec.ofBool a.up ++ BitVec.ofBool a.sbit ++ BitVec.ofBool a.wback ++
    BitVec.ofBool l ++ a.rn ++ list)

/-- A single data transfer word (R161), `b` = 1 for a byte, `l` = 1 for a load. -/
def encodeSingle (c : Cond) (b l : Bool) (a : Addressing) (o : WordOffset) (rd : RegNum) : Word :=
  pack (c.toBits ++ o.cls ++ BitVec.ofBool a.pre ++ BitVec.ofBool a.up ++ BitVec.ofBool b ++ BitVec.ofBool a.wback ++
    BitVec.ofBool l ++ a.rn ++ rd ++ o.field)

/-- A halfword or signed transfer word (R158). -/
def encodeHalf (c : Cond) (l : Bool) (sh : BitVec 2) (a : Addressing) (o : HalfOffset) (rd : RegNum) : Word :=
  pack (c.toBits ++ 0b000#3 ++ BitVec.ofBool a.pre ++ BitVec.ofBool a.up ++ BitVec.ofBool o.immediate ++
    BitVec.ofBool a.wback ++ BitVec.ofBool l ++ a.rn ++ rd ++ o.high ++ 0b1#1 ++ sh ++ 0b1#1 ++ o.low)

/-- A multiply word (R156): `op` is bits 24..21. -/
def encodeMultiply (c : Cond) (op : BitVec 4) (s : Bool) (hi lo rs rm : RegNum) : Word :=
  pack (c.toBits ++ 0b000#3 ++ op ++ BitVec.ofBool s ++ hi ++ lo ++ rs ++ 0b1001#4 ++ rm)

/-- A swap word (R157); the ignored bits 11..8 are written 0. -/
def encodeSwap (c : Cond) (b : Bool) (rn rd rm : RegNum) : Word :=
  pack (c.toBits ++ 0b000#3 ++ 0b10#2 ++ BitVec.ofBool b ++ 0b00#2 ++ rn ++ rd ++ 0b0000#4 ++ 0b1001#4 ++ rm)

/-- A data-processing word (R154). -/
def encodeDataProcessing (c : Cond) (op : BitVec 4) (s : Bool) (rn rd : RegNum) (o : Operand2) : Word :=
  pack (c.toBits ++ o.cls ++ op ++ BitVec.ofBool s ++ rn ++ rd ++ o.field)

/-- An MRS word (R160); the ignored bits are written 0. -/
def encodeMrs (c : Cond) (r : Bool) (rd : RegNum) : Word :=
  pack (c.toBits ++ 0b000#3 ++ 0b10#2 ++ BitVec.ofBool r ++ 0b00#2 ++ 0b0000#4 ++ rd ++ 0x000#12)

/-- An MSR word with a register operand (R160); the ignored bits are written 0. -/
def encodeMsrReg (c : Cond) (r : Bool) (mask : BitVec 4) (rm : RegNum) : Word :=
  pack (c.toBits ++ 0b000#3 ++ 0b10#2 ++ BitVec.ofBool r ++ 0b10#2 ++ mask ++ 0x000#12 ++ rm)

/-- An MSR word with an immediate operand (R160); the ignored bits are written 0. -/
def encodeMsrImm (c : Cond) (r : Bool) (mask rot4 : BitVec 4) (imm8 : BitVec 8) : Word :=
  pack (c.toBits ++ 0b001#3 ++ 0b10#2 ++ BitVec.ofBool r ++ 0b10#2 ++ mask ++ 0x0#4 ++ rot4 ++ imm8)

/-- Thumb formats 1, 9 and 10 (R171): a five-bit prefix, a five-bit offset, two registers. -/
def encodeThumb5533 (prefix5 offset5 : BitVec 5) (rs rd : LowReg) : Half := pack (prefix5 ++ offset5 ++ rs ++ rd)

/-- Thumb formats 2, 7 and 8 (R171): a seven-bit prefix and three three-bit fields. -/
def encodeThumb7333 (prefix7 : BitVec 7) (ro rb rd : LowReg) : Half := pack (prefix7 ++ ro ++ rb ++ rd)

/-- Thumb formats 3, 6, 11, 12 and 15 (R171): a five-bit prefix, a register, eight bits. -/
def encodeThumb538 (prefix5 : BitVec 5) (rd : LowReg) (imm8 : BitVec 8) : Half := pack (prefix5 ++ rd ++ imm8)

/-- Thumb format 4 (R171). -/
def encodeThumbAlu (op : BitVec 4) (rs rd : LowReg) : Half := pack (0b010000#6 ++ op ++ rs ++ rd)

/-- Thumb format 5 (R171): H1 and H2 are the high bits of Rd and Rs. -/
def encodeThumbHi (op : BitVec 2) (rs rd : RegNum) : Half :=
  pack (0b010001#6 ++ op ++ bits rd 3 1 ++ bits rs 3 1 ++ bits rs 0 3 ++ bits rd 0 3)

/-- The word of a well-formed instruction. Fields the decoder ignores are written 0. -/
def encode : Instr → CodeWord
  | .armB c offset => .arm (pack (c.toBits ++ 0b101#3 ++ 0b0#1 ++ offset))
  | .armBl c offset => .arm (pack (c.toBits ++ 0b101#3 ++ 0b1#1 ++ offset))
  | .armStm c a list => .arm (encodeBlock c false a list)
  | .armLdm c a list => .arm (encodeBlock c true a list)
  | .armStr c a o rd => .arm (encodeSingle c false false a o rd)
  | .armLdr c a o rd => .arm (encodeSingle c false true a o rd)
  | .armStrb c a o rd => .arm (encodeSingle c true false a o rd)
  | .armLdrb c a o rd => .arm (encodeSingle c true true a o rd)
  | .armMul c s rd rs rm => .arm (encodeMultiply c 0b0000#4 s rd 0x0#4 rs rm)
  | .armMla c s rd rn rs rm => .arm (encodeMultiply c 0b0001#4 s rd rn rs rm)
  | .armUmull c s rdHi rdLo rs rm => .arm (encodeMultiply c 0b0100#4 s rdHi rdLo rs rm)
  | .armUmlal c s rdHi rdLo rs rm => .arm (encodeMultiply c 0b0101#4 s rdHi rdLo rs rm)
  | .armSmull c s rdHi rdLo rs rm => .arm (encodeMultiply c 0b0110#4 s rdHi rdLo rs rm)
  | .armSmlal c s rdHi rdLo rs rm => .arm (encodeMultiply c 0b0111#4 s rdHi rdLo rs rm)
  | .armSwp c rn rd rm => .arm (encodeSwap c false rn rd rm)
  | .armSwpb c rn rd rm => .arm (encodeSwap c true rn rd rm)
  | .armUndefMultiply c op mid low => .arm (pack (c.toBits ++ 0b000#3 ++ op ++ mid ++ 0b1001#4 ++ low))
  | .armStrh c a o rd => .arm (encodeHalf c false 0b01#2 a o rd)
  | .armLdrh c a o rd => .arm (encodeHalf c true 0b01#2 a o rd)
  | .armLdrsb c a o rd => .arm (encodeHalf c true 0b10#2 a o rd)
  | .armLdrsh c a o rd => .arm (encodeHalf c true 0b11#2 a o rd)
  | .armUndefStoreSh10 c op mid low => .arm (pack (c.toBits ++ 0b000#3 ++ op ++ 0b0#1 ++ mid ++ 0b1101#4 ++ low))
  | .armUndefStoreSh11 c op mid low => .arm (pack (c.toBits ++ 0b000#3 ++ op ++ 0b0#1 ++ mid ++ 0b1111#4 ++ low))
  | .armBx c rm => .arm (pack (c.toBits ++ 0x12FFF1#24 ++ rm))
  | .armMrsCpsr c rd => .arm (encodeMrs c false rd)
  | .armMrsSpsr c rd => .arm (encodeMrs c true rd)
  | .armMsrCpsrReg c mask rm => .arm (encodeMsrReg c false mask rm)
  | .armMsrSpsrReg c mask rm => .arm (encodeMsrReg c true mask rm)
  | .armMsrCpsrImm c mask rot4 imm8 => .arm (encodeMsrImm c false mask rot4 imm8)
  | .armMsrSpsrImm c mask rot4 imm8 => .arm (encodeMsrImm c true mask rot4 imm8)
  | .armAnd c s rn rd o => .arm (encodeDataProcessing c 0x0#4 s rn rd o)
  | .armEor c s rn rd o => .arm (encodeDataProcessing c 0x1#4 s rn rd o)
  | .armSub c s rn rd o => .arm (encodeDataProcessing c 0x2#4 s rn rd o)
  | .armRsb c s rn rd o => .arm (encodeDataProcessing c 0x3#4 s rn rd o)
  | .armAdd c s rn rd o => .arm (encodeDataProcessing c 0x4#4 s rn rd o)
  | .armAdc c s rn rd o => .arm (encodeDataProcessing c 0x5#4 s rn rd o)
  | .armSbc c s rn rd o => .arm (encodeDataProcessing c 0x6#4 s rn rd o)
  | .armRsc c s rn rd o => .arm (encodeDataProcessing c 0x7#4 s rn rd o)
  | .armTst c rn o => .arm (encodeDataProcessing c 0x8#4 true rn 0x0#4 o)
  | .armTeq c rn o => .arm (encodeDataProcessing c 0x9#4 true rn 0x0#4 o)
  | .armCmp c rn o => .arm (encodeDataProcessing c 0xA#4 true rn 0x0#4 o)
  | .armCmn c rn o => .arm (encodeDataProcessing c 0xB#4 true rn 0x0#4 o)
  | .armOrr c s rn rd o => .arm (encodeDataProcessing c 0xC#4 s rn rd o)
  | .armMov c s rd o => .arm (encodeDataProcessing c 0xD#4 s 0x0#4 rd o)
  | .armBic c s rn rd o => .arm (encodeDataProcessing c 0xE#4 s rn rd o)
  | .armMvn c s rd o => .arm (encodeDataProcessing c 0xF#4 s 0x0#4 rd o)
  | .armUndefClass110 c rest => .arm (pack (c.toBits ++ 0b110#3 ++ rest))
  | .armSwi c comment => .arm (pack (c.toBits ++ 0b111#3 ++ comment))
  | .thumbLslImm offset5 rs rd => .thumb (encodeThumb5533 0b00000#5 offset5 rs rd)
  | .thumbLsrImm offset5 rs rd => .thumb (encodeThumb5533 0b00001#5 offset5 rs rd)
  | .thumbAsrImm offset5 rs rd => .thumb (encodeThumb5533 0b00010#5 offset5 rs rd)
  | .thumbAddReg rn rs rd => .thumb (encodeThumb7333 0b0001100#7 rn rs rd)
  | .thumbSubReg rn rs rd => .thumb (encodeThumb7333 0b0001101#7 rn rs rd)
  | .thumbAddImm3 imm3 rs rd => .thumb (encodeThumb7333 0b0001110#7 imm3 rs rd)
  | .thumbSubImm3 imm3 rs rd => .thumb (encodeThumb7333 0b0001111#7 imm3 rs rd)
  | .thumbMovImm8 rd imm8 => .thumb (encodeThumb538 0b00100#5 rd imm8)
  | .thumbCmpImm8 rd imm8 => .thumb (encodeThumb538 0b00101#5 rd imm8)
  | .thumbAddImm8 rd imm8 => .thumb (encodeThumb538 0b00110#5 rd imm8)
  | .thumbSubImm8 rd imm8 => .thumb (encodeThumb538 0b00111#5 rd imm8)
  | .thumbAnd rs rd => .thumb (encodeThumbAlu 0x0#4 rs rd)
  | .thumbEor rs rd => .thumb (encodeThumbAlu 0x1#4 rs rd)
  | .thumbLslReg rs rd => .thumb (encodeThumbAlu 0x2#4 rs rd)
  | .thumbLsrReg rs rd => .thumb (encodeThumbAlu 0x3#4 rs rd)
  | .thumbAsrReg rs rd => .thumb (encodeThumbAlu 0x4#4 rs rd)
  | .thumbAdc rs rd => .thumb (encodeThumbAlu 0x5#4 rs rd)
  | .thumbSbc rs rd => .thumb (encodeThumbAlu 0x6#4 rs rd)
  | .thumbRorReg rs rd => .thumb (encodeThumbAlu 0x7#4 rs rd)
  | .thumbTst rs rd => .thumb (encodeThumbAlu 0x8#4 rs rd)
  | .thumbNeg rs rd => .thumb (encodeThumbAlu 0x9#4 rs rd)
  | .thumbCmpReg rs rd => .thumb (encodeThumbAlu 0xA#4 rs rd)
  | .thumbCmn rs rd => .thumb (encodeThumbAlu 0xB#4 rs rd)
  | .thumbOrr rs rd => .thumb (encodeThumbAlu 0xC#4 rs rd)
  | .thumbMul rs rd => .thumb (encodeThumbAlu 0xD#4 rs rd)
  | .thumbBic rs rd => .thumb (encodeThumbAlu 0xE#4 rs rd)
  | .thumbMvn rs rd => .thumb (encodeThumbAlu 0xF#4 rs rd)
  | .thumbAddHi rs rd => .thumb (encodeThumbHi 0b00#2 rs rd)
  | .thumbCmpHi rs rd => .thumb (encodeThumbHi 0b01#2 rs rd)
  | .thumbMovHi rs rd => .thumb (encodeThumbHi 0b10#2 rs rd)
  | .thumbBx rs => .thumb (encodeThumbHi 0b11#2 rs 0x0#4)
  | .thumbLdrPc rd word8 => .thumb (encodeThumb538 0b01001#5 rd word8)
  | .thumbStrReg ro rb rd => .thumb (encodeThumb7333 0b0101000#7 ro rb rd)
  | .thumbStrbReg ro rb rd => .thumb (encodeThumb7333 0b0101010#7 ro rb rd)
  | .thumbLdrReg ro rb rd => .thumb (encodeThumb7333 0b0101100#7 ro rb rd)
  | .thumbLdrbReg ro rb rd => .thumb (encodeThumb7333 0b0101110#7 ro rb rd)
  | .thumbStrhReg ro rb rd => .thumb (encodeThumb7333 0b0101001#7 ro rb rd)
  | .thumbLdsb ro rb rd => .thumb (encodeThumb7333 0b0101011#7 ro rb rd)
  | .thumbLdrhReg ro rb rd => .thumb (encodeThumb7333 0b0101101#7 ro rb rd)
  | .thumbLdsh ro rb rd => .thumb (encodeThumb7333 0b0101111#7 ro rb rd)
  | .thumbStrImm offset5 rb rd => .thumb (encodeThumb5533 0b01100#5 offset5 rb rd)
  | .thumbLdrImm offset5 rb rd => .thumb (encodeThumb5533 0b01101#5 offset5 rb rd)
  | .thumbStrbImm offset5 rb rd => .thumb (encodeThumb5533 0b01110#5 offset5 rb rd)
  | .thumbLdrbImm offset5 rb rd => .thumb (encodeThumb5533 0b01111#5 offset5 rb rd)
  | .thumbStrhImm offset5 rb rd => .thumb (encodeThumb5533 0b10000#5 offset5 rb rd)
  | .thumbLdrhImm offset5 rb rd => .thumb (encodeThumb5533 0b10001#5 offset5 rb rd)
  | .thumbStrSp rd word8 => .thumb (encodeThumb538 0b10010#5 rd word8)
  | .thumbLdrSp rd word8 => .thumb (encodeThumb538 0b10011#5 rd word8)
  | .thumbAddRdPc rd word8 => .thumb (encodeThumb538 0b10100#5 rd word8)
  | .thumbAddRdSp rd word8 => .thumb (encodeThumb538 0b10101#5 rd word8)
  | .thumbAddSpImm sword7 => .thumb (pack (0b10110000#8 ++ 0b0#1 ++ sword7))
  | .thumbSubSpImm sword7 => .thumb (pack (0b10110000#8 ++ 0b1#1 ++ sword7))
  | .thumbPush lr list => .thumb (pack (0b1011010#7 ++ BitVec.ofBool lr ++ list))
  | .thumbPop pc list => .thumb (pack (0b1011110#7 ++ BitVec.ofBool pc ++ list))
  | .thumbUndef1011 rest => .thumb (pack (0b1011#4 ++ rest))
  | .thumbStmia rb list => .thumb (encodeThumb538 0b11000#5 rb list)
  | .thumbLdmia rb list => .thumb (encodeThumb538 0b11001#5 rb list)
  | .thumbSwi value8 => .thumb (pack (0b11011111#8 ++ value8))
  | .thumbBCond c soffset8 => .thumb (pack (0b1101#4 ++ c.toBits ++ soffset8))
  | .thumbB offset11 => .thumb (pack (0b11100#5 ++ offset11))
  | .thumbUndef11101 rest => .thumb (pack (0b11101#5 ++ rest))
  | .thumbBlFirst offset11 => .thumb (pack (0b11110#5 ++ offset11))
  | .thumbBlSecond offset11 => .thumb (pack (0b11111#5 ++ offset11))

end Sys2Proof
end

