-- ==== Sys2Proof/Config.lean ====
section
/-! DEFINITION. What this implementation fixes: the exception vectors (60_exceptions.md R700) and the values
`reset()` loads (10_state.md R58, 70_reset_and_hazards.md R800), and one free value: what the platform answers to a read
of a device. The spec decides every other point it leaves to the implementation (92_eei_decisions.md). -/

namespace Sys2Proof.Config

/-- The Reset vector (R700); never entered by the block (R705). -/
def vectorReset : Word := 0x00000000#32
/-- The Undefined vector (R700); never entered (R704). -/
def vectorUndefined : Word := 0x00000004#32
/-- The software-interrupt vector (R700). -/
def vectorSwi : Word := 0x00000008#32
/-- The Prefetch-Abort vector (R700); never entered (R704). -/
def vectorPrefetchAbort : Word := 0x0000000C#32
/-- The Data-Abort vector (R700); never entered (R704). -/
def vectorDataAbort : Word := 0x00000010#32
/-- The IRQ vector (R700). -/
def vectorIrq : Word := 0x00000018#32
/-- The FIQ vector (R700); never entered (R703). -/
def vectorFiq : Word := 0x0000001C#32

/-- The reset PC, "start of game pak ROM region" (R58). -/
def resetPc : Word := 0x08000000#32
/-- The reset value of SP of User and System mode (R58). -/
def resetSpUser : Word := 0x03007F00#32
/-- The reset value of SP_irq (R58). -/
def resetSpIrq : Word := 0x03007FA0#32
/-- The reset value of SP_svc (R58). -/
def resetSpSupervisor : Word := 0x03007FE0#32
/-- The reset value of CPSR: System mode, I and F set, T clear, flags and reserved bits 0 (R58). -/
def resetCpsr : Word := 0x000000DF#32

/-- A free value: what the bus answers to its read number `n` where that read reaches a device and the platform's
description lists no answer (R100, R109, D3; log 17). No body: nothing can be proved of it. -/
opaque busAnswer : Nat → Word

end Sys2Proof.Config
end

