-- ==== Sys2Proof/Machine/State.lean ====
section
/-! DEFINITION. The state of the block as plain data (10_state.md R58 is the spec's complete list), the memory and
the platform behind its bus (00_scope.md R8; 20_memory.md R100, R101; log 1) and the record of the accesses it put on
the bus (R105; DESIGN CHOICE, safe: log 5); the reasons a step can stop; the state after reset. -/

namespace Sys2Proof.Machine

/-- The seven processor modes (R30). -/
inductive Mode where
  | user | fiq | irq | supervisor | abort | undefined | system
  deriving DecidableEq, Repr

/-- The bank keys of R13 and R14 (R30, R33); System shares User's. -/
inductive BankKey where
  | user | fiq | irq | supervisor | abort | undefined
  deriving DecidableEq, Repr

/-- One banked register: six copies (R33). -/
structure Banked where
  user : Word
  fiq : Word
  irq : Word
  supervisor : Word
  abort : Word
  undefined : Word
  deriving DecidableEq, Repr

/-- A program status register, N 31, Z 30, C 29, V 28, reserved 27..8, I 7, F 6, T 5, M 4..0 (R39). Software
reads and writes it whole, so it stays one word. -/
abbrev Psr := Word

/-- The five saved program status registers (R42). -/
structure Spsrs where
  fiq : Psr
  irq : Psr
  supervisor : Psr
  abort : Psr
  undefined : Psr
  deriving DecidableEq, Repr

/-- The 31 registers of the physical register file (R35). -/
inductive PhysReg where
  /-- R0 to R7 (R31). -/
  | common (i : Fin 8)
  /-- R8 to R12 of every mode but FIQ (R32). -/
  | usr8 (i : Fin 5)
  /-- R8 to R12 of FIQ (R32). -/
  | fiq8 (i : Fin 5)
  | sp (k : BankKey)
  | lr (k : BankKey)
  | pc
  deriving DecidableEq, Repr

/-- The width of a bus access (R100). -/
inductive Width where
  | byte | half | word
  deriving DecidableEq, Repr

inductive BusKind where
  | read | write
  deriving DecidableEq, Repr

/-- One access as the bus sees it (R100, R103, R104): the aligned address, and the value read or written, zero-extended. -/
structure BusAccess where
  kind : BusKind
  width : Width
  addr : Word
  value : Word
  deriving DecidableEq, Repr

/-- Memory as address and byte pairs in the canonical form `Memory.wf` (Machine/Memory.lean). -/
abbrev Memory := List Host.Cell

/-- What answers at a range of addresses (R109, D3). -/
inductive RegionKind where
  /-- Memory-like: what was last written there is read (R102, R111). The range shows the bytes from `home` on, so
two ranges with one home mirror each other. -/
  | memory (home : Word)
  /-- The bytes from `home` on can be read, and a write does nothing. -/
  | readOnly (home : Word)
  /-- A device or nothing at all: a read is answered by the platform, with whatever effect it has there, and a write
reaches no memory. -/
  | device
  deriving DecidableEq, Repr

/-- A range of addresses, both ends included, and what answers there. -/
structure Region where
  first : Word
  last : Word
  kind : RegionKind
  deriving DecidableEq, Repr

/-- The open parameter `Bus` (00_scope.md R8, R100; DESIGN CHOICE, unsafe: log 1): the platform's map, of which the first
range that holds an address counts (an address in no range is plain memory), and its answers to reads of devices, by
the number of the read. -/
structure Bus where
  map : List Region
  answers : List Word
  deriving DecidableEq, Repr

structure State where
  /-- R0 to R7 (R31). -/
  common : Vector Word 8
  /-- R8 to R12 outside FIQ mode (R32). -/
  r8to12Usr : Vector Word 5
  /-- R8 to R12 in FIQ mode (R32). -/
  r8to12Fiq : Vector Word 5
  /-- SP, six banks (R33). -/
  r13 : Banked
  /-- LR, six banks (R33). -/
  r14 : Banked
  /-- R15, the raw program counter (R34). -/
  pc : Word
  cpsr : Psr
  spsr : Spsrs
  /-- Set by the environment, cleared by a taken IRQ (R54, R730). -/
  halted : Bool
  /-- Set by the environment, read by no rule (R54, R731). -/
  stopped : Bool
  /-- The sum of the counts `step()` returned (R55). -/
  cycles : Nat
  /-- `_current_pc`, called cur in the rules (R56). -/
  currentPc : Word
  /-- `_current_instruction` (R56). -/
  currentInstruction : Word
  /-- The memory behind the bus (R101). -/
  mem : Memory
  /-- What is behind the bus: an argument of the model, written by no instruction (R8). -/
  bus : Bus
  /-- How many reads the bus has seen; the model's own counter, which numbers the platform's answers (DESIGN CHOICE,
safe: log 17). -/
  reads : Nat
  /-- The bus accesses of the last executed step, oldest first (R105); the model's own record (DESIGN CHOICE, safe:
log 5). -/
  accesses : List BusAccess
  deriving DecidableEq, Repr

/-- The faults: none. The bus is infallible, no access is misaligned or forbidden, an undefined encoding does
nothing (20_memory.md R100, R107; 60_exceptions.md R704), so nobody raises one. -/
inductive Fault
  deriving DecidableEq, Repr

/-- Why a step is refused. -/
inductive Refusal where
  /-- Raised by an arm of `exec` whose instruction has no meaning yet: none is left. Safe: nothing is claimed of it. -/
  | notModelled (mnemonic : String)
  /-- Raised by PUSH, POP, STMIA and LDMIA in Thumb state with an empty register list, which the spec itself refuses
("the model has no step for them", R586). Safe: a run stops where silicon would go on. -/
  | emptyThumbRegisterList
  deriving DecidableEq, Repr

/-- What a step or a meaning answers. -/
abbrev Result (State : Type) := Host.Outcome State Fault Refusal

/-- The machine right after `reset()`: the values of 10_state.md R58. Memory lists nothing, no access has been
made (R800 "It issues no bus access"), and the bus is plain memory everywhere (DESIGN CHOICE, unsafe: log 1). -/
def State.reset : State where
  common := Vector.replicate 8 0#32
  r8to12Usr := Vector.replicate 5 0#32
  r8to12Fiq := Vector.replicate 5 0#32
  r13 :=
    { user := Config.resetSpUser, fiq := 0#32, irq := Config.resetSpIrq, supervisor := Config.resetSpSupervisor,
      abort := 0#32, undefined := 0#32 }
  r14 := { user := 0#32, fiq := 0#32, irq := 0#32, supervisor := 0#32, abort := 0#32, undefined := 0#32 }
  pc := Config.resetPc
  cpsr := Config.resetCpsr
  spsr := { fiq := 0#32, irq := 0#32, supervisor := 0#32, abort := 0#32, undefined := 0#32 }
  halted := false
  stopped := false
  cycles := 0
  currentPc := 0#32
  currentInstruction := 0#32
  mem := []
  bus := { map := [], answers := [] }
  reads := 0
  accesses := []

end Sys2Proof.Machine
end

