-- ==== Sys2Proof/Machine/Memory.lean ====
section
/-! DEFINITION. The memory behind the bus (20_memory.md R101, R102): a list of cells in one canonical form, read and
written by the byte, and the little-endian halfword and word built from bytes. -/

namespace Sys2Proof.Machine

/-- What an address that is not listed reads as. DESIGN CHOICE 0, unsafe (log 2): the contents of memory are the open
parameter `Bus` (R100, R805). -/
def unlistedByte : Byte := 0x00#8

/-- The byte at an address. -/
def Memory.read : Memory → Nat → Byte
  | [], _ => unlistedByte
  | (k, b) :: m, a => if k = a then b else Memory.read m a

/-- `b` listed at `a`, before the first key that is not below `a`. -/
def Memory.insert : Memory → Nat → Byte → Memory
  | [], a, b => [(a, b)]
  | (k, c) :: m, a, b =>
    if a < k then (a, b) :: (k, c) :: m
    else if a = k then (a, b) :: m
    else (k, c) :: Memory.insert m a b

/-- `a` listed no more. -/
def Memory.erase : Memory → Nat → Memory
  | [], _ => []
  | (k, c) :: m, a => if k = a then Memory.erase m a else (k, c) :: Memory.erase m a

/-- The memory with byte `b` at `a`; writing what an unlisted address reads as unlists it. -/
def Memory.write (m : Memory) (a : Nat) (b : Byte) : Memory :=
  if b = unlistedByte then m.erase a else m.insert a b

/-- Every key is at least `lo` and below 2^32, keys rise strictly, no entry equals what an unlisted address reads as. -/
def Memory.wfFrom : Nat → Memory → Bool
  | _, [] => true
  | lo, (k, b) :: m => lo ≤ k && k < 2 ^ 32 && b != unlistedByte && Memory.wfFrom (k + 1) m

/-- The canonical form. -/
def Memory.wf (m : Memory) : Bool := Memory.wfFrom 0 m

/-- The byte at a 32-bit address. -/
def Memory.byteAt (m : Memory) (a : Word) : Byte := m.read a.toNat

/-- The memory with a byte written at a 32-bit address. -/
def Memory.setByteAt (m : Memory) (a : Word) (b : Byte) : Memory := m.write a.toNat b

/-- A little-endian value of the given width at `a`, zero-extended (R102). -/
def Memory.load (m : Memory) : Width → Word → Word
  | .byte, a => (m.byteAt a).setWidth 32
  | .half, a => (halfOfBytes (m.byteAt a) (m.byteAt (a + 1))).setWidth 32
  | .word, a => wordOfBytes (m.byteAt a) (m.byteAt (a + 1)) (m.byteAt (a + 2)) (m.byteAt (a + 3))

/-- The low bits of `v`, as many as the width has, stored little-endian at `a` (R102, R104). -/
def Memory.store (m : Memory) : Width → Word → Word → Memory
  | .byte, a, v => m.setByteAt a (bits v 0 8)
  | .half, a, v => (m.setByteAt a (bits v 0 8)).setByteAt (a + 1) (bits v 8 8)
  | .word, a, v =>
    (((m.setByteAt a (bits v 0 8)).setByteAt (a + 1) (bits v 8 8)).setByteAt (a + 2) (bits v 16 8)).setByteAt (a + 3)
      (bits v 24 8)

/-- The number of bytes of an access. -/
def Width.bytes : Width → Nat
  | .byte => 1 | .half => 2 | .word => 4

/-- The address the bus sees (R103, R104): aligned down for halfwords and words. -/
def align : Width → Word → Word
  | .byte, a => a
  | .half, a => a &&& 0xFFFFFFFE#32
  | .word, a => a &&& 0xFFFFFFFC#32

end Sys2Proof.Machine
end

