-- ==== Sys2Proof/Machine/Flags.lean ====
section
/-! DEFINITION. The fields of a program status register (10_state.md R39), the flag writes R45 and R46, the two ALU
primitives that make C and V (40_core_primitives.md R246 to R248) and the condition check (30_encoding.md R152). -/

namespace Sys2Proof.Machine

/-! ## Fields of a PSR (R39) -/

def Psr.n (p : Psr) : Bool := p.getLsbD 31
def Psr.z (p : Psr) : Bool := p.getLsbD 30
def Psr.c (p : Psr) : Bool := p.getLsbD 29
def Psr.v (p : Psr) : Bool := p.getLsbD 28
def Psr.i (p : Psr) : Bool := p.getLsbD 7
def Psr.f (p : Psr) : Bool := p.getLsbD 6
def Psr.t (p : Psr) : Bool := p.getLsbD 5
/-- The mode field. -/
def Psr.m (p : Psr) : BitVec 5 := bits p 0 5

/-- Bit `k` becomes `b`, every other bit stays. -/
def Psr.setBit (p : Psr) (k : Nat) (b : Bool) : Psr :=
  (p &&& ~~~(1#32 <<< k)) ||| (BitVec.ofBool b).setWidth 32 <<< k

def Psr.setC (p : Psr) (b : Bool) : Psr := p.setBit 29 b
def Psr.setI (p : Psr) (b : Bool) : Psr := p.setBit 7 b
def Psr.setF (p : Psr) (b : Bool) : Psr := p.setBit 6 b
def Psr.setT (p : Psr) (b : Bool) : Psr := p.setBit 5 b

/-- Bits 4..0 become `m`. -/
def Psr.setM (p : Psr) (m : BitVec 5) : Psr := pack (bits p 5 27 ++ m)

/-! ## Flag writes -/

/-- `set_flags_nz` for a value of any width (R45; 42_arm_multiply.md R353 for 64 bits). -/
def Psr.setNZ (p : Psr) {w : Nat} (result : BitVec w) : Psr :=
  (p.setBit 31 result.msb).setBit 30 (result == 0#w)

/-- `set_flags_nzc`: V unchanged (R46). -/
def Psr.setNZC (p : Psr) (result : Word) (carry : Bool) : Psr := (p.setNZ result).setC carry

/-- `set_flags_nzcv` (R46). -/
def Psr.setNZCV (p : Psr) (result : Word) (carry overflow : Bool) : Psr :=
  (p.setNZC result carry).setBit 28 overflow

/-! ## ALU primitives -/

/-- What an ALU primitive gives. -/
structure AluResult where
  value : Word
  carry : Bool
  overflow : Bool
  deriving DecidableEq, Repr

/-- `AddWithCarry` (R246): the sum is exact, then narrowed. -/
def addWithCarry (a b : Word) (cin : Bool) : AluResult :=
  let sum := a.toNat + b.toNat + cin.toNat
  let result := BitVec.ofNat 32 sum
  { value := result
    carry := decide (sum > 0xFFFFFFFF)
    overflow := a.msb == b.msb && result.msb != a.msb }

/-- `SubWithBorrow` (R247): `cin` = 1 means no borrow, and so does the carry. -/
def subWithBorrow (a b : Word) (cin : Bool) : AluResult :=
  let result := a - b - BitVec.ofNat 32 (1 - cin.toNat)
  { value := result
    carry := if cin then decide (a.toNat ≥ b.toNat) else decide (a.toNat > b.toNat)
    overflow := a.msb != b.msb && a.msb != result.msb }

/-! ## Conditions -/

/-- `CondPassed` (R152, R237). -/
def condPassed (p : Psr) : Cond → Bool
  | .eq => p.z
  | .ne => !p.z
  | .cs => p.c
  | .cc => !p.c
  | .mi => p.n
  | .pl => !p.n
  | .vs => p.v
  | .vc => !p.v
  | .hi => p.c && !p.z
  | .ls => !p.c || p.z
  | .ge => p.n == p.v
  | .lt => p.n != p.v
  | .gt => !p.z && p.n == p.v
  | .le => p.z || p.n != p.v
  | .al => true
  | .nv => true

end Sys2Proof.Machine
end

