-- ==== Sys2Proof/Machine/Registers.lean ====
section
/-! DEFINITION. The register file: modes and their banks (10_state.md R30 to R38), the saved status registers (R42,
R43), and the values an instruction reads from R15 (40_core_primitives.md R234, R235; 70_reset_and_hazards.md R810). -/

namespace Sys2Proof.Machine

/-! ## Updates of one part of the state -/

def State.setCpsr (s : State) (p : Psr) : State := { s with cpsr := p }
def State.setSpsrs (s : State) (x : Spsrs) : State := { s with spsr := x }
def State.setMem (s : State) (m : Memory) : State := { s with mem := m }
def State.setBus (s : State) (b : Bus) : State := { s with bus := b }
def State.setReads (s : State) (n : Nat) : State := { s with reads := n }
def State.setAccesses (s : State) (l : List BusAccess) : State := { s with accesses := l }
def State.setCurrentPc (s : State) (v : Word) : State := { s with currentPc := v }
def State.setCurrentInstruction (s : State) (v : Word) : State := { s with currentInstruction := v }
/-- Set by the environment (R730), cleared by a taken IRQ (R711). -/
def State.setHalted (s : State) (b : Bool) : State := { s with halted := b }
/-- Set by the environment (R731). -/
def State.setStopped (s : State) (b : Bool) : State := { s with stopped := b }
/-- `n` cycles added to the accumulator (R230). -/
def State.addCycles (s : State) (n : Nat) : State := { s with cycles := s.cycles + n }

/-! ## Modes (R30) -/

/-- The mode a 5-bit field names; `none` for an invalid mode value. -/
def Mode.ofBits? (b : BitVec 5) : Option Mode :=
  if b = 0x10#5 then some .user
  else if b = 0x11#5 then some .fiq
  else if b = 0x12#5 then some .irq
  else if b = 0x13#5 then some .supervisor
  else if b = 0x17#5 then some .abort
  else if b = 0x1B#5 then some .undefined
  else if b = 0x1F#5 then some .system
  else none

/-- CPSR[4:0] of a mode. -/
def Mode.toBits : Mode → BitVec 5
  | .user => 0x10#5 | .fiq => 0x11#5 | .irq => 0x12#5 | .supervisor => 0x13#5
  | .abort => 0x17#5 | .undefined => 0x1B#5 | .system => 0x1F#5

/-- The bank key of a mode. -/
def Mode.bankKey : Mode → BankKey
  | .user => .user | .fiq => .fiq | .irq => .irq | .supervisor => .supervisor
  | .abort => .abort | .undefined => .undefined | .system => .user

/-- Whether a mode has an SPSR. -/
def Mode.hasSpsr : Mode → Bool
  | .user | .system => false
  | .fiq | .irq | .supervisor | .abort | .undefined => true

/-- The current mode. R41 keeps the field valid; an invalid one, which no run reaches, reads as User (DESIGN
CHOICE, unsafe: log 8). -/
def State.mode (s : State) : Mode := (Mode.ofBits? s.cpsr.m).getD .user

/-! ## Banks -/

def Banked.get (x : Banked) : BankKey → Word
  | .user => x.user | .fiq => x.fiq | .irq => x.irq | .supervisor => x.supervisor
  | .abort => x.abort | .undefined => x.undefined

def Banked.set (x : Banked) (k : BankKey) (v : Word) : Banked :=
  match k with
  | .user => { x with user := v }
  | .fiq => { x with fiq := v }
  | .irq => { x with irq := v }
  | .supervisor => { x with supervisor := v }
  | .abort => { x with abort := v }
  | .undefined => { x with undefined := v }

/-- `spsr[m]`, where the mode has one (R42). -/
def Spsrs.get? (x : Spsrs) : Mode → Option Psr
  | .user => none | .system => none
  | .fiq => some x.fiq | .irq => some x.irq | .supervisor => some x.supervisor
  | .abort => some x.abort | .undefined => some x.undefined

/-- `spsr[m] <- v`; no effect where the mode has none (R43). -/
def Spsrs.set (x : Spsrs) (m : Mode) (v : Psr) : Spsrs :=
  match m with
  | .user => x
  | .system => x
  | .fiq => { x with fiq := v }
  | .irq => { x with irq := v }
  | .supervisor => { x with supervisor := v }
  | .abort => { x with abort := v }
  | .undefined => { x with undefined := v }

/-- The storage register `i` reaches in a mode (R36). -/
def route (m : Mode) (i : RegNum) : PhysReg :=
  if h : i.toNat < 8 then .common ⟨i.toNat, h⟩
  else if h : i.toNat < 13 then
    if m = .fiq then .fiq8 ⟨i.toNat - 8, by omega⟩ else .usr8 ⟨i.toNat - 8, by omega⟩
  else if i.toNat = 13 then .sp m.bankKey
  else if i.toNat = 14 then .lr m.bankKey
  else .pc

/-- A physical register's value. -/
def State.readPhys (s : State) : PhysReg → Word
  | .common i => s.common[i]
  | .usr8 i => s.r8to12Usr[i]
  | .fiq8 i => s.r8to12Fiq[i]
  | .sp k => s.r13.get k
  | .lr k => s.r14.get k
  | .pc => s.pc

/-- A physical register written, unmasked. -/
def State.writePhys (s : State) (p : PhysReg) (v : Word) : State :=
  match p with
  | .common i => { s with common := s.common.set i v }
  | .usr8 i => { s with r8to12Usr := s.r8to12Usr.set i v }
  | .fiq8 i => { s with r8to12Fiq := s.r8to12Fiq.set i v }
  | .sp k => { s with r13 := s.r13.set k v }
  | .lr k => { s with r14 := s.r14.set k v }
  | .pc => { s with pc := v }

/-! ## Register access -/

/-- The mask of a write of R15 (R37): bit 0 dropped in Thumb state, bits 1..0 in ARM state. -/
def maskPc (thumb : Bool) (v : Word) : Word :=
  if thumb then v &&& 0xFFFFFFFE#32 else v &&& 0xFFFFFFFC#32

/-- `x[15] <- v`, masked with T as it stands (R37). -/
def State.setPc (s : State) (v : Word) : State := s.writePhys .pc (maskPc s.cpsr.t v)

/-- `x[i]` (R36). -/
def State.reg (s : State) (i : RegNum) : Word := s.readPhys (route s.mode i)

/-- `x[i] <- v` (R37). -/
def State.setReg (s : State) (i : RegNum) (v : Word) : State :=
  if i = 15#4 then s.setPc v else s.writePhys (route s.mode i) v

/-- `xu[i]` (R38). -/
def State.userReg (s : State) (i : RegNum) : Word := s.readPhys (route .user i)

/-- `xu[i] <- v` (R38). -/
def State.setUserReg (s : State) (i : RegNum) (v : Word) : State :=
  if i = 15#4 then s.setPc v else s.writePhys (route .user i) v

/-- A three-bit register number as one of R0 to R7. -/
def lowReg (i : LowReg) : RegNum := i.setWidth 4

/-! ## Operand reads of R15 -/

/-- `Op(i)` of an ARM instruction: R15 reads as cur + 8 (R234). -/
def State.armOp (s : State) (i : RegNum) : Word := if i = 15#4 then s.currentPc + 8 else s.reg i

/-- A register whose read of R15 is cur + 12: Rm of a register-specified shift (R235), the data of a store (R405). -/
def State.armOp12 (s : State) (i : RegNum) : Word := if i = 15#4 then s.currentPc + 12 else s.reg i

/-- `Op(i)` of a Thumb instruction: R15 reads as cur + 4 (R234). -/
def State.thumbOp (s : State) (i : RegNum) : Word := if i = 15#4 then s.currentPc + 4 else s.reg i

/-- The word-aligned PC base of Thumb formats 6 and 12 (R561, R578). -/
def State.thumbPcBase (s : State) : Word := (s.currentPc + 4) &&& 0xFFFFFFFC#32

/-! ## Status registers -/

/-- The current SPSR; CPSR in User and System mode (R42). -/
def State.currentSpsr (s : State) : Psr := (s.spsr.get? s.mode).getD s.cpsr

/-- A write of the current SPSR; no effect in User and System mode (R43). -/
def State.setCurrentSpsr (s : State) (v : Psr) : State := s.setSpsrs (s.spsr.set s.mode v)

end Sys2Proof.Machine
end

