-- ==== Sys2Proof/Machine/Bus.lean ====
section
/-! DEFINITION. The bus contract (20_memory.md R100, R109): what a read gives and what a write leaves, from the platform's
description and memory. Addresses are as the bus sees them, aligned already (R103, R104). -/

namespace Sys2Proof.Machine

/-- Where an address leads: memory at `home`, memory that cannot be written, or a device. -/
def Region.place (r : Region) (addr : Word) : RegionKind :=
  match r.kind with
  | .memory home => .memory (home + (addr - r.first))
  | .readOnly home => .readOnly (home + (addr - r.first))
  | .device => .device

/-- The first range that holds the address decides for the whole access; an address in none is plain memory (DESIGN
CHOICE, unsafe: log 1). -/
def placeIn : List Region → Word → RegionKind
  | [], addr => .memory addr
  | r :: rest, addr =>
    if r.first.toNat ≤ addr.toNat ∧ addr.toNat ≤ r.last.toNat then r.place addr else placeIn rest addr

/-- Where a read finds its bytes; `none` for a device. -/
def Bus.readHome (b : Bus) (addr : Word) : Option Word :=
  match placeIn b.map addr with
  | .memory home | .readOnly home => some home
  | .device => none

/-- Where a write leaves its bytes; `none` where it leaves none. -/
def Bus.writeHome (b : Bus) (addr : Word) : Option Word :=
  match placeIn b.map addr with
  | .memory home => some home
  | .readOnly _ | .device => none

/-- The platform's answer to read number `n`: the one listed, else a free value (R100, D3; log 17). -/
def Bus.answer (b : Bus) (n : Nat) : Word := b.answers.getD n (Config.busAnswer n)

/-- The value the bus carries: the low bits of `v` (R100, R104). -/
def busValue : Width → Word → Word
  | .byte, v => (bits v 0 8).setWidth 32
  | .half, v => (bits v 0 16).setWidth 32
  | .word, v => v

/-- What the next read gives: the bytes at the address's home, or the platform's answer (R100, R102). -/
def State.busRead (s : State) (w : Width) (addr : Word) : Word :=
  match s.bus.readHome addr with
  | some home => s.mem.load w home
  | none => busValue w (s.bus.answer s.reads)

/-- What a write leaves in memory: the bytes at the address's home, or nothing (R100, R102). -/
def Bus.store (b : Bus) (m : Memory) (w : Width) (addr v : Word) : Memory :=
  match b.writeHome addr with
  | some home => m.store w home v
  | none => m

end Sys2Proof.Machine
end

