-- ==== Sys2Proof/Machine/Operands.lean ====
section
/-! DEFINITION. Operand forms: the barrel shifter (40_core_primitives.md R240 to R244), operand 2 (41_arm_dataproc.md
R301 to R303), the addresses of single and halfword transfers (44_arm_load_store.md R400, R401, R410), of block transfers
(R420 to R423), the MSR operand and field mask (45_arm_psr_swi.md R471), and the offsets of branches. -/

namespace Sys2Proof.Machine

/-! ## Barrel shifter -/

/-- What the shifter gives. -/
structure ShiftResult where
  value : Word
  carry : Bool
  deriving DecidableEq, Repr

/-- `ROR32(v, n)`: a rotation by `n` modulo 32. -/
def ror32 (v : Word) (n : Nat) : Word := v.rotateRight n

/-- R240. -/
def lslC (v : Word) (n : Nat) (c _imm : Bool) : ShiftResult :=
  if n = 0 then ⟨v, c⟩
  else if n ≤ 31 then ⟨v <<< n, v.getLsbD (32 - n)⟩
  else if n = 32 then ⟨0#32, v.getLsbD 0⟩
  else ⟨0#32, false⟩

/-- R241: an immediate 0 encodes 32. -/
def lsrC (v : Word) (n : Nat) (c imm : Bool) : ShiftResult :=
  if n = 0 then if imm then ⟨0#32, v.getLsbD 31⟩ else ⟨v, c⟩
  else if n ≤ 31 then ⟨v >>> n, v.getLsbD (n - 1)⟩
  else if n = 32 then ⟨0#32, v.getLsbD 31⟩
  else ⟨0#32, false⟩

/-- An arithmetic shift by 32 or more: every bit is the sign (R242). -/
def asrAll (v : Word) : ShiftResult :=
  if v.getLsbD 31 then ⟨0xFFFFFFFF#32, true⟩ else ⟨0#32, false⟩

/-- R242: an immediate 0 encodes 32. -/
def asrC (v : Word) (n : Nat) (c imm : Bool) : ShiftResult :=
  if n = 0 then if imm then asrAll v else ⟨v, c⟩
  else if n ≥ 32 then asrAll v
  else ⟨v.sshiftRight n, v.getLsbD (n - 1)⟩

/-- R243: an immediate 0 encodes RRX. -/
def rorC (v : Word) (n : Nat) (c imm : Bool) : ShiftResult :=
  if n = 0 then
    if imm then ⟨((BitVec.ofBool c).setWidth 32 <<< 31) ||| (v >>> 1), v.getLsbD 0⟩ else ⟨v, c⟩
  else if n % 32 = 0 then ⟨v, v.getLsbD 31⟩
  else ⟨ror32 v (n % 32), v.getLsbD (n % 32 - 1)⟩

/-- `Shift(type, v, n, c, imm)` (R244). -/
def shift (type : ShiftType) (v : Word) (n : Nat) (c imm : Bool) : ShiftResult :=
  match type with
  | .lsl => lslC v n c imm
  | .lsr => lsrC v n c imm
  | .asr => asrC v n c imm
  | .ror => rorC v n c imm

/-! ## Operand 2 -/

/-- `ROR32(zext_8(imm8), 2 * rot4)` (R301, R471). -/
def rotatedImm (rot4 : BitVec 4) (imm8 : BitVec 8) : Word := ror32 (imm8.setWidth 32) (2 * rot4.toNat)

/-- Operand 2 and the shifter carry (R301 to R303). -/
def operand2 (s : State) : Operand2 → ShiftResult
  | .imm rot4 imm8 =>
    let v := rotatedImm rot4 imm8
    ⟨v, if rot4 = 0#4 then s.cpsr.c else v.getLsbD 31⟩
  | .shiftImm amount type rm => shift type (s.armOp rm) amount.toNat s.cpsr.c true
  | .shiftReg rs type rm => shift type (s.armOp12 rm) (bits (s.armOp rs) 0 8).toNat s.cpsr.c false

/-! ## Single and halfword transfers -/

/-- The offset of a single data transfer; the shifter's carry is dropped (R400). -/
def wordOffset (s : State) : WordOffset → Word
  | .imm12 value => value.setWidth 32
  | .shifted amount type rm => (shift type (s.armOp rm) amount.toNat s.cpsr.c true).value

/-- The offset of a halfword or signed transfer (R410). -/
def halfOffset (s : State) : HalfOffset → Word
  | .imm8 value => value.setWidth 32
  | .reg rm => s.armOp rm

/-- `offaddr`: the base with the offset applied, which is also the written-back value (R400, R401). -/
def offsetAddress (s : State) (a : Addressing) (offset : Word) : Word :=
  if a.up then s.armOp a.rn + offset else s.armOp a.rn - offset

/-- The address accessed: before or after the offset (R400). -/
def transferAddress (s : State) (a : Addressing) (offset : Word) : Word :=
  if a.pre then offsetAddress s a offset else s.armOp a.rn

/-- `wb`: whether the base is written back (R400). -/
def writesBack (a : Addressing) : Bool := (!a.pre || a.wback) && a.rn != 15#4

/-! ## Block transfers -/

/-- The registers of a list, ascending. -/
def listRegs {n : Nat} (list : BitVec n) : List RegNum :=
  ((List.range n).filter list.getLsbD).map (BitVec.ofNat 4)

/-- `popcount(list)`. -/
def listCount {n : Nat} (list : BitVec n) : Nat := ((List.range n).filter list.getLsbD).length

/-- The registers an ARM block transfer moves: an empty list moves R15 alone (R423). -/
def blockRegs (list : BitVec 16) : List RegNum := if list = 0#16 then [15#4] else listRegs list

/-- The registers its addresses are laid out for: an empty list spans sixteen (R423). -/
def blockSpan (list : BitVec 16) : Nat := if list = 0#16 then 16 else listCount list

/-- The size in bytes of `n` words, as an address. -/
def wordsSize (n : Nat) : Word := BitVec.ofNat 32 (4 * n)

/-- `start` (R421, R423). -/
def blockStart (s : State) (a : BlockAddressing) (list : BitVec 16) : Word :=
  let base := s.armOp a.rn
  let size := wordsSize (blockSpan list)
  match a.pre, a.up with
  | false, true => base
  | true, true => base + 4
  | false, false => base - size + 4
  | true, false => base - size

/-- `final`, the write-back value (R421, R423). -/
def blockFinal (s : State) (a : BlockAddressing) (list : BitVec 16) : Word :=
  let base := s.armOp a.rn
  let size := wordsSize (blockSpan list)
  if a.up then base + size else base - size

/-- The value STM stores for register `i` (R425, R422, R434). -/
def stmValue (s : State) (a : BlockAddressing) (list : BitVec 16) (i : RegNum) : Word :=
  if i = 15#4 then s.currentPc + 12
  else if i = a.rn ∧ a.wback = true ∧ (listRegs list).head? ≠ some a.rn then blockFinal s a list
  else if a.sbit then s.userReg i
  else s.reg i

/-- The value Thumb STMIA stores for register `i` (R584). -/
def stmiaValue (s : State) (rb : LowReg) (list : BitVec 8) (i : RegNum) : Word :=
  if i = lowReg rb ∧ (listRegs list).head? ≠ some (lowReg rb) then s.reg (lowReg rb) + wordsSize (listCount list)
  else s.reg i

/-! ## MSR -/

/-- The bytes a field mask selects (R471). -/
def maskBytes (mask : BitVec 4) : Word :=
  (if mask.getLsbD 0 then 0x000000FF#32 else 0#32) ||| (if mask.getLsbD 1 then 0x0000FF00#32 else 0#32) |||
    (if mask.getLsbD 2 then 0x00FF0000#32 else 0#32) ||| (if mask.getLsbD 3 then 0xFF000000#32 else 0#32)

/-! ## Branch offsets -/

/-- `sext_26(concat(offset, 00))` (R163, R370). -/
def armBranchOffset (offset : BitVec 24) : Word := (pack (offset ++ 0b00#2) : BitVec 26).signExtend 32

/-- `sext_9(concat(soffset8, 0))` (R620). -/
def thumbBranchOffset8 (offset : BitVec 8) : Word := (pack (offset ++ 0b0#1) : BitVec 9).signExtend 32

/-- `sext_12(concat(offset11, 0))` (R622). -/
def thumbBranchOffset11 (offset : BitVec 11) : Word := (pack (offset ++ 0b0#1) : BitVec 12).signExtend 32

/-- An unsigned immediate times 2^k, as a word (formats 6 to 13). -/
def scaled {n : Nat} (imm : BitVec n) (k : Nat) : Word := imm.setWidth 32 <<< k

end Sys2Proof.Machine
end

