-- ==== Sys2Proof/Machine/Ops.lean ====
section
/-! DEFINITION. The shared operations: bus accesses (20_memory.md R103 to R105), mode switch and status restore
(10_state.md R47 to R50), taking an exception and returning from one (60_exceptions.md R706, R710, R711, R720), the
common paths of the data-processing, transfer and block instructions, and how a meaning ends (R232). -/

namespace Sys2Proof.Machine

/-! ## Ending an instruction -/

/-- An ARM instruction: its effect where the condition passes, else one cycle and nothing (R230; DEDUCED, safe: log 4). -/
def armInstr (c : Cond) (effect : State → State) (s : State) : Result State :=
  .next (if condPassed s.cpsr c then effect s else s.addCycles 1)

/-! ## The bus -/

/-- `MemRead`: what the bus gives at the aligned address, and the state with the access recorded (R103, R105). -/
def State.memRead (s : State) (w : Width) (addr : Word) : Word × State :=
  let v := s.busRead w (align w addr)
  (v, (s.setReads (s.reads + 1)).setAccesses (s.accesses ++ [⟨.read, w, align w addr, v⟩]))

/-- `MemWrite` at the aligned address, recorded (R104, R105). -/
def State.memWrite (s : State) (w : Width) (addr v : Word) : State :=
  (s.setMem (s.bus.store s.mem w (align w addr) v)).setAccesses (s.accesses ++ [⟨.write, w, align w addr, busValue w v⟩])

/-! ## Status and mode -/

/-- A whole status word written over another; an invalid mode value keeps the old mode field (R41, R49, R50). -/
def mergeMode (old new : Psr) : Psr :=
  if (Mode.ofBits? new.m).isSome then new else new.setM old.m

/-- `switch_mode` (R47). -/
def State.switchMode (s : State) (new : BitVec 5) (saveCpsr : Bool) : State :=
  match Mode.ofBits? new with
  | none => s
  | some m => (if saveCpsr then s.setSpsrs (s.spsr.set m s.cpsr) else s).setCpsr (s.cpsr.setM new)

/-- `restore_cpsr_from_spsr` (R48, R49). -/
def State.restoreCpsr (s : State) : State :=
  match s.spsr.get? s.mode with
  | none => s
  | some p => s.setCpsr (mergeMode s.cpsr p)

/-! ## Exceptions -/

/-- I set, F set on entry into FIQ or through the Reset vector, T cleared (R706, R707). -/
def entryPsr (p : Psr) (vector : Word) (m : Mode) : Psr :=
  let p := p.setI true
  let p := if m = .fiq ∨ vector = 0x00000000#32 then p.setF true else p
  p.setT false

/-- `TakeException`: the SPSR, the mode, I, F, T, then LR and PC (R706 to R708). -/
def State.takeException (s : State) (vector : Word) (m : Mode) : State :=
  let s1 := s.switchMode m.toBits true
  let s2 := s1.setCpsr (entryPsr s1.cpsr vector m)
  (s2.setReg 14#4 s.pc).setReg 15#4 vector

/-- `raise SWI()`: LR_svc first, then the entry, which writes LR_svc again with the raw PC (R710, R706). The two values
agree after a fetch from an aligned PC (R708); after a fetch in ARM state from a PC that is 2 modulo 4, which only an
external write of T leaves (D14), they differ by 2 and the later write stays (DESIGN CHOICE, unsafe: log 7). -/
def State.raiseSwi (s : State) : State :=
  let ret := s.currentPc + (if s.cpsr.t then 2 else 4)
  (s.writePhys (.lr .supervisor) ret).takeException Config.vectorSwi .supervisor

/-- `raise IRQ()`, called between steps (R711). -/
def State.triggerIrq (s : State) : State :=
  if s.cpsr.i then s
  else ((s.writePhys (.lr .irq) s.pc).takeException Config.vectorIrq .irq).setHalted false

/-! ## Branches -/

/-- The T bit first, then the PC masked with it (R238): BX and POP of the PC. -/
def State.branchExchange (s : State) (v : Word) : State :=
  (s.setCpsr (s.cpsr.setT (v.getLsbD 0))).setPc v

/-! ## ARM data processing (R300) -/

/-- What an opcode gives: its result and the CPSR it would leave with S = 1. -/
structure DpOutcome where
  value : Word
  psr : Psr
  deriving DecidableEq, Repr

/-- A logical opcode: N, Z from the result, C from the shifter (R300). -/
def logical (s : State) (value : Word) (shifterCarry : Bool) : DpOutcome :=
  ⟨value, s.cpsr.setNZC value shifterCarry⟩

/-- An arithmetic opcode: N, Z, C, V from the ALU (R300). -/
def arithmetic (s : State) (r : AluResult) : DpOutcome :=
  ⟨r.value, s.cpsr.setNZCV r.value r.carry r.overflow⟩

/-- `WriteR15`, which is also the return from an exception (R304, R720). -/
def State.writeR15 (s : State) (value : Word) (setFlags : Bool) : State :=
  (if setFlags then s.restoreCpsr else s).setPc value

/-- The end of an opcode that writes Rd (R300, R305). -/
def dpWrite (setFlags : Bool) (rd : RegNum) (o : DpOutcome) (s : State) : State :=
  if rd = 15#4 then (s.writeR15 o.value setFlags).addCycles 3
  else ((s.setReg rd o.value).setCpsr (if setFlags then o.psr else s.cpsr)).addCycles 1

/-- The end of a comparison: the flags alone, whatever its Rd field (R318). -/
def dpCompare (o : DpOutcome) (s : State) : State := (s.setCpsr o.psr).addCycles 1

/-! ## Multiplies (R350, R357, R358) -/

/-- The end of a 32-bit multiply. -/
def mulWrite (setFlags : Bool) (rd : RegNum) (value : Word) (s : State) : State :=
  ((s.setReg rd value).setCpsr (if setFlags then s.cpsr.setNZ value else s.cpsr)).addCycles 2

/-- The end of a long multiply: RdLo, then RdHi. -/
def mulLongWrite (setFlags : Bool) (rdHi rdLo : RegNum) (value : BitVec 64) (s : State) : State :=
  let s1 := (s.setReg rdLo (bits value 0 32)).setReg rdHi (bits value 32 32)
  (s1.setCpsr (if setFlags then s.cpsr.setNZ value else s.cpsr)).addCycles 3

/-- `concat(x[RdHi], x[RdLo])`, read as operands (R354, R350). -/
def accumulator (s : State) (rdHi rdLo : RegNum) : BitVec 64 := pack (s.armOp rdHi ++ s.armOp rdLo)

/-! ## Loads and stores -/

/-- The value a load gives. -/
inductive LoadKind where
  /-- A word, rotated where the address is misaligned (R403). -/
  | word
  /-- A byte, zero-extended (R404). -/
  | byte
  /-- A halfword, zero-extended, rotated by 8 at an odd address (R411, R415). -/
  | half
  /-- A byte, sign-extended (R413). -/
  | signedByte
  /-- A halfword, sign-extended; at an odd address the byte there, sign-extended (R414, R415). -/
  | signedHalf
  deriving DecidableEq, Repr

/-- The value loaded from `addr`, and the state with the access recorded. -/
def State.loadValue (s : State) (k : LoadKind) (addr : Word) : Word × State :=
  match k with
  | .word =>
    let r := s.memRead .word addr
    (ror32 r.1 (8 * (addr &&& 3#32).toNat), r.2)
  | .byte => s.memRead .byte addr
  | .half =>
    let r := s.memRead .half addr
    (if addr.getLsbD 0 then ror32 r.1 8 else r.1, r.2)
  | .signedByte =>
    let r := s.memRead .byte addr
    ((bits r.1 0 8).signExtend 32, r.2)
  | .signedHalf =>
    if addr.getLsbD 0 then
      let r := s.memRead .byte addr
      ((bits r.1 0 8).signExtend 32, r.2)
    else
      let r := s.memRead .half addr
      ((bits r.1 0 16).signExtend 32, r.2)

/-- The write-back of a single or halfword transfer (R400 to R402). -/
def baseWriteBack (a : Addressing) (value : Word) (s : State) : State :=
  if writesBack a then s.setReg a.rn value else s

/-- An ARM load: memory, write-back, then Rd; 3 cycles, 5 with Rd = 15 (R402, R407, R416). -/
def armLoad (k : LoadKind) (a : Addressing) (offset : Word) (rd : RegNum) (s : State) : State :=
  let r := s.loadValue k (transferAddress s a offset)
  ((baseWriteBack a (offsetAddress s a offset) r.2).setReg rd r.1).addCycles (if rd = 15#4 then 5 else 3)

/-- An ARM store: the data register, memory, then write-back; 2 cycles (R402, R407, R416). -/
def armStore (w : Width) (a : Addressing) (offset : Word) (rd : RegNum) (s : State) : State :=
  let s1 := s.memWrite w (transferAddress s a offset) (s.armOp12 rd)
  (baseWriteBack a (offsetAddress s a offset) s1).addCycles 2

/-- A Thumb load: 3 cycles (R560). -/
def thumbLoad (k : LoadKind) (addr : Word) (rd : LowReg) (s : State) : State :=
  let r := s.loadValue k addr
  (r.2.setReg (lowReg rd) r.1).addCycles 3

/-- A Thumb store: 2 cycles (R560). -/
def thumbStore (w : Width) (addr : Word) (rd : LowReg) (s : State) : State :=
  (s.memWrite w addr (s.reg (lowReg rd))).addCycles 2

/-! ## Blocks of words -/

/-- One word read for each register, at ascending addresses (R420, R424). -/
def readBlock : List RegNum → Word → State → List (RegNum × Word) × State
  | [], _, s => ([], s)
  | i :: is, addr, s =>
    let r := s.memRead .word addr
    let rest := readBlock is (addr + 4) r.2
    ((i, r.1) :: rest.1, rest.2)

/-- One word written for each register, at ascending addresses (R420, R425). -/
def writeBlock (value : RegNum → Word) : List RegNum → Word → State → State
  | [], _, s => s
  | i :: is, addr, s => writeBlock value is (addr + 4) (s.memWrite .word addr (value i))

/-- Loaded values put into registers, in order. -/
def writeRegs (write : State → RegNum → Word → State) : List (RegNum × Word) → State → State
  | [], s => s
  | (i, v) :: rest, s => writeRegs write rest (write s i v)

/-- One word loaded into each register, at ascending addresses (R583, R585). -/
def loadRegs : List RegNum → Word → State → State
  | [], _, s => s
  | i :: is, addr, s =>
    let r := s.memRead .word addr
    loadRegs is (addr + 4) (r.2.setReg i r.1)

/-! ## Thumb ALU -/

/-- A low register and the whole CPSR written (formats 1 to 4). -/
def thumbWrite (rd : LowReg) (value : Word) (psr : Psr) (n : Nat) (s : State) : State :=
  ((s.setReg (lowReg rd) value).setCpsr psr).addCycles n

/-- The CPSR alone written: a comparison. -/
def thumbCompare (psr : Psr) (s : State) : State := (s.setCpsr psr).addCycles 1

/-- A format 4 operation on `a = x[Rd]` and `b = x[Rs]` that sets N and Z only (R528). -/
def thumbLogical (rd : LowReg) (value : Word) (s : State) : State := thumbWrite rd value (s.cpsr.setNZ value) 1 s

/-- An operation that sets N, Z, C, V (R500). -/
def thumbArithmetic (rd : LowReg) (r : AluResult) (s : State) : State :=
  thumbWrite rd r.value (s.cpsr.setNZCV r.value r.carry r.overflow) 1 s

/-- A shift: N, Z, C set, V kept; 1 cycle in format 1, 2 in format 4 (R501, R528). -/
def thumbShift (rd : LowReg) (r : ShiftResult) (n : Nat) (s : State) : State :=
  thumbWrite rd r.value (s.cpsr.setNZC r.value r.carry) n s

end Sys2Proof.Machine
end

