-- ==== Sys2Proof/Machine/ArmBlock.lean ====
section
/-! DEFINITION. The ARM block transfers (44_arm_load_store.md R420 to R427, R434). -/

namespace Sys2Proof.Machine

/-- Whether LDM loads R15: it is listed, or the list is empty (R423, R424). -/
def loadsPc (list : BitVec 16) : Bool := list.getLsbD 15 || list == 0#16

/-- The write-back of LDM: not where the base is in the list (R422, R424). -/
def ldmWriteBack (a : BlockAddressing) (list : BitVec 16) (final : Word) (s : State) : State :=
  if a.wback && !list.getLsbD a.rn.toNat && a.rn != 15#4 then s.setReg a.rn final else s

/-- Where LDM puts a register below R15: the User bank with S = 1 and no R15, else the current one (R424, R434). -/
def ldmWrite (a : BlockAddressing) (list : BitVec 16) (s : State) (i : RegNum) (v : Word) : State :=
  if a.sbit && !loadsPc list then s.setUserReg i v else s.setReg i v

/-- The load of R15, after the restore that S = 1 asks for (R424). -/
def ldmLoadPc (a : BlockAddressing) (loaded : List (RegNum × Word)) (s : State) : State :=
  match loaded.find? (fun p => p.1 == 15#4) with
  | none => s
  | some p => (if a.sbit then s.restoreCpsr else s).setPc p.2

/-- The effect of LDM (R424). -/
def ldmEffect (a : BlockAddressing) (list : BitVec 16) (s : State) : State :=
  let r := readBlock (blockRegs list) (blockStart s a list) s
  let s1 := ldmWriteBack a list (blockFinal s a list) r.2
  let s2 := writeRegs (ldmWrite a list) (r.1.filter (fun p => p.1 != 15#4)) s1
  (ldmLoadPc a r.1 s2).addCycles (2 + listCount list + (if loadsPc list then 2 else 0))

/-- LDM (R424, R427). -/
def execArmLdm (c : Cond) (a : BlockAddressing) (list : BitVec 16) : State → Result State :=
  armInstr c (ldmEffect a list)

/-- The effect of STM (R425). -/
def stmEffect (a : BlockAddressing) (list : BitVec 16) (s : State) : State :=
  let s1 := writeBlock (stmValue s a list) (blockRegs list) (blockStart s a list) s
  let s2 := if a.wback && a.rn != 15#4 then s1.setReg a.rn (blockFinal s a list) else s1
  s2.addCycles (2 + listCount list)

/-- STM (R425, R427). -/
def execArmStm (c : Cond) (a : BlockAddressing) (list : BitVec 16) : State → Result State :=
  armInstr c (stmEffect a list)

end Sys2Proof.Machine
end

