-- ==== Sys2Proof/Machine/ArmBranch.lean ====
section
/-! DEFINITION. The ARM branches (43_arm_branch.md R370 to R372), SWI (45_arm_psr_swi.md R475) and the undefined ARM
encodings, which are one-cycle no-ops (R476). -/

namespace Sys2Proof.Machine

/-- B (R370). -/
def execArmB (c : Cond) (offset : BitVec 24) : State → Result State :=
  armInstr c fun s => (s.setReg 15#4 (s.currentPc + 8 + armBranchOffset offset)).addCycles 3

/-- BL (R371). -/
def execArmBl (c : Cond) (offset : BitVec 24) : State → Result State :=
  armInstr c fun s =>
    ((s.setReg 14#4 (s.currentPc + 4)).setReg 15#4 (s.currentPc + 8 + armBranchOffset offset)).addCycles 3

/-- BX (R372). -/
def execArmBx (c : Cond) (rm : RegNum) : State → Result State :=
  armInstr c fun s => (s.branchExchange (s.armOp rm)).addCycles 3

/-- SWI (R475); the comment reaches no register. -/
def execArmSwi (c : Cond) (_comment : BitVec 25) : State → Result State :=
  armInstr c fun s => s.raiseSwi.addCycles 3

/-- An undefined encoding of the multiply space (R476). -/
def execArmUndefMultiply (c : Cond) (_op : BitVec 5) (_mid : BitVec 12) (_low : BitVec 4) : State → Result State :=
  armInstr c fun s => s.addCycles 1

/-- An undefined store of the halfword space, SH = 10 (R476). -/
def execArmUndefStoreSh10 (c : Cond) (_op : BitVec 4) (_mid : BitVec 12) (_low : BitVec 4) : State → Result State :=
  armInstr c fun s => s.addCycles 1

/-- An undefined store of the halfword space, SH = 11 (R476). -/
def execArmUndefStoreSh11 (c : Cond) (_op : BitVec 4) (_mid : BitVec 12) (_low : BitVec 4) : State → Result State :=
  armInstr c fun s => s.addCycles 1

/-- An undefined word of class 110 (R476). -/
def execArmUndefClass110 (c : Cond) (_rest : BitVec 25) : State → Result State :=
  armInstr c fun s => s.addCycles 1

end Sys2Proof.Machine
end

