-- ==== Sys2Proof/Machine/ArmDataProcessing.lean ====
section
/-! DEFINITION. The sixteen ARM data-processing instructions (41_arm_dataproc.md R310 to R325) over the common path of
R300. -/

namespace Sys2Proof.Machine

/-- AND (R310). -/
def execArmAnd (c : Cond) (sf : Bool) (rn rd : RegNum) (op2 : Operand2) : State → Result State :=
  armInstr c fun s =>
    let o := operand2 s op2
    dpWrite sf rd (logical s (s.armOp rn &&& o.value) o.carry) s

/-- EOR (R311). -/
def execArmEor (c : Cond) (sf : Bool) (rn rd : RegNum) (op2 : Operand2) : State → Result State :=
  armInstr c fun s =>
    let o := operand2 s op2
    dpWrite sf rd (logical s (s.armOp rn ^^^ o.value) o.carry) s

/-- SUB (R312). -/
def execArmSub (c : Cond) (sf : Bool) (rn rd : RegNum) (op2 : Operand2) : State → Result State :=
  armInstr c fun s => dpWrite sf rd (arithmetic s (subWithBorrow (s.armOp rn) (operand2 s op2).value true)) s

/-- RSB (R313). -/
def execArmRsb (c : Cond) (sf : Bool) (rn rd : RegNum) (op2 : Operand2) : State → Result State :=
  armInstr c fun s => dpWrite sf rd (arithmetic s (subWithBorrow (operand2 s op2).value (s.armOp rn) true)) s

/-- ADD (R314). -/
def execArmAdd (c : Cond) (sf : Bool) (rn rd : RegNum) (op2 : Operand2) : State → Result State :=
  armInstr c fun s => dpWrite sf rd (arithmetic s (addWithCarry (s.armOp rn) (operand2 s op2).value false)) s

/-- ADC (R315). -/
def execArmAdc (c : Cond) (sf : Bool) (rn rd : RegNum) (op2 : Operand2) : State → Result State :=
  armInstr c fun s => dpWrite sf rd (arithmetic s (addWithCarry (s.armOp rn) (operand2 s op2).value s.cpsr.c)) s

/-- SBC (R316). -/
def execArmSbc (c : Cond) (sf : Bool) (rn rd : RegNum) (op2 : Operand2) : State → Result State :=
  armInstr c fun s => dpWrite sf rd (arithmetic s (subWithBorrow (s.armOp rn) (operand2 s op2).value s.cpsr.c)) s

/-- RSC (R317). -/
def execArmRsc (c : Cond) (sf : Bool) (rn rd : RegNum) (op2 : Operand2) : State → Result State :=
  armInstr c fun s => dpWrite sf rd (arithmetic s (subWithBorrow (operand2 s op2).value (s.armOp rn) s.cpsr.c)) s

/-- TST (R318). -/
def execArmTst (c : Cond) (rn : RegNum) (op2 : Operand2) : State → Result State :=
  armInstr c fun s =>
    let o := operand2 s op2
    dpCompare (logical s (s.armOp rn &&& o.value) o.carry) s

/-- TEQ (R319). -/
def execArmTeq (c : Cond) (rn : RegNum) (op2 : Operand2) : State → Result State :=
  armInstr c fun s =>
    let o := operand2 s op2
    dpCompare (logical s (s.armOp rn ^^^ o.value) o.carry) s

/-- CMP (R320). -/
def execArmCmp (c : Cond) (rn : RegNum) (op2 : Operand2) : State → Result State :=
  armInstr c fun s => dpCompare (arithmetic s (subWithBorrow (s.armOp rn) (operand2 s op2).value true)) s

/-- CMN (R321). -/
def execArmCmn (c : Cond) (rn : RegNum) (op2 : Operand2) : State → Result State :=
  armInstr c fun s => dpCompare (arithmetic s (addWithCarry (s.armOp rn) (operand2 s op2).value false)) s

/-- ORR (R322). -/
def execArmOrr (c : Cond) (sf : Bool) (rn rd : RegNum) (op2 : Operand2) : State → Result State :=
  armInstr c fun s =>
    let o := operand2 s op2
    dpWrite sf rd (logical s (s.armOp rn ||| o.value) o.carry) s

/-- MOV (R323). -/
def execArmMov (c : Cond) (sf : Bool) (rd : RegNum) (op2 : Operand2) : State → Result State :=
  armInstr c fun s =>
    let o := operand2 s op2
    dpWrite sf rd (logical s o.value o.carry) s

/-- BIC (R324). -/
def execArmBic (c : Cond) (sf : Bool) (rn rd : RegNum) (op2 : Operand2) : State → Result State :=
  armInstr c fun s =>
    let o := operand2 s op2
    dpWrite sf rd (logical s (s.armOp rn &&& ~~~o.value) o.carry) s

/-- MVN (R325). -/
def execArmMvn (c : Cond) (sf : Bool) (rd : RegNum) (op2 : Operand2) : State → Result State :=
  armInstr c fun s =>
    let o := operand2 s op2
    dpWrite sf rd (logical s (~~~o.value) o.carry) s

end Sys2Proof.Machine
end

