-- ==== Sys2Proof/Machine/ArmLoadStore.lean ====
section
/-! DEFINITION. The ARM single transfers, halfword and signed transfers, and swaps (44_arm_load_store.md R400 to R416,
R440, R441). -/

namespace Sys2Proof.Machine

/-- LDR (R403). -/
def execArmLdr (c : Cond) (a : Addressing) (o : WordOffset) (rd : RegNum) : State → Result State :=
  armInstr c fun s => armLoad .word a (wordOffset s o) rd s

/-- LDRB (R404). -/
def execArmLdrb (c : Cond) (a : Addressing) (o : WordOffset) (rd : RegNum) : State → Result State :=
  armInstr c fun s => armLoad .byte a (wordOffset s o) rd s

/-- STR (R405). -/
def execArmStr (c : Cond) (a : Addressing) (o : WordOffset) (rd : RegNum) : State → Result State :=
  armInstr c fun s => armStore .word a (wordOffset s o) rd s

/-- STRB (R406). -/
def execArmStrb (c : Cond) (a : Addressing) (o : WordOffset) (rd : RegNum) : State → Result State :=
  armInstr c fun s => armStore .byte a (wordOffset s o) rd s

/-- LDRH (R411). -/
def execArmLdrh (c : Cond) (a : Addressing) (o : HalfOffset) (rd : RegNum) : State → Result State :=
  armInstr c fun s => armLoad .half a (halfOffset s o) rd s

/-- STRH (R412). -/
def execArmStrh (c : Cond) (a : Addressing) (o : HalfOffset) (rd : RegNum) : State → Result State :=
  armInstr c fun s => armStore .half a (halfOffset s o) rd s

/-- LDRSB (R413). -/
def execArmLdrsb (c : Cond) (a : Addressing) (o : HalfOffset) (rd : RegNum) : State → Result State :=
  armInstr c fun s => armLoad .signedByte a (halfOffset s o) rd s

/-- LDRSH (R414). -/
def execArmLdrsh (c : Cond) (a : Addressing) (o : HalfOffset) (rd : RegNum) : State → Result State :=
  armInstr c fun s => armLoad .signedHalf a (halfOffset s o) rd s

/-- A swap: the load, then the store at the same address, then Rd; 4 cycles (R440, R441). -/
def armSwap (w : Width) (k : LoadKind) (rn rd rm : RegNum) (s : State) : State :=
  let addr := s.armOp rn
  let src := s.armOp rm
  let r := s.loadValue k addr
  ((r.2.memWrite w addr src).setReg rd r.1).addCycles 4

/-- SWP (R440). -/
def execArmSwp (c : Cond) (rn rd rm : RegNum) : State → Result State := armInstr c (armSwap .word .word rn rd rm)

/-- SWPB (R441). -/
def execArmSwpb (c : Cond) (rn rd rm : RegNum) : State → Result State := armInstr c (armSwap .byte .byte rn rd rm)

end Sys2Proof.Machine
end

