-- ==== Sys2Proof/Machine/ArmMultiply.lean ====
section
/-! DEFINITION. The six ARM multiplies (42_arm_multiply.md R351 to R358). Every source is read before a write (R350). -/

namespace Sys2Proof.Machine

/-- MUL (R351). -/
def execArmMul (c : Cond) (sf : Bool) (rd rs rm : RegNum) : State → Result State :=
  armInstr c fun s => mulWrite sf rd (s.armOp rm * s.armOp rs) s

/-- MLA (R352). -/
def execArmMla (c : Cond) (sf : Bool) (rd rn rs rm : RegNum) : State → Result State :=
  armInstr c fun s => mulWrite sf rd (s.armOp rm * s.armOp rs + s.armOp rn) s

/-- UMULL (R353). -/
def execArmUmull (c : Cond) (sf : Bool) (rdHi rdLo rs rm : RegNum) : State → Result State :=
  armInstr c fun s => mulLongWrite sf rdHi rdLo ((s.armOp rm).setWidth 64 * (s.armOp rs).setWidth 64) s

/-- UMLAL (R354). -/
def execArmUmlal (c : Cond) (sf : Bool) (rdHi rdLo rs rm : RegNum) : State → Result State :=
  armInstr c fun s =>
    mulLongWrite sf rdHi rdLo ((s.armOp rm).setWidth 64 * (s.armOp rs).setWidth 64 + accumulator s rdHi rdLo) s

/-- SMULL (R355). -/
def execArmSmull (c : Cond) (sf : Bool) (rdHi rdLo rs rm : RegNum) : State → Result State :=
  armInstr c fun s => mulLongWrite sf rdHi rdLo ((s.armOp rm).signExtend 64 * (s.armOp rs).signExtend 64) s

/-- SMLAL (R356). -/
def execArmSmlal (c : Cond) (sf : Bool) (rdHi rdLo rs rm : RegNum) : State → Result State :=
  armInstr c fun s =>
    mulLongWrite sf rdHi rdLo ((s.armOp rm).signExtend 64 * (s.armOp rs).signExtend 64 + accumulator s rdHi rdLo) s

end Sys2Proof.Machine
end

