-- ==== Sys2Proof/Machine/ArmSystem.lean ====
section
/-! DEFINITION. The PSR transfers (45_arm_psr_swi.md R470 to R474). -/

namespace Sys2Proof.Machine

/-- MRS Rd, CPSR (R470). -/
def execArmMrsCpsr (c : Cond) (rd : RegNum) : State → Result State :=
  armInstr c fun s => (s.setReg rd s.cpsr).addCycles 1

/-- MRS Rd, SPSR (R470). -/
def execArmMrsSpsr (c : Cond) (rd : RegNum) : State → Result State :=
  armInstr c fun s => (s.setReg rd s.currentSpsr).addCycles 1

/-- The bytes of CPSR that MSR may write: in User mode the flags byte alone (R472, R473). -/
def cpsrBytes (s : State) (mask : BitVec 4) : Word :=
  if s.mode = .user then maskBytes mask &&& 0xFF000000#32 else maskBytes mask

/-- The bytes selected taken from `op`, the others kept (R472, R474). -/
def mergeBytes (bytes old op : Word) : Word := (old &&& ~~~bytes) ||| (op &&& bytes)

/-- MSR to CPSR: bits 31..8, then I, F, T and the mode where the control byte is selected and allowed (R472). -/
def msrCpsr (mask : BitVec 4) (op : Word) (s : State) : State :=
  let bytes := cpsrBytes s mask
  let new : Psr := mergeBytes bytes s.cpsr op
  let upper : Psr := pack (bits new 8 24 ++ bits s.cpsr 0 8)
  if bits bytes 0 8 = 0xFF#8 then
    (s.setCpsr (((upper.setI new.i).setF new.f).setT new.t)).switchMode new.m false
  else s.setCpsr upper

/-- MSR to SPSR; no effect in User and System mode (R474, R43). -/
def msrSpsr (mask : BitVec 4) (op : Word) (s : State) : State :=
  s.setCurrentSpsr (mergeBytes (maskBytes mask) s.currentSpsr op)

/-- MSR CPSR, register (R471, R472). -/
def execArmMsrCpsrReg (c : Cond) (mask : BitVec 4) (rm : RegNum) : State → Result State :=
  armInstr c fun s => (msrCpsr mask (s.armOp rm) s).addCycles 1

/-- MSR SPSR, register (R471, R474). -/
def execArmMsrSpsrReg (c : Cond) (mask : BitVec 4) (rm : RegNum) : State → Result State :=
  armInstr c fun s => (msrSpsr mask (s.armOp rm) s).addCycles 1

/-- MSR CPSR, immediate (R471, R472). -/
def execArmMsrCpsrImm (c : Cond) (mask rot4 : BitVec 4) (imm8 : BitVec 8) : State → Result State :=
  armInstr c fun s => (msrCpsr mask (rotatedImm rot4 imm8) s).addCycles 1

/-- MSR SPSR, immediate (R471, R474). -/
def execArmMsrSpsrImm (c : Cond) (mask rot4 : BitVec 4) (imm8 : BitVec 8) : State → Result State :=
  armInstr c fun s => (msrSpsr mask (rotatedImm rot4 imm8) s).addCycles 1

end Sys2Proof.Machine
end

