-- ==== Sys2Proof/Machine/ThumbAlu.lean ====
section
/-! DEFINITION. Thumb formats 1 to 5 (46_thumb_alu.md R500 to R533). -/

namespace Sys2Proof.Machine

/-! ## Format 1: move shifted register -/

/-- LSL Rd, Rs, #offset5 (R501). -/
def execThumbLslImm (offset5 : BitVec 5) (rs rd : LowReg) (s : State) : Result State :=
  .next (thumbShift rd (lslC (s.reg (lowReg rs)) offset5.toNat s.cpsr.c true) 1 s)

/-- LSR Rd, Rs, #offset5 (R502). -/
def execThumbLsrImm (offset5 : BitVec 5) (rs rd : LowReg) (s : State) : Result State :=
  .next (thumbShift rd (lsrC (s.reg (lowReg rs)) offset5.toNat s.cpsr.c true) 1 s)

/-- ASR Rd, Rs, #offset5 (R503). -/
def execThumbAsrImm (offset5 : BitVec 5) (rs rd : LowReg) (s : State) : Result State :=
  .next (thumbShift rd (asrC (s.reg (lowReg rs)) offset5.toNat s.cpsr.c true) 1 s)

/-! ## Format 2: add and subtract -/

/-- ADD Rd, Rs, Rn (R504). -/
def execThumbAddReg (rn rs rd : LowReg) (s : State) : Result State :=
  .next (thumbArithmetic rd (addWithCarry (s.reg (lowReg rs)) (s.reg (lowReg rn)) false) s)

/-- SUB Rd, Rs, Rn (R505). -/
def execThumbSubReg (rn rs rd : LowReg) (s : State) : Result State :=
  .next (thumbArithmetic rd (subWithBorrow (s.reg (lowReg rs)) (s.reg (lowReg rn)) true) s)

/-- ADD Rd, Rs, #imm3 (R506). -/
def execThumbAddImm3 (imm3 : BitVec 3) (rs rd : LowReg) (s : State) : Result State :=
  .next (thumbArithmetic rd (addWithCarry (s.reg (lowReg rs)) (imm3.setWidth 32) false) s)

/-- SUB Rd, Rs, #imm3 (R507). -/
def execThumbSubImm3 (imm3 : BitVec 3) (rs rd : LowReg) (s : State) : Result State :=
  .next (thumbArithmetic rd (subWithBorrow (s.reg (lowReg rs)) (imm3.setWidth 32) true) s)

/-! ## Format 3: move, compare, add, subtract immediate -/

/-- MOV Rd, #imm8: N is 0, C and V stay (R508). -/
def execThumbMovImm8 (rd : LowReg) (imm8 : BitVec 8) (s : State) : Result State :=
  .next (thumbLogical rd (imm8.setWidth 32) s)

/-- CMP Rd, #imm8 (R509). -/
def execThumbCmpImm8 (rd : LowReg) (imm8 : BitVec 8) (s : State) : Result State :=
  .next (thumbCompare (arithmetic s (subWithBorrow (s.reg (lowReg rd)) (imm8.setWidth 32) true)).psr s)

/-- ADD Rd, #imm8 (R510). -/
def execThumbAddImm8 (rd : LowReg) (imm8 : BitVec 8) (s : State) : Result State :=
  .next (thumbArithmetic rd (addWithCarry (s.reg (lowReg rd)) (imm8.setWidth 32) false) s)

/-- SUB Rd, #imm8 (R511). -/
def execThumbSubImm8 (rd : LowReg) (imm8 : BitVec 8) (s : State) : Result State :=
  .next (thumbArithmetic rd (subWithBorrow (s.reg (lowReg rd)) (imm8.setWidth 32) true) s)

/-! ## Format 4: ALU operations (R528) -/

/-- AND Rd, Rs (R512). -/
def execThumbAnd (rs rd : LowReg) (s : State) : Result State :=
  .next (thumbLogical rd (s.reg (lowReg rd) &&& s.reg (lowReg rs)) s)

/-- EOR Rd, Rs (R513). -/
def execThumbEor (rs rd : LowReg) (s : State) : Result State :=
  .next (thumbLogical rd (s.reg (lowReg rd) ^^^ s.reg (lowReg rs)) s)

/-- LSL Rd, Rs (R514). -/
def execThumbLslReg (rs rd : LowReg) (s : State) : Result State :=
  .next (thumbShift rd (lslC (s.reg (lowReg rd)) (bits (s.reg (lowReg rs)) 0 8).toNat s.cpsr.c false) 2 s)

/-- LSR Rd, Rs (R515). -/
def execThumbLsrReg (rs rd : LowReg) (s : State) : Result State :=
  .next (thumbShift rd (lsrC (s.reg (lowReg rd)) (bits (s.reg (lowReg rs)) 0 8).toNat s.cpsr.c false) 2 s)

/-- ASR Rd, Rs (R516). -/
def execThumbAsrReg (rs rd : LowReg) (s : State) : Result State :=
  .next (thumbShift rd (asrC (s.reg (lowReg rd)) (bits (s.reg (lowReg rs)) 0 8).toNat s.cpsr.c false) 2 s)

/-- ADC Rd, Rs (R517). -/
def execThumbAdc (rs rd : LowReg) (s : State) : Result State :=
  .next (thumbArithmetic rd (addWithCarry (s.reg (lowReg rd)) (s.reg (lowReg rs)) s.cpsr.c) s)

/-- SBC Rd, Rs (R518). -/
def execThumbSbc (rs rd : LowReg) (s : State) : Result State :=
  .next (thumbArithmetic rd (subWithBorrow (s.reg (lowReg rd)) (s.reg (lowReg rs)) s.cpsr.c) s)

/-- ROR Rd, Rs (R519). -/
def execThumbRorReg (rs rd : LowReg) (s : State) : Result State :=
  .next (thumbShift rd (rorC (s.reg (lowReg rd)) (bits (s.reg (lowReg rs)) 0 8).toNat s.cpsr.c false) 2 s)

/-- TST Rd, Rs (R520). -/
def execThumbTst (rs rd : LowReg) (s : State) : Result State :=
  .next (thumbCompare (s.cpsr.setNZ (s.reg (lowReg rd) &&& s.reg (lowReg rs))) s)

/-- NEG Rd, Rs (R521). -/
def execThumbNeg (rs rd : LowReg) (s : State) : Result State :=
  .next (thumbArithmetic rd (subWithBorrow 0#32 (s.reg (lowReg rs)) true) s)

/-- CMP Rd, Rs (R522). -/
def execThumbCmpReg (rs rd : LowReg) (s : State) : Result State :=
  .next (thumbCompare (arithmetic s (subWithBorrow (s.reg (lowReg rd)) (s.reg (lowReg rs)) true)).psr s)

/-- CMN Rd, Rs (R523). -/
def execThumbCmn (rs rd : LowReg) (s : State) : Result State :=
  .next (thumbCompare (arithmetic s (addWithCarry (s.reg (lowReg rd)) (s.reg (lowReg rs)) false)).psr s)

/-- ORR Rd, Rs (R524). -/
def execThumbOrr (rs rd : LowReg) (s : State) : Result State :=
  .next (thumbLogical rd (s.reg (lowReg rd) ||| s.reg (lowReg rs)) s)

/-- MUL Rd, Rs (R525). -/
def execThumbMul (rs rd : LowReg) (s : State) : Result State :=
  .next (thumbWrite rd (s.reg (lowReg rd) * s.reg (lowReg rs)) (s.cpsr.setNZ (s.reg (lowReg rd) * s.reg (lowReg rs))) 2 s)

/-- BIC Rd, Rs (R526). -/
def execThumbBic (rs rd : LowReg) (s : State) : Result State :=
  .next (thumbLogical rd (s.reg (lowReg rd) &&& ~~~(s.reg (lowReg rs))) s)

/-- MVN Rd, Rs (R527). -/
def execThumbMvn (rs rd : LowReg) (s : State) : Result State :=
  .next (thumbLogical rd (~~~(s.reg (lowReg rs))) s)

/-! ## Format 5: hi-register operations and BX -/

/-- ADD Rd, Rs; no flags; 3 cycles with Rd = 15 (R530). -/
def execThumbAddHi (rs rd : RegNum) (s : State) : Result State :=
  .next ((s.setReg rd (s.thumbOp rd + s.thumbOp rs)).addCycles (if rd = 15#4 then 3 else 1))

/-- CMP Rd, Rs (R531). -/
def execThumbCmpHi (rs rd : RegNum) (s : State) : Result State :=
  .next (thumbCompare (arithmetic s (subWithBorrow (s.thumbOp rd) (s.thumbOp rs) true)).psr s)

/-- MOV Rd, Rs; no flags; 3 cycles with Rd = 15 (R532). -/
def execThumbMovHi (rs rd : RegNum) (s : State) : Result State :=
  .next ((s.setReg rd (s.thumbOp rs)).addCycles (if rd = 15#4 then 3 else 1))

/-- BX Rs (R533). -/
def execThumbBx (rs : RegNum) (s : State) : Result State :=
  .next ((s.branchExchange (s.thumbOp rs)).addCycles 3)

end Sys2Proof.Machine
end

