-- ==== Sys2Proof/Machine/ThumbBranch.lean ====
section
/-! DEFINITION. Thumb formats 16 to 19 and the undefined prefix 11101 (48_thumb_branch.md R620 to R625). -/

namespace Sys2Proof.Machine

/-- B<cond>: 3 cycles taken, 1 not taken (R620). -/
def execThumbBCond (c : Cond) (soffset8 : BitVec 8) (s : State) : Result State :=
  .next
    (if condPassed s.cpsr c then (s.setReg 15#4 (s.currentPc + 4 + thumbBranchOffset8 soffset8)).addCycles 3
      else s.addCycles 1)

/-- SWI (R621); the value reaches no register. -/
def execThumbSwi (_value8 : BitVec 8) (s : State) : Result State := .next (s.raiseSwi.addCycles 3)

/-- B (R622). -/
def execThumbB (offset11 : BitVec 11) (s : State) : Result State :=
  .next ((s.setReg 15#4 (s.currentPc + 4 + thumbBranchOffset11 offset11)).addCycles 3)

/-- An undefined halfword with prefix 11101: one cycle, nothing else (R625). -/
def execThumbUndef11101 (_rest : BitVec 11) (s : State) : Result State := .next (s.addCycles 1)

/-- BL, first half (R623). -/
def execThumbBlFirst (offset11 : BitVec 11) (s : State) : Result State :=
  .next ((s.setReg 14#4 (s.currentPc + 4 + (offset11.signExtend 32 <<< 12))).addCycles 1)

/-- BL, second half (R624). -/
def execThumbBlSecond (offset11 : BitVec 11) (s : State) : Result State :=
  let target := s.reg 14#4 + scaled offset11 1
  .next (((s.setReg 14#4 ((s.currentPc + 2) ||| 1#32)).setReg 15#4 target).addCycles 3)

end Sys2Proof.Machine
end

