-- ==== Sys2Proof/Machine/ThumbLoadStore.lean ====
section
/-! DEFINITION. Thumb formats 6 to 15 (47_thumb_load_store.md R560 to R586). -/

namespace Sys2Proof.Machine

/-! ## Format 6 -/

/-- LDR Rd, [PC, #word8 * 4]: the address is aligned, so nothing rotates (R561). -/
def execThumbLdrPc (rd : LowReg) (word8 : BitVec 8) (s : State) : Result State :=
  .next (thumbLoad .word (s.thumbPcBase + scaled word8 2) rd s)

/-! ## Formats 7 and 8: register offset -/

/-- `x[Rb] + x[Ro]`. -/
def regOffsetAddress (s : State) (ro rb : LowReg) : Word := s.reg (lowReg rb) + s.reg (lowReg ro)

/-- STR Rd, [Rb, Ro] (R562). -/
def execThumbStrReg (ro rb rd : LowReg) (s : State) : Result State :=
  .next (thumbStore .word (regOffsetAddress s ro rb) rd s)

/-- STRB Rd, [Rb, Ro] (R563). -/
def execThumbStrbReg (ro rb rd : LowReg) (s : State) : Result State :=
  .next (thumbStore .byte (regOffsetAddress s ro rb) rd s)

/-- LDR Rd, [Rb, Ro] (R564). -/
def execThumbLdrReg (ro rb rd : LowReg) (s : State) : Result State :=
  .next (thumbLoad .word (regOffsetAddress s ro rb) rd s)

/-- LDRB Rd, [Rb, Ro] (R565). -/
def execThumbLdrbReg (ro rb rd : LowReg) (s : State) : Result State :=
  .next (thumbLoad .byte (regOffsetAddress s ro rb) rd s)

/-- STRH Rd, [Rb, Ro] (R566). -/
def execThumbStrhReg (ro rb rd : LowReg) (s : State) : Result State :=
  .next (thumbStore .half (regOffsetAddress s ro rb) rd s)

/-- LDSB Rd, [Rb, Ro] (R567). -/
def execThumbLdsb (ro rb rd : LowReg) (s : State) : Result State :=
  .next (thumbLoad .signedByte (regOffsetAddress s ro rb) rd s)

/-- LDRH Rd, [Rb, Ro] (R568). -/
def execThumbLdrhReg (ro rb rd : LowReg) (s : State) : Result State :=
  .next (thumbLoad .half (regOffsetAddress s ro rb) rd s)

/-- LDSH Rd, [Rb, Ro] (R569). -/
def execThumbLdsh (ro rb rd : LowReg) (s : State) : Result State :=
  .next (thumbLoad .signedHalf (regOffsetAddress s ro rb) rd s)

/-! ## Formats 9 and 10: immediate offset -/

/-- `x[Rb] + offset5 * 2^k`. -/
def immOffsetAddress (s : State) (offset5 : BitVec 5) (k : Nat) (rb : LowReg) : Word :=
  s.reg (lowReg rb) + scaled offset5 k

/-- STR Rd, [Rb, #offset5 * 4] (R570). -/
def execThumbStrImm (offset5 : BitVec 5) (rb rd : LowReg) (s : State) : Result State :=
  .next (thumbStore .word (immOffsetAddress s offset5 2 rb) rd s)

/-- LDR Rd, [Rb, #offset5 * 4] (R571). -/
def execThumbLdrImm (offset5 : BitVec 5) (rb rd : LowReg) (s : State) : Result State :=
  .next (thumbLoad .word (immOffsetAddress s offset5 2 rb) rd s)

/-- STRB Rd, [Rb, #offset5] (R572). -/
def execThumbStrbImm (offset5 : BitVec 5) (rb rd : LowReg) (s : State) : Result State :=
  .next (thumbStore .byte (immOffsetAddress s offset5 0 rb) rd s)

/-- LDRB Rd, [Rb, #offset5] (R573). -/
def execThumbLdrbImm (offset5 : BitVec 5) (rb rd : LowReg) (s : State) : Result State :=
  .next (thumbLoad .byte (immOffsetAddress s offset5 0 rb) rd s)

/-- STRH Rd, [Rb, #offset5 * 2] (R574). -/
def execThumbStrhImm (offset5 : BitVec 5) (rb rd : LowReg) (s : State) : Result State :=
  .next (thumbStore .half (immOffsetAddress s offset5 1 rb) rd s)

/-- LDRH Rd, [Rb, #offset5 * 2] (R575). -/
def execThumbLdrhImm (offset5 : BitVec 5) (rb rd : LowReg) (s : State) : Result State :=
  .next (thumbLoad .half (immOffsetAddress s offset5 1 rb) rd s)

/-! ## Formats 11 to 13: SP and PC relative -/

/-- STR Rd, [SP, #word8 * 4] (R576). -/
def execThumbStrSp (rd : LowReg) (word8 : BitVec 8) (s : State) : Result State :=
  .next (thumbStore .word (s.reg 13#4 + scaled word8 2) rd s)

/-- LDR Rd, [SP, #word8 * 4] (R577). -/
def execThumbLdrSp (rd : LowReg) (word8 : BitVec 8) (s : State) : Result State :=
  .next (thumbLoad .word (s.reg 13#4 + scaled word8 2) rd s)

/-- ADD Rd, PC, #word8 * 4 (R578). -/
def execThumbAddRdPc (rd : LowReg) (word8 : BitVec 8) (s : State) : Result State :=
  .next ((s.setReg (lowReg rd) (s.thumbPcBase + scaled word8 2)).addCycles 1)

/-- ADD Rd, SP, #word8 * 4 (R579). -/
def execThumbAddRdSp (rd : LowReg) (word8 : BitVec 8) (s : State) : Result State :=
  .next ((s.setReg (lowReg rd) (s.reg 13#4 + scaled word8 2)).addCycles 1)

/-- ADD SP, #sword7 * 4 (R580). -/
def execThumbAddSpImm (sword7 : BitVec 7) (s : State) : Result State :=
  .next ((s.setReg 13#4 (s.reg 13#4 + scaled sword7 2)).addCycles 1)

/-- SUB SP, #sword7 * 4 (R581). -/
def execThumbSubSpImm (sword7 : BitVec 7) (s : State) : Result State :=
  .next ((s.setReg 13#4 (s.reg 13#4 - scaled sword7 2)).addCycles 1)

/-! ## Format 14: push and pop -/

/-- The registers a PUSH stores, LR last (R582). -/
def pushRegs (lr : Bool) (list : BitVec 8) : List RegNum := listRegs list ++ (if lr then [14#4] else [])

/-- The number of words a PUSH or POP moves. -/
def stackCount (extra : Bool) (list : BitVec 8) : Nat := listCount list + extra.toNat

/-- The effect of PUSH: the stores, then SP (R582). -/
def pushEffect (lr : Bool) (list : BitVec 8) (s : State) : State :=
  let bottom := s.reg 13#4 - wordsSize (stackCount lr list)
  ((writeBlock s.reg (pushRegs lr list) bottom s).setReg 13#4 bottom).addCycles 2

/-- PUSH; an empty list is refused (R582, R586). -/
def execThumbPush (lr : Bool) (list : BitVec 8) (s : State) : Result State :=
  if stackCount lr list = 0 then .refused .emptyThumbRegisterList else .next (pushEffect lr list s)

/-- The effect of POP: the loads, the PC with T from bit 0, then SP (R583). -/
def popEffect (pc : Bool) (list : BitVec 8) (s : State) : State :=
  let bottom := s.reg 13#4
  let s1 := loadRegs (listRegs list) bottom s
  let s2 :=
    if pc then
      let r := s1.memRead .word (bottom + wordsSize (listCount list))
      r.2.branchExchange r.1
    else s1
  (s2.setReg 13#4 (bottom + wordsSize (stackCount pc list))).addCycles 3

/-- POP; an empty list is refused (R583, R586). -/
def execThumbPop (pc : Bool) (list : BitVec 8) (s : State) : Result State :=
  if stackCount pc list = 0 then .refused .emptyThumbRegisterList else .next (popEffect pc list s)

/-- An undefined halfword with prefix 1011: one cycle, nothing else (R625). -/
def execThumbUndef1011 (_rest : BitVec 12) (s : State) : Result State := .next (s.addCycles 1)

/-! ## Format 15: multiple load and store -/

/-- The effect of STMIA (R584). -/
def stmiaEffect (rb : LowReg) (list : BitVec 8) (s : State) : State :=
  let base := s.reg (lowReg rb)
  let s1 := writeBlock (stmiaValue s rb list) (listRegs list) base s
  (s1.setReg (lowReg rb) (base + wordsSize (listCount list))).addCycles 2

/-- STMIA; an empty list is refused (R584, R586). -/
def execThumbStmia (rb : LowReg) (list : BitVec 8) (s : State) : Result State :=
  if listCount list = 0 then .refused .emptyThumbRegisterList else .next (stmiaEffect rb list s)

/-- The effect of LDMIA: no write-back where the base is in the list (R585). -/
def ldmiaEffect (rb : LowReg) (list : BitVec 8) (s : State) : State :=
  let base := s.reg (lowReg rb)
  let s1 := loadRegs (listRegs list) base s
  (if list.getLsbD rb.toNat then s1 else s1.setReg (lowReg rb) (base + wordsSize (listCount list))).addCycles 3

/-- LDMIA; an empty list is refused (R585, R586). -/
def execThumbLdmia (rb : LowReg) (list : BitVec 8) (s : State) : Result State :=
  if listCount list = 0 then .refused .emptyThumbRegisterList else .next (ldmiaEffect rb list s)

end Sys2Proof.Machine
end

