-- ==== Sys2Proof/Machine/Dispatch.lean ====
section
/-! DEFINITION. The meaning of every instruction, one arm per constructor of `Instr`, in the table's order. -/

namespace Sys2Proof.Machine

def exec (i : Instr) (s : State) : Host.Outcome State Fault Refusal :=
  match i with
  | .armB c offset => Sys2Proof.Machine.execArmB c offset s
  | .armBl c offset => Sys2Proof.Machine.execArmBl c offset s
  | .armStm c a list => Sys2Proof.Machine.execArmStm c a list s
  | .armLdm c a list => Sys2Proof.Machine.execArmLdm c a list s
  | .armStr c a offset rd => Sys2Proof.Machine.execArmStr c a offset rd s
  | .armLdr c a offset rd => Sys2Proof.Machine.execArmLdr c a offset rd s
  | .armStrb c a offset rd => Sys2Proof.Machine.execArmStrb c a offset rd s
  | .armLdrb c a offset rd => Sys2Proof.Machine.execArmLdrb c a offset rd s
  | .armMul c sf rd rs rm => Sys2Proof.Machine.execArmMul c sf rd rs rm s
  | .armMla c sf rd rn rs rm => Sys2Proof.Machine.execArmMla c sf rd rn rs rm s
  | .armUmull c sf rdHi rdLo rs rm => Sys2Proof.Machine.execArmUmull c sf rdHi rdLo rs rm s
  | .armUmlal c sf rdHi rdLo rs rm => Sys2Proof.Machine.execArmUmlal c sf rdHi rdLo rs rm s
  | .armSmull c sf rdHi rdLo rs rm => Sys2Proof.Machine.execArmSmull c sf rdHi rdLo rs rm s
  | .armSmlal c sf rdHi rdLo rs rm => Sys2Proof.Machine.execArmSmlal c sf rdHi rdLo rs rm s
  | .armSwp c rn rd rm => Sys2Proof.Machine.execArmSwp c rn rd rm s
  | .armSwpb c rn rd rm => Sys2Proof.Machine.execArmSwpb c rn rd rm s
  | .armUndefMultiply c op mid low => Sys2Proof.Machine.execArmUndefMultiply c op mid low s
  | .armStrh c a offset rd => Sys2Proof.Machine.execArmStrh c a offset rd s
  | .armLdrh c a offset rd => Sys2Proof.Machine.execArmLdrh c a offset rd s
  | .armLdrsb c a offset rd => Sys2Proof.Machine.execArmLdrsb c a offset rd s
  | .armLdrsh c a offset rd => Sys2Proof.Machine.execArmLdrsh c a offset rd s
  | .armUndefStoreSh10 c op mid low => Sys2Proof.Machine.execArmUndefStoreSh10 c op mid low s
  | .armUndefStoreSh11 c op mid low => Sys2Proof.Machine.execArmUndefStoreSh11 c op mid low s
  | .armBx c rm => Sys2Proof.Machine.execArmBx c rm s
  | .armMrsCpsr c rd => Sys2Proof.Machine.execArmMrsCpsr c rd s
  | .armMrsSpsr c rd => Sys2Proof.Machine.execArmMrsSpsr c rd s
  | .armMsrCpsrReg c mask rm => Sys2Proof.Machine.execArmMsrCpsrReg c mask rm s
  | .armMsrSpsrReg c mask rm => Sys2Proof.Machine.execArmMsrSpsrReg c mask rm s
  | .armMsrCpsrImm c mask rot4 imm8 => Sys2Proof.Machine.execArmMsrCpsrImm c mask rot4 imm8 s
  | .armMsrSpsrImm c mask rot4 imm8 => Sys2Proof.Machine.execArmMsrSpsrImm c mask rot4 imm8 s
  | .armAnd c sf rn rd op2 => Sys2Proof.Machine.execArmAnd c sf rn rd op2 s
  | .armEor c sf rn rd op2 => Sys2Proof.Machine.execArmEor c sf rn rd op2 s
  | .armSub c sf rn rd op2 => Sys2Proof.Machine.execArmSub c sf rn rd op2 s
  | .armRsb c sf rn rd op2 => Sys2Proof.Machine.execArmRsb c sf rn rd op2 s
  | .armAdd c sf rn rd op2 => Sys2Proof.Machine.execArmAdd c sf rn rd op2 s
  | .armAdc c sf rn rd op2 => Sys2Proof.Machine.execArmAdc c sf rn rd op2 s
  | .armSbc c sf rn rd op2 => Sys2Proof.Machine.execArmSbc c sf rn rd op2 s
  | .armRsc c sf rn rd op2 => Sys2Proof.Machine.execArmRsc c sf rn rd op2 s
  | .armTst c rn op2 => Sys2Proof.Machine.execArmTst c rn op2 s
  | .armTeq c rn op2 => Sys2Proof.Machine.execArmTeq c rn op2 s
  | .armCmp c rn op2 => Sys2Proof.Machine.execArmCmp c rn op2 s
  | .armCmn c rn op2 => Sys2Proof.Machine.execArmCmn c rn op2 s
  | .armOrr c sf rn rd op2 => Sys2Proof.Machine.execArmOrr c sf rn rd op2 s
  | .armMov c sf rd op2 => Sys2Proof.Machine.execArmMov c sf rd op2 s
  | .armBic c sf rn rd op2 => Sys2Proof.Machine.execArmBic c sf rn rd op2 s
  | .armMvn c sf rd op2 => Sys2Proof.Machine.execArmMvn c sf rd op2 s
  | .armUndefClass110 c rest => Sys2Proof.Machine.execArmUndefClass110 c rest s
  | .armSwi c comment => Sys2Proof.Machine.execArmSwi c comment s
  | .thumbLslImm offset5 rs rd => Sys2Proof.Machine.execThumbLslImm offset5 rs rd s
  | .thumbLsrImm offset5 rs rd => Sys2Proof.Machine.execThumbLsrImm offset5 rs rd s
  | .thumbAsrImm offset5 rs rd => Sys2Proof.Machine.execThumbAsrImm offset5 rs rd s
  | .thumbAddReg rn rs rd => Sys2Proof.Machine.execThumbAddReg rn rs rd s
  | .thumbSubReg rn rs rd => Sys2Proof.Machine.execThumbSubReg rn rs rd s
  | .thumbAddImm3 imm3 rs rd => Sys2Proof.Machine.execThumbAddImm3 imm3 rs rd s
  | .thumbSubImm3 imm3 rs rd => Sys2Proof.Machine.execThumbSubImm3 imm3 rs rd s
  | .thumbMovImm8 rd imm8 => Sys2Proof.Machine.execThumbMovImm8 rd imm8 s
  | .thumbCmpImm8 rd imm8 => Sys2Proof.Machine.execThumbCmpImm8 rd imm8 s
  | .thumbAddImm8 rd imm8 => Sys2Proof.Machine.execThumbAddImm8 rd imm8 s
  | .thumbSubImm8 rd imm8 => Sys2Proof.Machine.execThumbSubImm8 rd imm8 s
  | .thumbAnd rs rd => Sys2Proof.Machine.execThumbAnd rs rd s
  | .thumbEor rs rd => Sys2Proof.Machine.execThumbEor rs rd s
  | .thumbLslReg rs rd => Sys2Proof.Machine.execThumbLslReg rs rd s
  | .thumbLsrReg rs rd => Sys2Proof.Machine.execThumbLsrReg rs rd s
  | .thumbAsrReg rs rd => Sys2Proof.Machine.execThumbAsrReg rs rd s
  | .thumbAdc rs rd => Sys2Proof.Machine.execThumbAdc rs rd s
  | .thumbSbc rs rd => Sys2Proof.Machine.execThumbSbc rs rd s
  | .thumbRorReg rs rd => Sys2Proof.Machine.execThumbRorReg rs rd s
  | .thumbTst rs rd => Sys2Proof.Machine.execThumbTst rs rd s
  | .thumbNeg rs rd => Sys2Proof.Machine.execThumbNeg rs rd s
  | .thumbCmpReg rs rd => Sys2Proof.Machine.execThumbCmpReg rs rd s
  | .thumbCmn rs rd => Sys2Proof.Machine.execThumbCmn rs rd s
  | .thumbOrr rs rd => Sys2Proof.Machine.execThumbOrr rs rd s
  | .thumbMul rs rd => Sys2Proof.Machine.execThumbMul rs rd s
  | .thumbBic rs rd => Sys2Proof.Machine.execThumbBic rs rd s
  | .thumbMvn rs rd => Sys2Proof.Machine.execThumbMvn rs rd s
  | .thumbAddHi rs rd => Sys2Proof.Machine.execThumbAddHi rs rd s
  | .thumbCmpHi rs rd => Sys2Proof.Machine.execThumbCmpHi rs rd s
  | .thumbMovHi rs rd => Sys2Proof.Machine.execThumbMovHi rs rd s
  | .thumbBx rs => Sys2Proof.Machine.execThumbBx rs s
  | .thumbLdrPc rd word8 => Sys2Proof.Machine.execThumbLdrPc rd word8 s
  | .thumbStrReg ro rb rd => Sys2Proof.Machine.execThumbStrReg ro rb rd s
  | .thumbStrbReg ro rb rd => Sys2Proof.Machine.execThumbStrbReg ro rb rd s
  | .thumbLdrReg ro rb rd => Sys2Proof.Machine.execThumbLdrReg ro rb rd s
  | .thumbLdrbReg ro rb rd => Sys2Proof.Machine.execThumbLdrbReg ro rb rd s
  | .thumbStrhReg ro rb rd => Sys2Proof.Machine.execThumbStrhReg ro rb rd s
  | .thumbLdsb ro rb rd => Sys2Proof.Machine.execThumbLdsb ro rb rd s
  | .thumbLdrhReg ro rb rd => Sys2Proof.Machine.execThumbLdrhReg ro rb rd s
  | .thumbLdsh ro rb rd => Sys2Proof.Machine.execThumbLdsh ro rb rd s
  | .thumbStrImm offset5 rb rd => Sys2Proof.Machine.execThumbStrImm offset5 rb rd s
  | .thumbLdrImm offset5 rb rd => Sys2Proof.Machine.execThumbLdrImm offset5 rb rd s
  | .thumbStrbImm offset5 rb rd => Sys2Proof.Machine.execThumbStrbImm offset5 rb rd s
  | .thumbLdrbImm offset5 rb rd => Sys2Proof.Machine.execThumbLdrbImm offset5 rb rd s
  | .thumbStrhImm offset5 rb rd => Sys2Proof.Machine.execThumbStrhImm offset5 rb rd s
  | .thumbLdrhImm offset5 rb rd => Sys2Proof.Machine.execThumbLdrhImm offset5 rb rd s
  | .thumbStrSp rd word8 => Sys2Proof.Machine.execThumbStrSp rd word8 s
  | .thumbLdrSp rd word8 => Sys2Proof.Machine.execThumbLdrSp rd word8 s
  | .thumbAddRdPc rd word8 => Sys2Proof.Machine.execThumbAddRdPc rd word8 s
  | .thumbAddRdSp rd word8 => Sys2Proof.Machine.execThumbAddRdSp rd word8 s
  | .thumbAddSpImm sword7 => Sys2Proof.Machine.execThumbAddSpImm sword7 s
  | .thumbSubSpImm sword7 => Sys2Proof.Machine.execThumbSubSpImm sword7 s
  | .thumbPush lr list => Sys2Proof.Machine.execThumbPush lr list s
  | .thumbPop pc list => Sys2Proof.Machine.execThumbPop pc list s
  | .thumbUndef1011 rest => Sys2Proof.Machine.execThumbUndef1011 rest s
  | .thumbStmia rb list => Sys2Proof.Machine.execThumbStmia rb list s
  | .thumbLdmia rb list => Sys2Proof.Machine.execThumbLdmia rb list s
  | .thumbSwi value8 => Sys2Proof.Machine.execThumbSwi value8 s
  | .thumbBCond c soffset8 => Sys2Proof.Machine.execThumbBCond c soffset8 s
  | .thumbB offset11 => Sys2Proof.Machine.execThumbB offset11 s
  | .thumbUndef11101 rest => Sys2Proof.Machine.execThumbUndef11101 rest s
  | .thumbBlFirst offset11 => Sys2Proof.Machine.execThumbBlFirst offset11 s
  | .thumbBlSecond offset11 => Sys2Proof.Machine.execThumbBlSecond offset11 s

end Sys2Proof.Machine
end

