-- ==== Sys2Proof/Machine/Fetch.lean ====
section
/-! DEFINITION. The fetch (40_core_primitives.md R230, R231) and the placing of an instruction where the next fetch
reads it. -/

namespace Sys2Proof.Machine

/-- The width of an instruction fetch in ARM and Thumb state (R231). -/
def fetchWidth (thumb : Bool) : Width := if thumb then .half else .word

/-- The bytes an instruction takes. -/
def fetchStep (thumb : Bool) : Word := if thumb then 2#32 else 4#32

/-- The instruction and the state its effect starts from: cur set, the read made, the PC moved on through
`x[15] <-` (R230, R231). The record of accesses starts anew here (DESIGN CHOICE, safe: log 5). -/
def State.fetch (s : State) : Word × State :=
  let r := ((s.setCurrentPc s.pc).setAccesses []).memRead (fetchWidth s.cpsr.t) s.pc
  (r.1, (r.2.setPc (s.pc + fetchStep s.cpsr.t)).setCurrentInstruction r.1)

/-- The fetched word as an instruction of the state T selects (R51, R153, R170). -/
def decodeFetched (thumb : Bool) (w : Word) : Instr := if thumb then decodeThumb (w.setWidth 16) else decodeArm w

/-- The state with memory answering a fetch at `addr`, and where its bytes are: as the bus has it, or for a device a
range of plain memory laid over it (log 10). -/
def State.fetchable (s : State) (width : Width) (addr : Word) : State × Word :=
  match s.bus.readHome addr with
  | some home => (s, home)
  | none =>
    let code : Region := { first := addr, last := addr + BitVec.ofNat 32 (width.bytes - 1), kind := .memory addr }
    (s.setBus { s.bus with map := code :: s.bus.map }, addr)

/-- An instruction's word stored where the next step fetches, with T and `halted` such that it runs (DESIGN
CHOICE, unsafe: log 10). -/
def State.placeInstruction (s : State) (thumb : Bool) (w : Word) : State :=
  let width := fetchWidth thumb
  let r := s.fetchable width (align width s.pc)
  ((r.1.setHalted false).setCpsr (s.cpsr.setT thumb)).setMem (s.mem.store width r.2 w)

end Sys2Proof.Machine
end

