-- ==== Sys2Proof/Machine/Step.lean ====
section
/-! DEFINITION. One `step()` (40_core_primitives.md R230): nothing while halted, else the fetch and the instruction. -/

namespace Sys2Proof.Machine

/-- One step (R230). -/
def step (s : State) : Host.Outcome State Fault Refusal :=
  if s.halted then .next s else exec (decodeFetched s.cpsr.t s.fetch.1) s.fetch.2

/-- `s` with the instruction of a row of spec/opcode_table.json (`nbits` bits, `w`) where the next step fetches it
(log 10). -/
def State.withFetchWord (s : State) (nbits w : Nat) : State :=
  s.placeInstruction (nbits ≤ 16) (BitVec.ofNat 32 (w % 2 ^ nbits))

end Sys2Proof.Machine
end

