-- ==== Sys2Proof/Machine/Environment.lean ====
section
/-! DEFINITION. What the environment may do to the block, only between steps (20_memory.md R133): interrupt requests
(60_exceptions.md R711), `halted` and `stopped` (R730, R731), `reset()` (70_reset_and_hazards.md R800, R803), external
status access (10_state.md R50), DMA writes (20_memory.md R130, R131), changes of the platform behind the bus (R100). The
open parameters `IrqSchedule`, `HaltSchedule` and `DmaSchedule` (00_scope.md R8) are lists of such events (DESIGN CHOICE,
unsafe: log 3). -/

namespace Sys2Proof.Machine

/-- `reset()`: every register at its reset value, memory and the platform as the environment has them (R800, R803, R805;
log 14). -/
def State.resetBlock (s : State) : State := ((State.reset.setMem s.mem).setBus s.bus).setReads s.reads

/-- The external set of CPSR (R50). -/
def State.setExternalCpsr (s : State) (v : Psr) : State := s.setCpsr (mergeMode s.cpsr v)

/-- The external get of CPSR (R50). -/
def State.externalCpsr (s : State) : Psr := s.cpsr

/-- The external get of the current SPSR (R50, R42). -/
def State.externalSpsr (s : State) : Psr := s.currentSpsr

/-- The external set of the current SPSR (R50, R43). -/
def State.setExternalSpsr (s : State) (v : Psr) : State := s.setCurrentSpsr v

/-- One write of DMA (R130, R131); it is no access of the block, so it is not recorded. What DMA writes where is open
(D59), and R104 aligns the block's own writes only: that a DMA halfword or word write at an unaligned address goes to the
address aligned down, through the same map as the block's, is the model's (DESIGN CHOICE, unsafe: log 18). -/
def State.dmaWrite (s : State) (w : Width) (addr v : Word) : State :=
  s.setMem (s.bus.store s.mem w (align w addr) v)

/-- What happens between two moments of the outer loop. -/
inductive EnvEvent where
  /-- One call of `step()`. -/
  | step
  /-- One call of `trigger_irq()`. -/
  | irq
  | setHalted (b : Bool)
  | setStopped (b : Bool)
  | reset
  | setCpsr (v : Psr)
  | setSpsr (v : Psr)
  /-- One bus write of DMA in a tick in which the block is skipped. -/
  | dma (w : Width) (addr v : Word)
  /-- From here on the platform maps and answers as `b` says: a bank is switched, a device has new answers. -/
  | bus (b : Bus)
  deriving DecidableEq, Repr

/-- One event. -/
def envStep (e : EnvEvent) (s : State) : Result State :=
  match e with
  | .step => step s
  | .irq => .next s.triggerIrq
  | .setHalted b => .next (s.setHalted b)
  | .setStopped b => .next (s.setStopped b)
  | .reset => .next s.resetBlock
  | .setCpsr v => .next (s.setExternalCpsr v)
  | .setSpsr v => .next (s.setExternalSpsr v)
  | .dma w addr v => .next (s.dmaWrite w addr v)
  | .bus b => .next (s.setBus b)

/-- A schedule, run until it ends or a step is refused. -/
def runSchedule : List EnvEvent → State → Result State
  | [], s => .next s
  | e :: es, s =>
    match envStep e s with
    | .next s' => runSchedule es s'
    | .fault f => .fault f
    | .refused r => .refused r

/-- The count a `step()` returned, from the states before and after it (R230; DEDUCED, safe: log 6). -/
def returnedCount (before after : State) : Nat :=
  if before.halted then 1 else after.cycles - before.cycles

end Sys2Proof.Machine
end

