-- ==== Sys2Proof/Safety.lean ====
section
/-! DEFINITION. The terms claims use: which instructions are conditional, what an instruction leaves alone (its frame), the
invariant of the block and what a step may be refused for. -/

namespace Sys2Proof

/-- The condition of an ARM instruction (R151); a Thumb instruction has none (R500). -/
def Instr.cond? : Instr → Option Cond
  | .armB c _ => some c
  | .armBl c _ => some c
  | .armStm c _ _ => some c
  | .armLdm c _ _ => some c
  | .armStr c _ _ _ => some c
  | .armLdr c _ _ _ => some c
  | .armStrb c _ _ _ => some c
  | .armLdrb c _ _ _ => some c
  | .armMul c _ _ _ _ => some c
  | .armMla c _ _ _ _ _ => some c
  | .armUmull c _ _ _ _ _ => some c
  | .armUmlal c _ _ _ _ _ => some c
  | .armSmull c _ _ _ _ _ => some c
  | .armSmlal c _ _ _ _ _ => some c
  | .armSwp c _ _ _ => some c
  | .armSwpb c _ _ _ => some c
  | .armUndefMultiply c _ _ _ => some c
  | .armStrh c _ _ _ => some c
  | .armLdrh c _ _ _ => some c
  | .armLdrsb c _ _ _ => some c
  | .armLdrsh c _ _ _ => some c
  | .armUndefStoreSh10 c _ _ _ => some c
  | .armUndefStoreSh11 c _ _ _ => some c
  | .armBx c _ => some c
  | .armMrsCpsr c _ => some c
  | .armMrsSpsr c _ => some c
  | .armMsrCpsrReg c _ _ => some c
  | .armMsrSpsrReg c _ _ => some c
  | .armMsrCpsrImm c _ _ _ => some c
  | .armMsrSpsrImm c _ _ _ => some c
  | .armAnd c _ _ _ _ => some c
  | .armEor c _ _ _ _ => some c
  | .armSub c _ _ _ _ => some c
  | .armRsb c _ _ _ _ => some c
  | .armAdd c _ _ _ _ => some c
  | .armAdc c _ _ _ _ => some c
  | .armSbc c _ _ _ _ => some c
  | .armRsc c _ _ _ _ => some c
  | .armTst c _ _ => some c
  | .armTeq c _ _ => some c
  | .armCmp c _ _ => some c
  | .armCmn c _ _ => some c
  | .armOrr c _ _ _ _ => some c
  | .armMov c _ _ _ => some c
  | .armBic c _ _ _ _ => some c
  | .armMvn c _ _ _ => some c
  | .armUndefClass110 c _ => some c
  | .armSwi c _ => some c
  | .thumbLslImm .. | .thumbLsrImm .. | .thumbAsrImm .. | .thumbAddReg .. | .thumbSubReg .. | .thumbAddImm3 .. |
    .thumbSubImm3 .. | .thumbMovImm8 .. | .thumbCmpImm8 .. | .thumbAddImm8 .. | .thumbSubImm8 .. | .thumbAnd .. |
    .thumbEor .. | .thumbLslReg .. | .thumbLsrReg .. | .thumbAsrReg .. | .thumbAdc .. | .thumbSbc .. |
    .thumbRorReg .. | .thumbTst .. | .thumbNeg .. | .thumbCmpReg .. | .thumbCmn .. | .thumbOrr .. | .thumbMul .. |
    .thumbBic .. | .thumbMvn .. | .thumbAddHi .. | .thumbCmpHi .. | .thumbMovHi .. | .thumbBx .. |
    .thumbLdrPc .. | .thumbStrReg .. | .thumbStrbReg .. | .thumbLdrReg .. | .thumbLdrbReg .. | .thumbStrhReg .. |
    .thumbLdsb .. | .thumbLdrhReg .. | .thumbLdsh .. | .thumbStrImm .. | .thumbLdrImm .. | .thumbStrbImm .. |
    .thumbLdrbImm .. | .thumbStrhImm .. | .thumbLdrhImm .. | .thumbStrSp .. | .thumbLdrSp .. | .thumbAddRdPc .. |
    .thumbAddRdSp .. | .thumbAddSpImm .. | .thumbSubSpImm .. | .thumbPush .. | .thumbPop .. | .thumbUndef1011 .. |
    .thumbStmia .. | .thumbLdmia .. | .thumbSwi .. | .thumbBCond .. | .thumbB .. | .thumbUndef11101 .. |
    .thumbBlFirst .. | .thumbBlSecond .. => none

/-- The four Thumb encodings the spec refuses: an empty register list (R586). -/
def Instr.emptyThumbList : Instr → Bool
  | .thumbPush lr list => !lr && list == 0#8
  | .thumbPop pc list => !pc && list == 0#8
  | .thumbStmia _ list => list == 0#8
  | .thumbLdmia _ list => list == 0#8
  | _ => false

end Sys2Proof

namespace Sys2Proof.Machine

/-! ## Invariants -/

/-- The mode field holds one of the seven mode values (R41). -/
def State.modeValid (s : State) : Bool := (Mode.ofBits? s.cpsr.m).isSome

/-- The PC is aligned as T asks (R37): its write mask leaves it alone. -/
def State.pcAligned (s : State) : Prop := maskPc s.cpsr.t s.pc = s.pc

/-- The invariant of the block after a step: a valid mode, an aligned PC, a memory in canonical form. -/
structure State.Inv (s : State) : Prop where
  mode : s.modeValid = true
  pc : s.pcAligned
  mem : s.mem.wf = true

/-- The invariant between events. The environment may set T from outside (R50) without touching the PC, so
here only bit 0 of the PC is known to be clear. -/
structure State.EventInv (s : State) : Prop where
  mode : s.modeValid = true
  pc : s.pc.getLsbD 0 = false
  mem : s.mem.wf = true

/-- What the fetch leaves of the PC (R230, R231): an instruction starts with the PC past it, masked. -/
def State.Fetched (s : State) : Prop := s.pc = maskPc s.cpsr.t (s.currentPc + fetchStep s.cpsr.t)

/-! ## Frames -/

/-- What is left alone by an instruction that may write the registers `regs` and the CPSR bits `bitsWritten`: every
other physical register of every bank (the PC among them, counted from after the fetch), every other bit of CPSR, every
SPSR, `halted`, `stopped`, the two fetch registers and what is behind the bus. -/
structure Frame (regs : List PhysReg) (bitsWritten : List Nat) (s t : State) : Prop where
  regs : ∀ p, p ∉ regs → t.readPhys p = s.readPhys p
  cpsr : ∀ k, k ∉ bitsWritten → t.cpsr.getLsbD k = s.cpsr.getLsbD k
  spsr : t.spsr = s.spsr
  halted : t.halted = s.halted
  stopped : t.stopped = s.stopped
  currentPc : t.currentPc = s.currentPc
  currentInstruction : t.currentInstruction = s.currentInstruction
  bus : t.bus = s.bus

/-- Every byte of memory reads as before. -/
def SameMemory (s t : State) : Prop := ∀ a, t.mem.read a = s.mem.read a

/-- Whether byte `a` of memory is one that a write of width `w` at `addr` leaves there: the bytes at the home of the
aligned address, none where the platform keeps no byte of it (R104, R109). -/
def touches (s : State) (w : Width) (addr : Word) (a : Nat) : Prop :=
  ∃ home, s.bus.writeHome (align w addr) = some home ∧ ∃ k, k < w.bytes ∧ a = (home + BitVec.ofNat 32 k).toNat

/-- Every byte outside the store of width `w` at `addr` reads as before, and the stored bytes, lowest address first,
are those of `v` (R102, R104). -/
structure Stored (w : Width) (addr v : Word) (s t : State) : Prop where
  inside : ∀ home, s.bus.writeHome (align w addr) = some home →
    ∀ k, k < w.bytes → t.mem.byteAt (home + BitVec.ofNat 32 k) = bits v (8 * k) 8
  outside : ∀ a, ¬ touches s w addr a → t.mem.read a = s.mem.read a

/-- The accesses `l` were put on the bus, in order, and the reads among them counted (R105; log 5, log 17). -/
def Accessed (l : List BusAccess) (s t : State) : Prop :=
  t.accesses = s.accesses ++ l ∧ t.reads = s.reads + l.countP fun a => a.kind == .read

/-- No access was put on the bus (R105). -/
def NoAccess (s t : State) : Prop := t.accesses = s.accesses ∧ t.reads = s.reads

/-- The flags of CPSR as booleans. -/
structure FlagsAre (t : State) (n z c v : Bool) : Prop where
  n : t.cpsr.n = n
  z : t.cpsr.z = z
  c : t.cpsr.c = c
  v : t.cpsr.v = v

end Sys2Proof.Machine
end

