-- ==== Sys2Proof/Certificates/Slice0/Obligations.lean ====
section
/-! DEFINITION. The statements for the provers. Each is `def Obligations.<Name> : Prop`; the definitions under
`Sys2Proof.Claims` name the instructions a statement ranges over and the value the spec gives each of them.
An instruction runs from the state after its fetch, so "the PC stays" means: it is where the fetch left it. `accesses`, the
record a clause about the bus reads, is the model's own form of R105 (log 5), as the platform behind the bus (`bus`, log 1)
and the number of reads it has seen (`reads`, log 17) are of R8 and R100: a statement holds for every platform. -/

namespace Sys2Proof.Claims

open Machine

/-! ## Shared terms -/

/-- The flags N, Z, C, V. -/
def nzcv : List Nat := [31, 30, 29, 28]

/-- Every bit of a status word. -/
def allBits : List Nat := List.range 32

/-- CPSR after `restore_cpsr_from_spsr` (R48, R49): the current mode's SPSR where it has one, with the old mode field
where the SPSR's is invalid. -/
def restored (s : State) : Psr :=
  match s.spsr.get? s.mode with
  | none => s.cpsr
  | some p => if (Mode.ofBits? p.m).isSome then p else pack (bits p 5 27 ++ bits s.cpsr 0 5)

/-- The word the bus gives at `addr`, aligned down (R103). -/
def wordAt (s : State) (addr : Word) : Word := s.busRead .word (align .word addr)

/-- The halfword the bus gives at `addr`, aligned down, zero-extended (R103). -/
def halfAt (s : State) (addr : Word) : Word := s.busRead .half (align .half addr)

/-- The byte the bus gives at `addr`, zero-extended (R103). -/
def zextByteAt (s : State) (addr : Word) : Word := s.busRead .byte addr

/-- The state as the bus sees it after `k` more reads: the platform's answers are numbered (log 17). -/
def later (s : State) (k : Nat) : State := s.setReads (s.reads + k)

/-- What LDR gives (R403, R560): the aligned word rotated right by 8 * (addr & 3). -/
def ldrValue (s : State) (addr : Word) : Word := (wordAt s addr).rotateRight (8 * (addr.toNat % 4))

/-- What LDRH gives (R411, R415). -/
def ldrhValue (s : State) (addr : Word) : Word :=
  if addr.toNat % 2 = 1 then (halfAt s addr).rotateRight 8 else halfAt s addr

/-- What LDRSB gives (R413). -/
def ldrsbValue (s : State) (addr : Word) : Word := (bits (zextByteAt s addr) 0 8).signExtend 32

/-- What LDRSH gives (R414, R415). -/
def ldrshValue (s : State) (addr : Word) : Word :=
  if addr.toNat % 2 = 1 then (bits (zextByteAt s addr) 0 8).signExtend 32 else (bits (halfAt s addr) 0 16).signExtend 32

/-- The access a read of width `w` at `addr` puts on the bus (R103). -/
def readOf (s : State) (w : Width) (addr : Word) : BusAccess :=
  ⟨.read, w, align w addr, s.busRead w (align w addr)⟩

/-- The access LDRSH puts on the bus: a byte at an odd address, else a halfword (R106, R415). -/
def ldrshRead (s : State) (addr : Word) : BusAccess :=
  if addr.toNat % 2 = 1 then readOf s .byte addr else readOf s .half addr

/-- The access a write of width `w` at `addr` puts on the bus (R104). -/
def writeOf (w : Width) (addr v : Word) : BusAccess :=
  ⟨.write, w, align w addr, v &&& (match w with | .byte => 0xFF#32 | .half => 0xFFFF#32 | .word => 0xFFFFFFFF#32)⟩

/-! ## ARM data processing -/

/-- The arithmetic opcodes that write Rd. -/
inductive ArithOp where
  | sub | rsb | add | adc | sbc | rsc
  deriving DecidableEq, Repr

def ArithOp.instr : ArithOp → Cond → Bool → RegNum → RegNum → Operand2 → Instr
  | .sub => .armSub | .rsb => .armRsb | .add => .armAdd | .adc => .armAdc | .sbc => .armSbc | .rsc => .armRsc

/-- The result, carry and overflow of R312 to R317, from `a` = Rn, `b` = operand 2 and the C flag. -/
def ArithOp.result : ArithOp → Word → Word → Bool → AluResult
  | .sub, a, b, _ => subWithBorrow a b true
  | .rsb, a, b, _ => subWithBorrow b a true
  | .add, a, b, _ => addWithCarry a b false
  | .adc, a, b, c => addWithCarry a b c
  | .sbc, a, b, c => subWithBorrow a b c
  | .rsc, a, b, c => subWithBorrow b a c

/-- The logical opcodes that write Rd. -/
inductive LogicOp where
  | and | eor | orr | mov | bic | mvn
  deriving DecidableEq, Repr

/-- MOV and MVN have no Rn. -/
def LogicOp.instr : LogicOp → Cond → Bool → RegNum → RegNum → Operand2 → Instr
  | .and, c, s, rn, rd, o => .armAnd c s rn rd o
  | .eor, c, s, rn, rd, o => .armEor c s rn rd o
  | .orr, c, s, rn, rd, o => .armOrr c s rn rd o
  | .mov, c, s, _, rd, o => .armMov c s rd o
  | .bic, c, s, rn, rd, o => .armBic c s rn rd o
  | .mvn, c, s, _, rd, o => .armMvn c s rd o

/-- The result of R310, R311, R322 to R325. -/
def LogicOp.result : LogicOp → Word → Word → Word
  | .and, a, b => a &&& b
  | .eor, a, b => a ^^^ b
  | .orr, a, b => a ||| b
  | .mov, _, b => b
  | .bic, a, b => a &&& ~~~b
  | .mvn, _, b => ~~~b

/-- The comparisons. -/
inductive CompareOp where
  | tst | teq | cmp | cmn
  deriving DecidableEq, Repr

def CompareOp.instr : CompareOp → Cond → RegNum → Operand2 → Instr
  | .tst => .armTst | .teq => .armTeq | .cmp => .armCmp | .cmn => .armCmn

/-- An opcode that may write R15, with its result from Rn, operand 2 and C. -/
inductive WritingOp where
  | arith (op : ArithOp)
  | logic (op : LogicOp)
  deriving DecidableEq, Repr

def WritingOp.instr : WritingOp → Cond → Bool → RegNum → RegNum → Operand2 → Instr
  | .arith op => op.instr
  | .logic op => op.instr

def WritingOp.value : WritingOp → Word → Word → Bool → Word
  | .arith op, a, b, c => (op.result a b c).value
  | .logic op, a, b, _ => op.result a b

/-! ## Transfers -/

/-- The write of a register: R15 is masked with T (R37). -/
def written (s : State) (i : RegNum) (v : Word) : Word := if i = 15#4 then maskPc s.cpsr.t v else v

/-- The registers an ARM transfer may write besides its data register: the base, where it is written back. -/
def baseRegs (s : State) (a : Addressing) : List PhysReg := if writesBack a then [route s.mode a.rn] else []

/-- `i` loads `value` with the bus accesses `reads`, writes the base back and counts `n` cycles, 5 with Rd = 15. -/
def LoadsTo (i : Instr) (s : State) (a : Addressing) (offset : Word) (rd : RegNum) (value : Word)
    (reads : List BusAccess) : Prop :=
  ∃ t, exec i s = .next t ∧
    t.readPhys (route s.mode rd) = written s rd value ∧
    (writesBack a = true → a.rn ≠ rd → t.readPhys (route s.mode a.rn) = offsetAddress s a offset) ∧
    Frame (route s.mode rd :: baseRegs s a) [] s t ∧
    SameMemory s t ∧ Accessed reads s t ∧
    t.cycles = s.cycles + (if rd = 15#4 then 5 else 3)

/-- `i` stores the low bits of `data` at `addr` and writes the base back; 2 cycles. -/
def StoresFrom (i : Instr) (s : State) (w : Width) (a : Addressing) (offset addr data : Word) : Prop :=
  ∃ t, exec i s = .next t ∧
    Stored w addr data s t ∧
    (writesBack a = true → t.readPhys (route s.mode a.rn) = offsetAddress s a offset) ∧
    Frame (baseRegs s a) [] s t ∧
    Accessed [writeOf w addr data] s t ∧
    t.cycles = s.cycles + 2

/-- A Thumb load of `value` into a low register; 3 cycles. -/
def ThumbLoads (i : Instr) (s : State) (rd : LowReg) (value : Word) (reads : List BusAccess) : Prop :=
  ∃ t, exec i s = .next t ∧
    t.readPhys (route s.mode (lowReg rd)) = value ∧
    Frame [route s.mode (lowReg rd)] [] s t ∧
    SameMemory s t ∧ Accessed reads s t ∧
    t.cycles = s.cycles + 3

/-- A Thumb store of a low register; 2 cycles. -/
def ThumbStores (i : Instr) (s : State) (w : Width) (addr : Word) (rd : LowReg) : Prop :=
  ∃ t, exec i s = .next t ∧
    Stored w addr (s.reg (lowReg rd)) s t ∧
    Frame [] [] s t ∧
    Accessed [writeOf w addr (s.reg (lowReg rd))] s t ∧
    t.cycles = s.cycles + 2

/-! ## Blocks of words -/

/-- The position of register `i` among the transferred registers: its word lies that many words above the first. -/
def slot (regs : List RegNum) (i : RegNum) : Nat := regs.idxOf i

/-- The address of the word of register `i` in a block that starts at `start`. -/
def slotAddress (regs : List RegNum) (start : Word) (i : RegNum) : Word := start + wordsSize (slot regs i)

/-- One word stored for each register, from `start` up, in order: its bytes are those of the value where no later word
of the block has the same home. Every other byte stays, and the bus sees one write each (R105, R420). -/
structure StoredBlock (regs : List RegNum) (start : Word) (value : RegNum → Word) (s t : State) : Prop where
  inside : ∀ i, i ∈ regs → ∀ home, s.bus.writeHome (align .word (slotAddress regs start i)) = some home →
    ∀ k, k < 4 →
      (∀ j, j ∈ regs → slot regs i < slot regs j →
        ¬ touches s .word (slotAddress regs start j) (home + BitVec.ofNat 32 k).toNat) →
      t.mem.byteAt (home + BitVec.ofNat 32 k) = bits (value i) (8 * k) 8
  outside : ∀ a, (∀ i, i ∈ regs → ¬ touches s .word (slotAddress regs start i) a) → t.mem.read a = s.mem.read a
  accessed : Accessed (regs.map fun i => writeOf .word (slotAddress regs start i) (value i)) s t

/-- The word read for register `i` of a block that starts at `start`: the reads are numbered in order. -/
def blockWordAt (s : State) (regs : List RegNum) (start : Word) (i : RegNum) : Word :=
  wordAt (later s (slot regs i)) (slotAddress regs start i)

/-- One word read for each register, from `start` up, in order; memory stays. -/
structure ReadBlock (regs : List RegNum) (start : Word) (s t : State) : Prop where
  memory : SameMemory s t
  accessed : Accessed (regs.map fun i => readOf (later s (slot regs i)) .word (slotAddress regs start i)) s t

/-- Where LDM puts register `i`: the User bank with S = 1 and R15 not loaded, else the current mode's (R424, R434). -/
def ldmTarget (s : State) (a : BlockAddressing) (list : BitVec 16) (i : RegNum) : PhysReg :=
  if a.sbit = true ∧ 15#4 ∉ blockRegs list then route .user i else route s.mode i

/-! ## Status -/

/-- The bytes of CPSR an MSR writes: those of the mask, in User mode the flags byte alone (R471, R473). -/
def cpsrByte (s : State) (mask : BitVec 4) (k : Nat) : Bool := mask.getLsbD k && (s.mode != .user || k == 3)

/-- An MSR to CPSR with operand `op` (R472): bits 31..8 by byte; I, F, T and a valid mode with the control byte. -/
def MsrCpsr (i : Instr) (mask : BitVec 4) (op : Psr) (s : State) : Prop :=
  ∃ t, exec i s = .next t ∧
    (∀ k, 8 ≤ k → k < 32 →
      t.cpsr.getLsbD k = if cpsrByte s mask (k / 8) then op.getLsbD k else s.cpsr.getLsbD k) ∧
    (∀ k, 5 ≤ k → k < 8 →
      t.cpsr.getLsbD k = if cpsrByte s mask 0 then op.getLsbD k else s.cpsr.getLsbD k) ∧
    t.cpsr.m = (if cpsrByte s mask 0 && (Mode.ofBits? op.m).isSome then op.m else s.cpsr.m) ∧
    Frame [] allBits s t ∧ SameMemory s t ∧ NoAccess s t ∧ t.cycles = s.cycles + 1

/-- An MSR to SPSR with operand `op` (R474): the selected bytes of the current mode's SPSR, no effect where it has none. -/
def MsrSpsr (i : Instr) (mask : BitVec 4) (op : Word) (s : State) : Prop :=
  ∃ t, exec i s = .next t ∧
    (∀ m, m ≠ s.mode → t.spsr.get? m = s.spsr.get? m) ∧
    (s.mode.hasSpsr = true → ∀ old, s.spsr.get? s.mode = some old →
      ∃ new, t.spsr.get? s.mode = some new ∧
        ∀ k, k < 32 → new.getLsbD k = if mask.getLsbD (k / 8) then op.getLsbD k else old.getLsbD k) ∧
    (s.mode.hasSpsr = false → t.spsr = s.spsr) ∧
    (∀ p, t.readPhys p = s.readPhys p) ∧ t.cpsr = s.cpsr ∧ t.halted = s.halted ∧ t.stopped = s.stopped ∧
    t.currentPc = s.currentPc ∧ t.currentInstruction = s.currentInstruction ∧ t.bus = s.bus ∧
    SameMemory s t ∧ NoAccess s t ∧ t.cycles = s.cycles + 1

/-! ## Exceptions -/

/-- What an exception entry into mode `m` at `vector` leaves (R706 to R708), from `s` to `t`, with `lr` in the new
mode's LR: SPSR, mode, I, T, F, LR and PC as said, every other register, CPSR bit and SPSR and memory as before. -/
structure Entered (vector : Word) (m : Mode) (lr : Word) (s t : State) : Prop where
  mode : t.cpsr.m = m.toBits
  irqMasked : t.cpsr.i = true
  armState : t.cpsr.t = false
  fiqMask : t.cpsr.f = (s.cpsr.f || (m == .fiq) || vector == 0#32)
  upper : ∀ k, 8 ≤ k → t.cpsr.getLsbD k = s.cpsr.getLsbD k
  saved : t.spsr.get? m = if m.hasSpsr then some s.cpsr else none
  others : ∀ n, n ≠ m → t.spsr.get? n = s.spsr.get? n
  lr : t.readPhys (.lr m.bankKey) = lr
  pc : t.pc = maskPc false vector
  regs : ∀ p, p ≠ .pc → p ≠ .lr m.bankKey → t.readPhys p = s.readPhys p
  memory : SameMemory s t
  accesses : NoAccess s t
  currentPc : t.currentPc = s.currentPc
  currentInstruction : t.currentInstruction = s.currentInstruction
  bus : t.bus = s.bus

/-! ## Thumb -/

/-- The operations of Thumb formats 2 to 4 that write a low register and set N, Z, C, V, with their destination,
operands and result. -/
inductive ThumbArith where
  | addReg (rn rs rd : LowReg) | subReg (rn rs rd : LowReg)
  | addImm3 (imm3 : BitVec 3) (rs rd : LowReg) | subImm3 (imm3 : BitVec 3) (rs rd : LowReg)
  | addImm8 (rd : LowReg) (imm8 : BitVec 8) | subImm8 (rd : LowReg) (imm8 : BitVec 8)
  | adc (rs rd : LowReg) | sbc (rs rd : LowReg) | neg (rs rd : LowReg)
  deriving DecidableEq, Repr

def ThumbArith.instr : ThumbArith → Instr
  | .addReg rn rs rd => .thumbAddReg rn rs rd
  | .subReg rn rs rd => .thumbSubReg rn rs rd
  | .addImm3 imm3 rs rd => .thumbAddImm3 imm3 rs rd
  | .subImm3 imm3 rs rd => .thumbSubImm3 imm3 rs rd
  | .addImm8 rd imm8 => .thumbAddImm8 rd imm8
  | .subImm8 rd imm8 => .thumbSubImm8 rd imm8
  | .adc rs rd => .thumbAdc rs rd
  | .sbc rs rd => .thumbSbc rs rd
  | .neg rs rd => .thumbNeg rs rd

def ThumbArith.rd : ThumbArith → LowReg
  | .addReg _ _ rd | .subReg _ _ rd | .addImm3 _ _ rd | .subImm3 _ _ rd | .addImm8 rd _ | .subImm8 rd _ |
    .adc _ rd | .sbc _ rd | .neg _ rd => rd

/-- The result of R504 to R507, R510, R511, R517, R518, R521; `x` reads a low register, `c` is the C flag. -/
def ThumbArith.result (x : LowReg → Word) (c : Bool) : ThumbArith → AluResult
  | .addReg rn rs _ => addWithCarry (x rs) (x rn) false
  | .subReg rn rs _ => subWithBorrow (x rs) (x rn) true
  | .addImm3 imm3 rs _ => addWithCarry (x rs) (imm3.setWidth 32) false
  | .subImm3 imm3 rs _ => subWithBorrow (x rs) (imm3.setWidth 32) true
  | .addImm8 rd imm8 => addWithCarry (x rd) (imm8.setWidth 32) false
  | .subImm8 rd imm8 => subWithBorrow (x rd) (imm8.setWidth 32) true
  | .adc rs rd => addWithCarry (x rd) (x rs) c
  | .sbc rs rd => subWithBorrow (x rd) (x rs) c
  | .neg rs _ => subWithBorrow 0#32 (x rs) true

/-- The Thumb operations that write a low register and set N and Z only. -/
inductive ThumbLogic where
  | movImm8 (rd : LowReg) (imm8 : BitVec 8)
  | and (rs rd : LowReg) | eor (rs rd : LowReg) | orr (rs rd : LowReg) | mul (rs rd : LowReg)
  | bic (rs rd : LowReg) | mvn (rs rd : LowReg)
  deriving DecidableEq, Repr

def ThumbLogic.instr : ThumbLogic → Instr
  | .movImm8 rd imm8 => .thumbMovImm8 rd imm8
  | .and rs rd => .thumbAnd rs rd
  | .eor rs rd => .thumbEor rs rd
  | .orr rs rd => .thumbOrr rs rd
  | .mul rs rd => .thumbMul rs rd
  | .bic rs rd => .thumbBic rs rd
  | .mvn rs rd => .thumbMvn rs rd

def ThumbLogic.rd : ThumbLogic → LowReg
  | .movImm8 rd _ | .and _ rd | .eor _ rd | .orr _ rd | .mul _ rd | .bic _ rd | .mvn _ rd => rd

/-- The result of R508, R512, R513, R524 to R527. -/
def ThumbLogic.result (x : LowReg → Word) : ThumbLogic → Word
  | .movImm8 _ imm8 => imm8.setWidth 32
  | .and rs rd => x rd &&& x rs
  | .eor rs rd => x rd ^^^ x rs
  | .orr rs rd => x rd ||| x rs
  | .mul rs rd => x rd * x rs
  | .bic rs rd => x rd &&& ~~~(x rs)
  | .mvn rs _ => ~~~(x rs)

/-- 2 cycles for MUL, else 1 (R528). -/
def ThumbLogic.cycles : ThumbLogic → Nat
  | .mul .. => 2
  | .movImm8 .. | .and .. | .eor .. | .orr .. | .bic .. | .mvn .. => 1

/-- The shifts of Thumb formats 1 and 4. -/
inductive ThumbShiftOp where
  | lslImm (offset5 : BitVec 5) (rs rd : LowReg)
  | lsrImm (offset5 : BitVec 5) (rs rd : LowReg)
  | asrImm (offset5 : BitVec 5) (rs rd : LowReg)
  | lslReg (rs rd : LowReg) | lsrReg (rs rd : LowReg) | asrReg (rs rd : LowReg) | rorReg (rs rd : LowReg)
  deriving DecidableEq, Repr

def ThumbShiftOp.instr : ThumbShiftOp → Instr
  | .lslImm n rs rd => .thumbLslImm n rs rd
  | .lsrImm n rs rd => .thumbLsrImm n rs rd
  | .asrImm n rs rd => .thumbAsrImm n rs rd
  | .lslReg rs rd => .thumbLslReg rs rd
  | .lsrReg rs rd => .thumbLsrReg rs rd
  | .asrReg rs rd => .thumbAsrReg rs rd
  | .rorReg rs rd => .thumbRorReg rs rd

def ThumbShiftOp.rd : ThumbShiftOp → LowReg
  | .lslImm _ _ rd | .lsrImm _ _ rd | .asrImm _ _ rd | .lslReg _ rd | .lsrReg _ rd | .asrReg _ rd | .rorReg _ rd => rd

/-- The shifter's result of R501 to R503 (immediate) and R514 to R516, R519 (low byte of Rs). -/
def ThumbShiftOp.result (x : LowReg → Word) (c : Bool) : ThumbShiftOp → ShiftResult
  | .lslImm n rs _ => lslC (x rs) n.toNat c true
  | .lsrImm n rs _ => lsrC (x rs) n.toNat c true
  | .asrImm n rs _ => asrC (x rs) n.toNat c true
  | .lslReg rs rd => lslC (x rd) (bits (x rs) 0 8).toNat c false
  | .lsrReg rs rd => lsrC (x rd) (bits (x rs) 0 8).toNat c false
  | .asrReg rs rd => asrC (x rd) (bits (x rs) 0 8).toNat c false
  | .rorReg rs rd => rorC (x rd) (bits (x rs) 0 8).toNat c false

/-- 1 cycle in format 1, 2 in format 4 (R500, R528). -/
def ThumbShiftOp.cycles : ThumbShiftOp → Nat
  | .lslImm .. | .lsrImm .. | .asrImm .. => 1
  | .lslReg .. | .lsrReg .. | .asrReg .. | .rorReg .. => 2

/-- The C and V a Thumb comparison leaves (R509, R520, R522, R523, R531), and its result. -/
inductive ThumbCompareOp where
  | cmpImm8 (rd : LowReg) (imm8 : BitVec 8)
  | tst (rs rd : LowReg) | cmp (rs rd : LowReg) | cmn (rs rd : LowReg)
  | cmpHi (rs rd : RegNum)
  deriving DecidableEq, Repr

def ThumbCompareOp.instr : ThumbCompareOp → Instr
  | .cmpImm8 rd imm8 => .thumbCmpImm8 rd imm8
  | .tst rs rd => .thumbTst rs rd
  | .cmp rs rd => .thumbCmpReg rs rd
  | .cmn rs rd => .thumbCmn rs rd
  | .cmpHi rs rd => .thumbCmpHi rs rd

/-- The result with the carry and overflow it sets; TST keeps C and V. -/
def ThumbCompareOp.result (s : State) : ThumbCompareOp → AluResult
  | .cmpImm8 rd imm8 => subWithBorrow (s.reg (lowReg rd)) (imm8.setWidth 32) true
  | .tst rs rd => ⟨s.reg (lowReg rd) &&& s.reg (lowReg rs), s.cpsr.c, s.cpsr.v⟩
  | .cmp rs rd => subWithBorrow (s.reg (lowReg rd)) (s.reg (lowReg rs)) true
  | .cmn rs rd => addWithCarry (s.reg (lowReg rd)) (s.reg (lowReg rs)) false
  | .cmpHi rs rd => subWithBorrow (s.thumbOp rd) (s.thumbOp rs) true

/-! ## Bus accesses -/

/-- The width of a data access and its kind. -/
abbrev Access := BusKind × Width

/-- The data accesses R106 gives an instruction that runs, in order; the register lists and an odd LDRSH address
decide the count and width. -/
def dataAccesses (s : State) : Instr → List Access
  | .armLdr .. | .thumbLdrPc .. | .thumbLdrReg .. | .thumbLdrImm .. | .thumbLdrSp .. => [(.read, .word)]
  | .armLdrb .. | .armLdrsb .. | .thumbLdrbReg .. | .thumbLdrbImm .. | .thumbLdsb .. => [(.read, .byte)]
  | .armLdrh .. | .thumbLdrhReg .. | .thumbLdrhImm .. => [(.read, .half)]
  | .armLdrsh _ a o _ =>
    [(.read, if (transferAddress s a (halfOffset s o)).getLsbD 0 then .byte else .half)]
  | .thumbLdsh ro rb _ => [(.read, if (s.reg (lowReg rb) + s.reg (lowReg ro)).getLsbD 0 then .byte else .half)]
  | .armStr .. | .thumbStrReg .. | .thumbStrImm .. | .thumbStrSp .. => [(.write, .word)]
  | .armStrb .. | .thumbStrbReg .. | .thumbStrbImm .. => [(.write, .byte)]
  | .armStrh .. | .thumbStrhReg .. | .thumbStrhImm .. => [(.write, .half)]
  | .armLdm _ _ list => (blockRegs list).map fun _ => (.read, .word)
  | .armStm _ _ list => (blockRegs list).map fun _ => (.write, .word)
  | .thumbPop pc list => List.replicate (stackCount pc list) (.read, .word)
  | .thumbLdmia _ list => List.replicate (listCount list) (.read, .word)
  | .thumbPush lr list => List.replicate (stackCount lr list) (.write, .word)
  | .thumbStmia _ list => List.replicate (listCount list) (.write, .word)
  | .armSwp .. => [(.read, .word), (.write, .word)]
  | .armSwpb .. => [(.read, .byte), (.write, .byte)]
  | _ => []

end Sys2Proof.Claims

open Sys2Proof Sys2Proof.Machine Sys2Proof.Claims

/-! ## Reset, fetch and decode -/

/-- The values after reset (R58), and `reset()`, which gives them from any state and leaves memory and the platform alone
(R800, R803, R805). That it empties the record of accesses and keeps the count of reads, both the model's own fields, is
the model's choice (log 5, log 14, log 17). -/
def Obligations.ResetLeavesTheListedValues : Prop :=
  (∀ p, State.reset.readPhys p =
      if p = .sp .user then 0x03007F00#32 else if p = .sp .irq then 0x03007FA0#32
      else if p = .sp .supervisor then 0x03007FE0#32 else if p = .pc then 0x08000000#32 else 0#32) ∧
    State.reset.cpsr = 0x000000DF#32 ∧
    (∀ m : Mode, m.hasSpsr = true → State.reset.spsr.get? m = some 0#32) ∧
    State.reset.halted = false ∧ State.reset.stopped = false ∧ State.reset.cycles = 0 ∧
    State.reset.currentPc = 0#32 ∧ State.reset.currentInstruction = 0#32 ∧
    ∀ s : State, s.resetBlock.mem = s.mem ∧ s.resetBlock.bus = s.bus ∧ s.resetBlock.reads = s.reads ∧
      ((s.resetBlock.setMem State.reset.mem).setBus State.reset.bus).setReads State.reset.reads = State.reset

/-- The reset state, and reset with any canonical memory, meets the invariant a step keeps; the canonical
form is the model's (log 2). -/
def Obligations.InvariantHoldsAtReset : Prop :=
  ∀ m : Memory, m.wf = true → (State.reset.setMem m).Inv

/-- While halted a step changes nothing, `cycles` included, and returns 1 (R230, R730). A step that is not halted runs
the instruction it fetches: cur, the advanced PC, the fetched word and the one read
of the fetch are as R230 and R231 say, and exec runs the decoded instruction from there; the record of accesses and the
count as a difference are the model's (log 5, log 6). -/
def Obligations.StepRunsTheDecodedInstruction : Prop :=
  (∀ s : State, s.halted = true → step s = .next s ∧ returnedCount s s = 1) ∧
  ∀ (s : State) (w : Word) (i : Instr), s.halted = false →
    (s.cpsr.t = false → w = wordAt s s.pc → decode (.arm w) = i → ∃ f, step s = exec i f ∧
      f.currentPc = s.pc ∧ f.pc = maskPc false (s.pc + 4) ∧ f.currentInstruction = w ∧
      f.accesses = [readOf s .word s.pc] ∧ f.cycles = s.cycles ∧ f.mem = s.mem ∧ f.cpsr = s.cpsr ∧
      f.spsr = s.spsr ∧ f.halted = s.halted ∧ f.stopped = s.stopped ∧ f.bus = s.bus ∧ f.reads = s.reads + 1 ∧
      ∀ p, p ≠ .pc → f.readPhys p = s.readPhys p) ∧
    (s.cpsr.t = true → w = halfAt s s.pc → decode (.thumb (w.setWidth 16)) = i → ∃ f, step s = exec i f ∧
      f.currentPc = s.pc ∧ f.pc = maskPc true (s.pc + 2) ∧ f.currentInstruction = w ∧
      f.accesses = [readOf s .half s.pc] ∧ f.cycles = s.cycles ∧ f.mem = s.mem ∧ f.cpsr = s.cpsr ∧
      f.spsr = s.spsr ∧ f.halted = s.halted ∧ f.stopped = s.stopped ∧ f.bus = s.bus ∧ f.reads = s.reads + 1 ∧
      ∀ p, p ≠ .pc → f.readPhys p = s.readPhys p)

/-- A few words written out from the layouts of R154 to R164 and R171. That the comment of an ARM SWI is 25 bits, bit 24
included where R164 gives bits 23..0, is the model's choice (log 15). -/
def Obligations.WrittenOutWordsDecode : Prop :=
  decodeArm 0b1110_00_1_1101_0_0000_0001_0000_00000001#32 = .armMov .al false 1#4 (.imm 0#4 1#8) ∧
    decodeArm 0b1110_00_0_0100_1_0000_0010_00000_00_0_0001#32 =
      .armAdd .al true 0#4 2#4 (.shiftImm 0#5 .lsl 1#4) ∧
    decodeArm 0b1110_101_1_000000000000000000111110#32 = .armBl .al 0x3E#24 ∧
    decodeArm 0b1110_010_1_1_0_0_1_0001_0000_000000000000#32 =
      .armLdr .al { pre := true, up := true, wback := false, rn := 1#4 } (.imm12 0#12) 0#4 ∧
    decodeArm 0b1110_100_0_1_0_1_1_1101_1000000000000011#32 =
      .armLdm .al { pre := false, up := true, sbit := false, wback := true, rn := 13#4 } 0x8003#16 ∧
    decodeArm 0b1110_00001_0_0_0_0001_0000_0011_1001_0010#32 = .armUmull .al false 1#4 0#4 3#4 2#4 ∧
    decodeArm 0b1110_1111_000000000000000000000001#32 = .armSwi .al 0x1000001#25 ∧
    decodeThumb 0b000_00_00100_001_000#16 = .thumbLslImm 4#5 1#3 0#3 ∧
    decodeThumb 0b1011_0_10_1_00000011#16 = .thumbPush true 0b00000011#8 ∧
    decodeThumb 0b1101_0001_11111110#16 = .thumbBCond .ne 0xFE#8 ∧
    decodeThumb 0b11101_00000000000#16 = .thumbUndef11101 0#11

/-! ## Registers and status -/

/-- The storage each register number reaches in each mode (R36). -/
def Obligations.RegisterReadsReachTheBankOfTheMode : Prop :=
  ∀ (s : State) (i : RegNum),
    (∀ h : i.toNat < 8, s.reg i = s.common[i.toNat]) ∧
    (∀ h : 8 ≤ i.toNat ∧ i.toNat ≤ 12,
      s.reg i = if s.mode = .fiq then s.r8to12Fiq[i.toNat - 8] else s.r8to12Usr[i.toNat - 8]) ∧
    s.reg 13#4 = s.r13.get s.mode.bankKey ∧ s.reg 14#4 = s.r14.get s.mode.bankKey ∧ s.reg 15#4 = s.pc

/-- A register write reaches the one register its number reads, and no other register of any bank; a write of R15 is
masked with T (R37). -/
def Obligations.RegisterWriteReachesOneRegister : Prop :=
  ∀ (s : State) (i : RegNum) (v : Word),
    (s.setReg i v).reg i = (if i = 15#4 then (if s.cpsr.t then v &&& 0xFFFFFFFE#32 else v &&& 0xFFFFFFFC#32) else v) ∧
    Frame [route s.mode i] [] s (s.setReg i v) ∧ SameMemory s (s.setReg i v) ∧ NoAccess s (s.setReg i v) ∧
    (s.setReg i v).cycles = s.cycles

/-- The banked-register law (R59): a write in one mode, a switch, a read in the other. -/
def Obligations.BankedRegisterLaw : Prop :=
  ∀ (s : State) (m : Mode) (i : RegNum) (v : Word),
    let different := (i = 13#4 ∨ i = 14#4) ∧ s.mode.bankKey ≠ m.bankKey ∨
      (8 ≤ i.toNat ∧ i.toNat ≤ 12) ∧ ¬ (s.mode = .fiq ↔ m = .fiq)
    let switched := (s.setReg i v).switchMode m.toBits false
    switched.mode = m ∧
      (different → switched.reg i = (s.switchMode m.toBits false).reg i) ∧
      (¬ different → switched.reg i = written s i v)

/-- What an external write of CPSR leaves, read back; the mode field after a `switch_mode`, which ignores an invalid
target (R60). -/
def Obligations.ExternalCpsrRoundTrip : Prop :=
  ∀ (s : State) (v : Psr),
    ((Mode.ofBits? v.m).isSome = true → (s.setExternalCpsr v).externalCpsr = v) ∧
    ((Mode.ofBits? v.m).isSome = false →
      (s.setExternalCpsr v).externalCpsr.m = s.cpsr.m ∧
        ∀ k, 5 ≤ k → (s.setExternalCpsr v).externalCpsr.getLsbD k = v.getLsbD k) ∧
    (∀ p, (s.setExternalCpsr v).readPhys p = s.readPhys p) ∧ (s.setExternalCpsr v).spsr = s.spsr ∧
    ∀ (target : BitVec 5) (save : Bool),
      (s.switchMode target save).cpsr.m = (if (Mode.ofBits? target).isSome then target else s.cpsr.m) ∧
      ((Mode.ofBits? target).isSome = false → s.switchMode target save = s)

/-- The condition table (R152) on bits 31, 30, 29, 28 of CPSR. -/
def Obligations.ConditionTable : Prop :=
  ∀ p : Psr, let n := p.getLsbD 31 = true; let z := p.getLsbD 30 = true
    let c := p.getLsbD 29 = true; let v := p.getLsbD 28 = true
    (condPassed p .eq = true ↔ z) ∧ (condPassed p .ne = true ↔ ¬ z) ∧
    (condPassed p .cs = true ↔ c) ∧ (condPassed p .cc = true ↔ ¬ c) ∧
    (condPassed p .mi = true ↔ n) ∧ (condPassed p .pl = true ↔ ¬ n) ∧
    (condPassed p .vs = true ↔ v) ∧ (condPassed p .vc = true ↔ ¬ v) ∧
    (condPassed p .hi = true ↔ c ∧ ¬ z) ∧ (condPassed p .ls = true ↔ ¬ c ∨ z) ∧
    (condPassed p .ge = true ↔ (n ↔ v)) ∧ (condPassed p .lt = true ↔ ¬ (n ↔ v)) ∧
    (condPassed p .gt = true ↔ ¬ z ∧ (n ↔ v)) ∧ (condPassed p .le = true ↔ z ∨ ¬ (n ↔ v)) ∧
    condPassed p .al = true ∧ condPassed p .nv = true

/-- An ARM instruction whose condition fails changes `cycles` alone, by 1 (R230, R105). -/
def Obligations.FailedConditionOnlyCountsOneCycle : Prop :=
  ∀ (i : Instr) (c : Cond) (s : State), i.cond? = some c → condPassed s.cpsr c = false →
    exec i s = .next { s with cycles := s.cycles + 1 }

/-! ## Shifter and ALU -/

/-- The shifter laws (R245). -/
def Obligations.ShifterLaws : Prop :=
  ∀ (v : Word) (c imm : Bool),
    lslC v 0 c imm = ⟨v, c⟩ ∧
    lsrC v 0 c true = lsrC v 32 c false ∧ asrC v 0 c true = asrC v 32 c false ∧
    rorC v 0 c true = ⟨pack (BitVec.ofBool c ++ bits v 1 31), v.getLsbD 0⟩ ∧
    lsrC v 0 c false = ⟨v, c⟩ ∧ asrC v 0 c false = ⟨v, c⟩ ∧ rorC v 0 c false = ⟨v, c⟩ ∧
    (∀ n, 32 < n → lslC v n c imm = ⟨0#32, false⟩ ∧ lsrC v n c imm = ⟨0#32, false⟩) ∧
    (∀ k, 0 < k → rorC v (32 * k) c false = ⟨v, v.getLsbD 31⟩)

/-- What each shift does to the bits, for the amounts 1 to 31 (R240 to R243). -/
def Obligations.ShiftsMoveBits : Prop :=
  ∀ (v : Word) (n : Nat) (c imm : Bool), 1 ≤ n → n ≤ 31 →
    (∀ k, k < 32 → (lslC v n c imm).value.getLsbD k = (decide (n ≤ k) && v.getLsbD (k - n))) ∧
    (∀ k, k < 32 → (lsrC v n c imm).value.getLsbD k = (decide (k + n < 32) && v.getLsbD (k + n))) ∧
    (∀ k, k < 32 → (asrC v n c imm).value.getLsbD k = if k + n < 32 then v.getLsbD (k + n) else v.getLsbD 31) ∧
    (∀ k, k < 32 → (rorC v n c imm).value.getLsbD k = v.getLsbD ((k + n) % 32)) ∧
    (lslC v n c imm).carry = v.getLsbD (32 - n) ∧ (lsrC v n c imm).carry = v.getLsbD (n - 1) ∧
    (asrC v n c imm).carry = v.getLsbD (n - 1) ∧ (rorC v n c imm).carry = v.getLsbD (n - 1)

/-- The ALU laws (R249): subtraction as addition of the complement, the identities, and C and V as facts about the
exact unsigned and signed operations. -/
def Obligations.AluLaws : Prop :=
  ∀ (a b : Word) (cin : Bool),
    subWithBorrow a b cin = addWithCarry a (~~~b) cin ∧
    subWithBorrow a 0#32 true = ⟨a, true, false⟩ ∧ addWithCarry a 0#32 false = ⟨a, false, false⟩ ∧
    (addWithCarry a b cin).value.toNat = (a.toNat + b.toNat + cin.toNat) % 2 ^ 32 ∧
    ((addWithCarry a b cin).carry = true ↔ a.toNat + b.toNat + cin.toNat > 2 ^ 32 - 1) ∧
    ((addWithCarry a b cin).overflow = true ↔
      a.toInt + b.toInt + cin.toNat < -2 ^ 31 ∨ a.toInt + b.toInt + cin.toNat > 2 ^ 31 - 1) ∧
    ((subWithBorrow a b cin).value.toNat : Int) = ((a.toNat : Int) - b.toNat - (1 - cin.toNat)) % 2 ^ 32 ∧
    ((subWithBorrow a b cin).carry = true ↔ (a.toNat : Int) - b.toNat - (1 - cin.toNat) ≥ 0) ∧
    ((subWithBorrow a b cin).overflow = true ↔
      a.toInt - b.toInt - (1 - cin.toNat) < -2 ^ 31 ∨ a.toInt - b.toInt - (1 - cin.toNat) > 2 ^ 31 - 1)

/-- The operand forms: operand 2 (R301 to R303) with the values R15 reads as there (R234 to R236), and the addresses of
single and halfword transfers (R400, R401, R410): base cur + 8 for R15, the offset added or subtracted, applied before or
after the access, written back when post-indexed or W, never to R15. -/
def Obligations.OperandForms : Prop :=
  ∀ (s : State) (rot4 : BitVec 4) (imm8 : BitVec 8) (imm12 : BitVec 12) (amount : BitVec 5) (type : ShiftType)
    (rs rm : RegNum) (a : Addressing) (offset : Word),
    let x (i : RegNum) : Word := if i = 15#4 then s.currentPc + 8 else s.reg i
    let base := x a.rn
    (operand2 s (.imm rot4 imm8)).value = (imm8.setWidth 32).rotateRight (2 * rot4.toNat) ∧
    (operand2 s (.imm rot4 imm8)).carry =
      (if rot4 = 0#4 then s.cpsr.c else (operand2 s (.imm rot4 imm8)).value.msb) ∧
    operand2 s (.shiftImm amount type rm) = shift type (x rm) amount.toNat s.cpsr.c true ∧
    operand2 s (.shiftReg rs type rm) =
      shift type (if rm = 15#4 then s.currentPc + 12 else s.reg rm) ((x rs).toNat % 256) s.cpsr.c false ∧
    wordOffset s (.imm12 imm12) = BitVec.ofNat 32 imm12.toNat ∧
    wordOffset s (.shifted amount type rm) = (shift type (x rm) amount.toNat s.cpsr.c true).value ∧
    halfOffset s (.imm8 imm8) = BitVec.ofNat 32 imm8.toNat ∧
    halfOffset s (.reg rm) = x rm ∧
    offsetAddress s a offset = (if a.up then base + offset else base - offset) ∧
    transferAddress s a offset = (if a.pre then offsetAddress s a offset else base) ∧
    (writesBack a = true ↔ (a.pre = false ∨ a.wback = true) ∧ a.rn ≠ 15#4)

/-! ## ARM data processing -/

/-- SUB, RSB, ADD, ADC, SBC, RSC with Rd other than R15: the result, the flags with S, the frame, 1 cycle. -/
def Obligations.ArithmeticDataProcessing : Prop :=
  ∀ (op : ArithOp) (c : Cond) (sf : Bool) (rn rd : RegNum) (o : Operand2) (s : State),
    condPassed s.cpsr c = true → rd ≠ 15#4 →
    let r := op.result (s.armOp rn) (operand2 s o).value s.cpsr.c
    ∃ t, exec (op.instr c sf rn rd o) s = .next t ∧
      t.readPhys (route s.mode rd) = r.value ∧
      (sf = true → FlagsAre t r.value.msb (r.value == 0#32) r.carry r.overflow) ∧
      Frame [route s.mode rd] (if sf then nzcv else []) s t ∧
      SameMemory s t ∧ NoAccess s t ∧ t.cycles = s.cycles + 1

/-- AND, EOR, ORR, MOV, BIC, MVN with Rd other than R15: V is kept, C is the shifter's. -/
def Obligations.LogicalDataProcessing : Prop :=
  ∀ (op : LogicOp) (c : Cond) (sf : Bool) (rn rd : RegNum) (o : Operand2) (s : State),
    condPassed s.cpsr c = true → rd ≠ 15#4 →
    let v := op.result (s.armOp rn) (operand2 s o).value
    ∃ t, exec (op.instr c sf rn rd o) s = .next t ∧
      t.readPhys (route s.mode rd) = v ∧
      (sf = true → FlagsAre t v.msb (v == 0#32) (operand2 s o).carry s.cpsr.v) ∧
      Frame [route s.mode rd] (if sf then nzcv else []) s t ∧
      SameMemory s t ∧ NoAccess s t ∧ t.cycles = s.cycles + 1

/-- TST, TEQ, CMP, CMN: the flags alone, 1 cycle. -/
def Obligations.ComparisonsSetFlagsAlone : Prop :=
  ∀ (op : CompareOp) (c : Cond) (rn : RegNum) (o : Operand2) (s : State), condPassed s.cpsr c = true →
    let a := s.armOp rn
    let b := operand2 s o
    ∃ t, exec (op.instr c rn o) s = .next t ∧
      (match op with
        | .tst => FlagsAre t (a &&& b.value).msb ((a &&& b.value) == 0#32) b.carry s.cpsr.v
        | .teq => FlagsAre t (a ^^^ b.value).msb ((a ^^^ b.value) == 0#32) b.carry s.cpsr.v
        | .cmp =>
          let r := subWithBorrow a b.value true
          FlagsAre t r.value.msb (r.value == 0#32) r.carry r.overflow
        | .cmn =>
          let r := addWithCarry a b.value false
          FlagsAre t r.value.msb (r.value == 0#32) r.carry r.overflow) ∧
      Frame [] nzcv s t ∧ SameMemory s t ∧ NoAccess s t ∧ t.cycles = s.cycles + 1

/-- A data-processing write of R15, the return from an exception with S = 1 (R304, R720): CPSR is restored first, the PC
is masked for the restored T, no flag comes from the result, 3 cycles. -/
def Obligations.DataProcessingWritesThePc : Prop :=
  ∀ (op : WritingOp) (c : Cond) (sf : Bool) (rn : RegNum) (o : Operand2) (s : State), condPassed s.cpsr c = true →
    ∃ t, exec (op.instr c sf rn 15#4 o) s = .next t ∧
      t.cpsr = (if sf then restored s else s.cpsr) ∧
      t.pc = maskPc t.cpsr.t (op.value (s.armOp rn) (operand2 s o).value s.cpsr.c) ∧
      Frame [.pc] (if sf then allBits else []) s t ∧
      SameMemory s t ∧ NoAccess s t ∧ t.cycles = s.cycles + 3

/-! ## Multiplies -/

/-- MUL and MLA: the low 32 bits of the product (and sum); N and Z with S, C and V kept; 2 cycles. -/
def Obligations.MultiplyAndAccumulate : Prop :=
  ∀ (c : Cond) (sf : Bool) (rd rn rs rm : RegNum) (s : State), condPassed s.cpsr c = true →
    (let v : Word := BitVec.ofNat 32 ((s.armOp rm).toNat * (s.armOp rs).toNat)
      ∃ t, exec (.armMul c sf rd rs rm) s = .next t ∧ t.readPhys (route s.mode rd) = written s rd v ∧
        (sf = true → FlagsAre t v.msb (v == 0#32) s.cpsr.c s.cpsr.v) ∧
        Frame [route s.mode rd] (if sf then [31, 30] else []) s t ∧
        SameMemory s t ∧ NoAccess s t ∧ t.cycles = s.cycles + 2) ∧
    (let v : Word := BitVec.ofNat 32 ((s.armOp rm).toNat * (s.armOp rs).toNat + (s.armOp rn).toNat)
      ∃ t, exec (.armMla c sf rd rn rs rm) s = .next t ∧ t.readPhys (route s.mode rd) = written s rd v ∧
        (sf = true → FlagsAre t v.msb (v == 0#32) s.cpsr.c s.cpsr.v) ∧
        Frame [route s.mode rd] (if sf then [31, 30] else []) s t ∧
        SameMemory s t ∧ NoAccess s t ∧ t.cycles = s.cycles + 2)

/-- UMULL, UMLAL, SMULL, SMLAL: the 64-bit product (and sum), the high word written last, N and Z of all 64 bits with S;
3 cycles. -/
def Obligations.LongMultiplies : Prop :=
  ∀ (c : Cond) (sf : Bool) (rdHi rdLo rs rm : RegNum) (s : State), condPassed s.cpsr c = true →
    let result (i : Instr) (v : BitVec 64) : Prop :=
      ∃ t, exec i s = .next t ∧
        t.readPhys (route s.mode rdHi) = written s rdHi (BitVec.ofNat 32 (v.toNat / 2 ^ 32)) ∧
        (rdLo ≠ rdHi → t.readPhys (route s.mode rdLo) = written s rdLo (BitVec.ofNat 32 v.toNat)) ∧
        (sf = true → FlagsAre t v.msb (v == 0#64) s.cpsr.c s.cpsr.v) ∧
        Frame [route s.mode rdHi, route s.mode rdLo] (if sf then [31, 30] else []) s t ∧
        SameMemory s t ∧ NoAccess s t ∧ t.cycles = s.cycles + 3
    let u : Nat := (s.armOp rm).toNat * (s.armOp rs).toNat
    let i : Int := (s.armOp rm).toInt * (s.armOp rs).toInt
    let acc : Nat := (s.armOp rdHi).toNat * 2 ^ 32 + (s.armOp rdLo).toNat
    result (.armUmull c sf rdHi rdLo rs rm) (BitVec.ofNat 64 u) ∧
    result (.armUmlal c sf rdHi rdLo rs rm) (BitVec.ofNat 64 (u + acc)) ∧
    result (.armSmull c sf rdHi rdLo rs rm) (BitVec.ofInt 64 i) ∧
    result (.armSmlal c sf rdHi rdLo rs rm) (BitVec.ofInt 64 (i + acc))

/-! ## Branches, SWI, undefined encodings -/

/-- ARM B and BL: cur + 8 plus the signed word offset, LR = cur + 4 for BL; 3 cycles. -/
def Obligations.ArmBranchAndLink : Prop :=
  ∀ (c : Cond) (offset : BitVec 24) (s : State), condPassed s.cpsr c = true →
    let target : Word := s.currentPc + 8 + BitVec.ofInt 32 (4 * offset.toInt)
    (∃ t, exec (.armB c offset) s = .next t ∧ t.pc = maskPc s.cpsr.t target ∧
      Frame [.pc] [] s t ∧ SameMemory s t ∧ NoAccess s t ∧ t.cycles = s.cycles + 3) ∧
    (∃ t, exec (.armBl c offset) s = .next t ∧ t.pc = maskPc s.cpsr.t target ∧
      t.reg 14#4 = s.currentPc + 4 ∧
      Frame [.pc, route s.mode 14#4] [] s t ∧ SameMemory s t ∧ NoAccess s t ∧ t.cycles = s.cycles + 3)

/-- BX in both states: T from bit 0, then the PC masked with the new T, nothing else; 3 cycles. -/
def Obligations.BranchAndExchange : Prop :=
  ∀ (c : Cond) (rm : RegNum) (s : State),
    let result (i : Instr) (v : Word) : Prop :=
      ∃ t, exec i s = .next t ∧ t.cpsr.t = v.getLsbD 0 ∧
        t.pc = (if v.getLsbD 0 then v &&& 0xFFFFFFFE#32 else v &&& 0xFFFFFFFC#32) ∧
        Frame [.pc] [5] s t ∧ SameMemory s t ∧ NoAccess s t ∧ t.cycles = s.cycles + 3
    (condPassed s.cpsr c = true →
      result (.armBx c rm) (if rm = 15#4 then s.currentPc + 8 else s.reg rm)) ∧
    result (.thumbBx rm) (if rm = 15#4 then s.currentPc + 4 else s.reg rm)

/-- SWI in both states takes the exception at 0x08 into Supervisor mode (R475, R621, R710), with the raw PC as the
return address. That is the address of the instruction after it, cur + 4 (ARM) or cur + 2 (Thumb), where the fetch left
the PC there; where it did not, that the raw PC of R708 stays and not the sum of R710 is the model's choice (log 7). -/
def Obligations.SoftwareInterruptEntersSupervisor : Prop :=
  ∀ (c : Cond) (comment : BitVec 25) (value8 : BitVec 8) (s : State),
    let result (i : Instr) (ret : Word) : Prop :=
      ∃ t, exec i s = .next t ∧ Entered 0x00000008#32 .supervisor ret s t ∧
        t.halted = s.halted ∧ t.stopped = s.stopped ∧ t.cycles = s.cycles + 3
    (condPassed s.cpsr c = true → result (.armSwi c comment) s.pc) ∧
    (condPassed s.cpsr c = true → s.pc = s.currentPc + 4 → result (.armSwi c comment) (s.currentPc + 4)) ∧
    result (.thumbSwi value8) s.pc ∧
    (s.pc = s.currentPc + 2 → result (.thumbSwi value8) (s.currentPc + 2))

/-- The undefined encodings count one cycle and do nothing else (R476, R625). -/
def Obligations.UndefinedEncodingsDoNothing : Prop :=
  ∀ (i : Instr) (s : State),
    (match i with
      | .armUndefMultiply .. | .armUndefStoreSh10 .. | .armUndefStoreSh11 .. | .armUndefClass110 ..
      | .thumbUndef1011 _ | .thumbUndef11101 _ => True
      | _ => False) →
    exec i s = .next { s with cycles := s.cycles + 1 }

/-! ## ARM loads and stores -/

/-- LDR, LDRB, LDRH, LDRSB, LDRSH in every addressing mode, R15 as destination included. -/
def Obligations.ArmLoads : Prop :=
  ∀ (c : Cond) (a : Addressing) (wo : WordOffset) (ho : HalfOffset) (rd : RegNum) (s : State),
    condPassed s.cpsr c = true →
    let wa := transferAddress s a (wordOffset s wo)
    let ha := transferAddress s a (halfOffset s ho)
    LoadsTo (.armLdr c a wo rd) s a (wordOffset s wo) rd (ldrValue s wa) [readOf s .word wa] ∧
    LoadsTo (.armLdrb c a wo rd) s a (wordOffset s wo) rd (zextByteAt s wa) [readOf s .byte wa] ∧
    LoadsTo (.armLdrh c a ho rd) s a (halfOffset s ho) rd (ldrhValue s ha) [readOf s .half ha] ∧
    LoadsTo (.armLdrsb c a ho rd) s a (halfOffset s ho) rd (ldrsbValue s ha) [readOf s .byte ha] ∧
    LoadsTo (.armLdrsh c a ho rd) s a (halfOffset s ho) rd (ldrshValue s ha) [ldrshRead s ha]

/-- STR, STRB, STRH in every addressing mode; a store of R15 stores cur + 12. -/
def Obligations.ArmStores : Prop :=
  ∀ (c : Cond) (a : Addressing) (wo : WordOffset) (ho : HalfOffset) (rd : RegNum) (s : State),
    condPassed s.cpsr c = true →
    let data := if rd = 15#4 then s.currentPc + 12 else s.reg rd
    let wa := transferAddress s a (wordOffset s wo)
    let ha := transferAddress s a (halfOffset s ho)
    StoresFrom (.armStr c a wo rd) s .word a (wordOffset s wo) wa data ∧
    StoresFrom (.armStrb c a wo rd) s .byte a (wordOffset s wo) wa data ∧
    StoresFrom (.armStrh c a ho rd) s .half a (halfOffset s ho) ha data

/-- SWP and SWPB: the load (rotated as LDR), the store at the same address, then Rd; 4 cycles. -/
def Obligations.Swaps : Prop :=
  ∀ (c : Cond) (rn rd rm : RegNum) (s : State), condPassed s.cpsr c = true →
    let addr := s.armOp rn
    let result (i : Instr) (w : Width) (old : Word) : Prop :=
      ∃ t, exec i s = .next t ∧ t.readPhys (route s.mode rd) = written s rd old ∧
        Stored w addr (s.armOp rm) s t ∧ Frame [route s.mode rd] [] s t ∧
        Accessed [readOf s w addr, writeOf w addr (s.armOp rm)] s t ∧
        t.cycles = s.cycles + 4
    result (.armSwp c rn rd rm) .word (ldrValue s addr) ∧ result (.armSwpb c rn rd rm) .byte (zextByteAt s addr)

/-- The addresses of a block transfer by (P, U), an empty list laid out as sixteen registers (R421, R423), and the order of
the registers of an ARM and of a Thumb list (R420, R582). -/
def Obligations.BlockAddressesAndRegisterLists : Prop :=
  ∀ (s : State) (a : BlockAddressing) (list : BitVec 16) (thumbList : BitVec 8),
    let base := if a.rn = 15#4 then s.currentPc + 8 else s.reg a.rn
    let n : Word := BitVec.ofNat 32 (if list = 0#16 then 16 else ((List.range 16).filter list.getLsbD).length)
    (a.pre = false → a.up = true → blockStart s a list = base ∧ blockFinal s a list = base + 4 * n) ∧
    (a.pre = true → a.up = true → blockStart s a list = base + 4 ∧ blockFinal s a list = base + 4 * n) ∧
    (a.pre = false → a.up = false → blockStart s a list = base - 4 * n + 4 ∧ blockFinal s a list = base - 4 * n) ∧
    (a.pre = true → a.up = false → blockStart s a list = base - 4 * n ∧ blockFinal s a list = base - 4 * n) ∧
    (list = 0#16 → blockRegs list = [15#4]) ∧
    (list ≠ 0#16 → ∀ i : RegNum, i ∈ blockRegs list ↔ list.getLsbD i.toNat = true) ∧
    (blockRegs list).Pairwise (fun i j => i.toNat < j.toNat) ∧
    (∀ i : RegNum, i ∈ listRegs thumbList ↔ thumbList.getLsbD i.toNat = true) ∧
    (listRegs thumbList).Pairwise (fun i j => i.toNat < j.toNat)

/-- LDM (R424, R422, R423, R427, R434); an empty list with S = 1 is as the model reads R423 (log 13). -/
def Obligations.LoadMultiple : Prop :=
  ∀ (c : Cond) (a : BlockAddressing) (list : BitVec 16) (s : State), condPassed s.cpsr c = true →
    let regs := blockRegs list
    let start := blockStart s a list
    let word := blockWordAt s regs start
    let backs : Prop := a.wback = true ∧ list.getLsbD a.rn.toNat = false ∧ a.rn ≠ 15#4
    ∃ t, exec (.armLdm c a list) s = .next t ∧
      (∀ i, i ∈ regs → i ≠ 15#4 → t.readPhys (ldmTarget s a list i) = word i) ∧
      (backs → t.readPhys (route s.mode a.rn) = blockFinal s a list) ∧
      (15#4 ∈ regs →
        t.cpsr = (if a.sbit then restored s else s.cpsr) ∧ t.pc = maskPc t.cpsr.t (word 15#4)) ∧
      (15#4 ∉ regs → t.cpsr = s.cpsr ∧ t.pc = s.pc) ∧
      (∀ p, (∀ i, i ∈ regs → p ≠ ldmTarget s a list i) → (backs → p ≠ route s.mode a.rn) →
        t.readPhys p = s.readPhys p) ∧
      t.spsr = s.spsr ∧ t.halted = s.halted ∧ t.stopped = s.stopped ∧ t.currentPc = s.currentPc ∧
      t.currentInstruction = s.currentInstruction ∧ t.bus = s.bus ∧
      ReadBlock regs start s t ∧
      t.cycles = s.cycles + 2 + ((List.range 16).filter list.getLsbD).length + (if 15#4 ∈ regs then 2 else 0)

/-- STM (R425, R422, R423, R427, R434); an empty list is as the model reads R423 (log 13). -/
def Obligations.StoreMultiple : Prop :=
  ∀ (c : Cond) (a : BlockAddressing) (list : BitVec 16) (s : State), condPassed s.cpsr c = true →
    let regs := blockRegs list
    let value (i : RegNum) : Word :=
      if i = 15#4 then s.currentPc + 12
      else if i = a.rn ∧ a.wback = true ∧ (∃ j, j ∈ regs ∧ j.toNat < i.toNat) then blockFinal s a list
      else if a.sbit then s.userReg i else s.reg i
    let backs : Prop := a.wback = true ∧ a.rn ≠ 15#4
    ∃ t, exec (.armStm c a list) s = .next t ∧
      StoredBlock regs (blockStart s a list) value s t ∧
      (backs → t.readPhys (route s.mode a.rn) = blockFinal s a list) ∧
      Frame (if a.wback && a.rn != 15#4 then [route s.mode a.rn] else []) [] s t ∧
      t.cycles = s.cycles + 2 + ((List.range 16).filter list.getLsbD).length

/-! ## PSR transfers -/

/-- MRS: CPSR, or the current SPSR, which reads as CPSR in User and System mode (R470, R42); 1 cycle. -/
def Obligations.StatusReads : Prop :=
  ∀ (c : Cond) (rd : RegNum) (s : State), condPassed s.cpsr c = true →
    let result (i : Instr) (v : Word) : Prop :=
      ∃ t, exec i s = .next t ∧ t.readPhys (route s.mode rd) = written s rd v ∧
        Frame [route s.mode rd] [] s t ∧ SameMemory s t ∧ NoAccess s t ∧ t.cycles = s.cycles + 1
    result (.armMrsCpsr c rd) s.cpsr ∧
    (s.mode.hasSpsr = false → result (.armMrsSpsr c rd) s.cpsr) ∧
    (∀ p, s.spsr.get? s.mode = some p → result (.armMrsSpsr c rd) p)

/-- MSR to CPSR from a register and from an immediate (R471 to R473). -/
def Obligations.StatusWrites : Prop :=
  ∀ (c : Cond) (mask : BitVec 4) (rm : RegNum) (rot4 : BitVec 4) (imm8 : BitVec 8) (s : State),
    condPassed s.cpsr c = true →
    MsrCpsr (.armMsrCpsrReg c mask rm) mask (if rm = 15#4 then s.currentPc + 8 else s.reg rm) s ∧
    MsrCpsr (.armMsrCpsrImm c mask rot4 imm8) mask ((imm8.setWidth 32).rotateRight (2 * rot4.toNat)) s

/-- MSR to SPSR from a register and from an immediate (R471, R474, R43). -/
def Obligations.SavedStatusWrites : Prop :=
  ∀ (c : Cond) (mask : BitVec 4) (rm : RegNum) (rot4 : BitVec 4) (imm8 : BitVec 8) (s : State),
    condPassed s.cpsr c = true →
    MsrSpsr (.armMsrSpsrReg c mask rm) mask (if rm = 15#4 then s.currentPc + 8 else s.reg rm) s ∧
    MsrSpsr (.armMsrSpsrImm c mask rot4 imm8) mask ((imm8.setWidth 32).rotateRight (2 * rot4.toNat)) s

/-! ## Thumb arithmetic -/

/-- Thumb shifts of formats 1 and 4: N, Z, C from the shifter, V kept. -/
def Obligations.ThumbShifts : Prop :=
  ∀ (op : ThumbShiftOp) (s : State),
    let r := op.result (fun i => s.reg (lowReg i)) s.cpsr.c
    ∃ t, exec op.instr s = .next t ∧
      t.readPhys (route s.mode (lowReg op.rd)) = r.value ∧
      FlagsAre t r.value.msb (r.value == 0#32) r.carry s.cpsr.v ∧
      Frame [route s.mode (lowReg op.rd)] [31, 30, 29] s t ∧
      SameMemory s t ∧ NoAccess s t ∧ t.cycles = s.cycles + op.cycles

/-- Thumb ADD, SUB, ADC, SBC, NEG of formats 2 to 4: N, Z, C, V from the ALU; 1 cycle. -/
def Obligations.ThumbArithmetic : Prop :=
  ∀ (op : ThumbArith) (s : State),
    let r := op.result (fun i => s.reg (lowReg i)) s.cpsr.c
    ∃ t, exec op.instr s = .next t ∧
      t.readPhys (route s.mode (lowReg op.rd)) = r.value ∧
      FlagsAre t r.value.msb (r.value == 0#32) r.carry r.overflow ∧
      Frame [route s.mode (lowReg op.rd)] nzcv s t ∧
      SameMemory s t ∧ NoAccess s t ∧ t.cycles = s.cycles + 1

/-- Thumb MOV immediate, AND, EOR, ORR, MUL, BIC, MVN: N and Z from the result, C and V kept. -/
def Obligations.ThumbLogicAndMultiply : Prop :=
  ∀ (op : ThumbLogic) (s : State),
    let v := op.result (fun i => s.reg (lowReg i))
    ∃ t, exec op.instr s = .next t ∧
      t.readPhys (route s.mode (lowReg op.rd)) = v ∧
      FlagsAre t v.msb (v == 0#32) s.cpsr.c s.cpsr.v ∧
      Frame [route s.mode (lowReg op.rd)] [31, 30] s t ∧
      SameMemory s t ∧ NoAccess s t ∧ t.cycles = s.cycles + op.cycles

/-- Thumb CMP (three forms), CMN, TST: the flags alone; 1 cycle. -/
def Obligations.ThumbComparisonsSetFlagsAlone : Prop :=
  ∀ (op : ThumbCompareOp) (s : State),
    let r := op.result s
    ∃ t, exec op.instr s = .next t ∧
      FlagsAre t r.value.msb (r.value == 0#32) r.carry r.overflow ∧
      Frame [] nzcv s t ∧ SameMemory s t ∧ NoAccess s t ∧ t.cycles = s.cycles + 1

/-- Thumb format 5 ADD and MOV: no flag; a write of R15 is masked and costs 3 cycles (R530, R532). -/
def Obligations.ThumbHiRegisterMoves : Prop :=
  ∀ (rs rd : RegNum) (s : State),
    let x (i : RegNum) : Word := if i = 15#4 then s.currentPc + 4 else s.reg i
    let result (i : Instr) (v : Word) : Prop :=
      ∃ t, exec i s = .next t ∧ t.readPhys (route s.mode rd) = written s rd v ∧
        Frame [route s.mode rd] [] s t ∧ SameMemory s t ∧ NoAccess s t ∧
        t.cycles = s.cycles + (if rd = 15#4 then 3 else 1)
    result (.thumbAddHi rs rd) (x rd + x rs) ∧ result (.thumbMovHi rs rd) (x rs)

/-! ## Thumb loads, stores and addresses -/

/-- The ten Thumb loads of formats 6 to 11 (R561, R564, R565, R567 to R569, R571, R573, R575, R577). -/
def Obligations.ThumbLoadForms : Prop :=
  ∀ (ro rb rd : LowReg) (offset5 : BitVec 5) (word8 : BitVec 8) (s : State),
    let base := s.reg (lowReg rb)
    let reg := base + s.reg (lowReg ro)
    let imm (k : Nat) : Word := base + BitVec.ofNat 32 (offset5.toNat * k)
    let pcRel : Word := ((s.currentPc + 4) &&& 0xFFFFFFFC#32) + BitVec.ofNat 32 (word8.toNat * 4)
    let spRel : Word := s.reg 13#4 + BitVec.ofNat 32 (word8.toNat * 4)
    ThumbLoads (.thumbLdrPc rd word8) s rd (wordAt s pcRel) [readOf s .word pcRel] ∧
    ThumbLoads (.thumbLdrReg ro rb rd) s rd (ldrValue s reg) [readOf s .word reg] ∧
    ThumbLoads (.thumbLdrbReg ro rb rd) s rd (zextByteAt s reg) [readOf s .byte reg] ∧
    ThumbLoads (.thumbLdsb ro rb rd) s rd (ldrsbValue s reg) [readOf s .byte reg] ∧
    ThumbLoads (.thumbLdrhReg ro rb rd) s rd (ldrhValue s reg) [readOf s .half reg] ∧
    ThumbLoads (.thumbLdsh ro rb rd) s rd (ldrshValue s reg) [ldrshRead s reg] ∧
    ThumbLoads (.thumbLdrImm offset5 rb rd) s rd (ldrValue s (imm 4)) [readOf s .word (imm 4)] ∧
    ThumbLoads (.thumbLdrbImm offset5 rb rd) s rd (zextByteAt s (imm 1)) [readOf s .byte (imm 1)] ∧
    ThumbLoads (.thumbLdrhImm offset5 rb rd) s rd (ldrhValue s (imm 2)) [readOf s .half (imm 2)] ∧
    ThumbLoads (.thumbLdrSp rd word8) s rd (ldrValue s spRel) [readOf s .word spRel]

/-- The Thumb stores of formats 7 to 11 (R562, R563, R566, R570, R572, R574, R576). -/
def Obligations.ThumbStoreForms : Prop :=
  ∀ (ro rb rd : LowReg) (offset5 : BitVec 5) (word8 : BitVec 8) (s : State),
    let base := s.reg (lowReg rb)
    let reg := base + s.reg (lowReg ro)
    let imm (k : Nat) : Word := base + BitVec.ofNat 32 (offset5.toNat * k)
    let spRel : Word := s.reg 13#4 + BitVec.ofNat 32 (word8.toNat * 4)
    ThumbStores (.thumbStrReg ro rb rd) s .word reg rd ∧
    ThumbStores (.thumbStrbReg ro rb rd) s .byte reg rd ∧
    ThumbStores (.thumbStrhReg ro rb rd) s .half reg rd ∧
    ThumbStores (.thumbStrImm offset5 rb rd) s .word (imm 4) rd ∧
    ThumbStores (.thumbStrbImm offset5 rb rd) s .byte (imm 1) rd ∧
    ThumbStores (.thumbStrhImm offset5 rb rd) s .half (imm 2) rd ∧
    ThumbStores (.thumbStrSp rd word8) s .word spRel rd

/-- Thumb formats 12 and 13: addresses from PC and SP, SP adjusted; no flag; 1 cycle (R578 to R581). -/
def Obligations.ThumbAddressGeneration : Prop :=
  ∀ (rd : LowReg) (word8 : BitVec 8) (sword7 : BitVec 7) (s : State),
    let result (i : Instr) (d : RegNum) (v : Word) : Prop :=
      ∃ t, exec i s = .next t ∧ t.readPhys (route s.mode d) = v ∧
        Frame [route s.mode d] [] s t ∧ SameMemory s t ∧ NoAccess s t ∧ t.cycles = s.cycles + 1
    let sp := s.reg 13#4
    result (.thumbAddRdPc rd word8) (lowReg rd)
      (((s.currentPc + 4) &&& 0xFFFFFFFC#32) + BitVec.ofNat 32 (word8.toNat * 4)) ∧
    result (.thumbAddRdSp rd word8) (lowReg rd) (sp + BitVec.ofNat 32 (word8.toNat * 4)) ∧
    result (.thumbAddSpImm sword7) 13#4 (sp + BitVec.ofNat 32 (sword7.toNat * 4)) ∧
    result (.thumbSubSpImm sword7) 13#4 (sp - BitVec.ofNat 32 (sword7.toNat * 4))

/-- PUSH (R582): the listed registers ascending from SP - 4n, LR above them, SP moved down; 2 cycles. -/
def Obligations.PushStoresBelowSp : Prop :=
  ∀ (lr : Bool) (list : BitVec 8) (s : State), lr = true ∨ list ≠ 0#8 →
    let regs := listRegs list ++ (if lr then [14#4] else [])
    let bottom := s.reg 13#4 - BitVec.ofNat 32 (4 * regs.length)
    ∃ t, exec (.thumbPush lr list) s = .next t ∧
      StoredBlock regs bottom s.reg s t ∧ t.readPhys (route s.mode 13#4) = bottom ∧
      Frame [route s.mode 13#4] [] s t ∧ t.cycles = s.cycles + 2

/-- POP (R583): the listed registers ascending from SP, then the PC with T from its bit 0, SP moved up; 3 cycles. -/
def Obligations.PopLoadsFromSp : Prop :=
  ∀ (pc : Bool) (list : BitVec 8) (s : State), pc = true ∨ list ≠ 0#8 →
    let regs := listRegs list ++ (if pc then [15#4] else [])
    let bottom := s.reg 13#4
    let word := blockWordAt s regs bottom
    ∃ t, exec (.thumbPop pc list) s = .next t ∧
      (∀ i, i ∈ listRegs list → t.readPhys (route s.mode i) = word i) ∧
      (pc = true → t.cpsr.t = (word 15#4).getLsbD 0 ∧ t.pc = maskPc t.cpsr.t (word 15#4)) ∧
      t.readPhys (route s.mode 13#4) = bottom + BitVec.ofNat 32 (4 * regs.length) ∧
      Frame ((regs.map (route s.mode)) ++ [route s.mode 13#4]) (if pc then [5] else []) s t ∧
      ReadBlock regs bottom s t ∧ t.cycles = s.cycles + 3

/-- Thumb STMIA (R584): a listed base that is not the lowest register stores its final value; 2 cycles. -/
def Obligations.StmiaStoresAndAdvances : Prop :=
  ∀ (rb : LowReg) (list : BitVec 8) (s : State), list ≠ 0#8 →
    let regs := listRegs list
    let base := s.reg (lowReg rb)
    let final := base + BitVec.ofNat 32 (4 * regs.length)
    let value (i : RegNum) : Word :=
      if i = lowReg rb ∧ (∃ j, j ∈ regs ∧ j.toNat < i.toNat) then final else s.reg i
    ∃ t, exec (.thumbStmia rb list) s = .next t ∧
      StoredBlock regs base value s t ∧ t.readPhys (route s.mode (lowReg rb)) = final ∧
      Frame [route s.mode (lowReg rb)] [] s t ∧ t.cycles = s.cycles + 2

/-- Thumb LDMIA (R585): no write-back where the base is loaded; 3 cycles. -/
def Obligations.LdmiaLoadsAndAdvances : Prop :=
  ∀ (rb : LowReg) (list : BitVec 8) (s : State), list ≠ 0#8 →
    let regs := listRegs list
    let base := s.reg (lowReg rb)
    ∃ t, exec (.thumbLdmia rb list) s = .next t ∧
      (∀ i, i ∈ regs → t.readPhys (route s.mode i) = blockWordAt s regs base i) ∧
      (lowReg rb ∉ regs →
        t.readPhys (route s.mode (lowReg rb)) = base + BitVec.ofNat 32 (4 * regs.length)) ∧
      Frame (route s.mode (lowReg rb) :: regs.map (route s.mode)) [] s t ∧
      ReadBlock regs base s t ∧ t.cycles = s.cycles + 3

/-! ## Thumb branches -/

/-- Thumb B<cond> and B (R620, R622). -/
def Obligations.ThumbBranches : Prop :=
  ∀ (c : Cond) (soffset8 : BitVec 8) (offset11 : BitVec 11) (s : State),
    let jumps (i : Instr) (target : Word) : Prop :=
      ∃ t, exec i s = .next t ∧ t.pc = maskPc s.cpsr.t target ∧
        Frame [.pc] [] s t ∧ SameMemory s t ∧ NoAccess s t ∧ t.cycles = s.cycles + 3
    (condPassed s.cpsr c = true →
      jumps (.thumbBCond c soffset8) (s.currentPc + 4 + BitVec.ofInt 32 (2 * soffset8.toInt))) ∧
    (condPassed s.cpsr c = false →
      exec (.thumbBCond c soffset8) s = .next { s with cycles := s.cycles + 1 }) ∧
    jumps (.thumbB offset11) (s.currentPc + 4 + BitVec.ofInt 32 (2 * offset11.toInt))

/-- The two halves of the Thumb BL (R623, R624). -/
def Obligations.ThumbBranchWithLink : Prop :=
  ∀ (offset11 : BitVec 11) (s : State),
    (∃ t, exec (.thumbBlFirst offset11) s = .next t ∧
      t.reg 14#4 = s.currentPc + 4 + BitVec.ofInt 32 (offset11.toInt * 4096) ∧
      Frame [route s.mode 14#4] [] s t ∧ SameMemory s t ∧ NoAccess s t ∧ t.cycles = s.cycles + 1) ∧
    (∃ t, exec (.thumbBlSecond offset11) s = .next t ∧
      t.reg 14#4 = ((s.currentPc + 2) ||| 1#32) ∧
      t.pc = maskPc s.cpsr.t (s.reg 14#4 + BitVec.ofNat 32 (offset11.toNat * 2)) ∧
      Frame [.pc, route s.mode 14#4] [] s t ∧ SameMemory s t ∧ NoAccess s t ∧ t.cycles = s.cycles + 3)

/-! ## Completion -/

/-- The four Thumb encodings with an empty list, `0xB400`, `0xBC00`, `0xC000 | Rb << 8` and `0xC800 | Rb << 8`, are
refused, with nothing done (R586). -/
def Obligations.EmptyThumbListsAreRefused : Prop :=
  ∀ (rb : LowReg) (s : State),
    decodeThumb 0xB400#16 = .thumbPush false 0#8 ∧ decodeThumb 0xBC00#16 = .thumbPop false 0#8 ∧
    decodeThumb (0xC000#16 ||| rb.setWidth 16 <<< 8) = .thumbStmia rb 0#8 ∧
    decodeThumb (0xC800#16 ||| rb.setWidth 16 <<< 8) = .thumbLdmia rb 0#8 ∧
    exec (.thumbPush false 0#8) s = .refused .emptyThumbRegisterList ∧
    exec (.thumbPop false 0#8) s = .refused .emptyThumbRegisterList ∧
    exec (.thumbStmia rb 0#8) s = .refused .emptyThumbRegisterList ∧
    exec (.thumbLdmia rb 0#8) s = .refused .emptyThumbRegisterList

/-- Every other instruction completes from every state, in at least one cycle (R232, R821), and none touches `halted`,
`stopped`, the fetch registers or what is behind the bus (R730, R731, R56, R8). -/
def Obligations.EveryOtherInstructionCompletes : Prop :=
  ∀ (i : Instr) (s : State), i.emptyThumbList = false →
    ∃ t, exec i s = .next t ∧ s.cycles + 1 ≤ t.cycles ∧ t.halted = s.halted ∧ t.stopped = s.stopped ∧
      t.currentPc = s.currentPc ∧ t.currentInstruction = s.currentInstruction ∧ t.bus = s.bus

/-- The data accesses of every instruction, in order, with their widths (R105, R106), each at an aligned address (R103,
R104), each read with what the bus gives to a read of its number; none where the condition fails. And what the bus gives:
plain memory where no range is mapped, else what the first range that holds the address says; a value written to
memory-like bytes is read back (R102, R111); a write that no memory keeps leaves memory alone; a device answers as listed
(R100, R109). The record and the form of the platform are the model's (log 5, log 1, log 17). -/
def Obligations.DataAccessesOfEveryInstruction : Prop :=
  (∀ (i : Instr) (s t : State), exec i s = .next t →
    ∃ l, Accessed l s t ∧
      l.map (fun a => (a.kind, a.width)) =
        (if (i.cond?.map (condPassed s.cpsr)).getD true then dataAccesses s i else []) ∧
      (∀ a, a ∈ l → align a.width a.addr = a.addr) ∧
      ∀ n a, l[n]? = some a → a.kind = .read → a.value = (later s n).busRead a.width a.addr) ∧
  ∀ (s : State) (w : Width) (addr v : Word),
    (s.bus.map = [] → s.bus.readHome addr = some addr ∧ s.bus.writeHome addr = some addr) ∧
    (∀ r rest, s.bus.map = r :: rest →
      if r.first.toNat ≤ addr.toNat ∧ addr.toNat ≤ r.last.toNat then
        match r.kind with
        | .memory home =>
          s.bus.readHome addr = some (home + (addr - r.first)) ∧ s.bus.writeHome addr = some (home + (addr - r.first))
        | .readOnly home => s.bus.readHome addr = some (home + (addr - r.first)) ∧ s.bus.writeHome addr = none
        | .device => s.bus.readHome addr = none ∧ s.bus.writeHome addr = none
      else
        s.bus.readHome addr = Bus.readHome ⟨rest, s.bus.answers⟩ addr ∧
          s.bus.writeHome addr = Bus.writeHome ⟨rest, s.bus.answers⟩ addr) ∧
    ((s.bus.writeHome addr).isSome = true →
      (s.setMem (s.bus.store s.mem w addr v)).busRead w addr = (writeOf w addr v).value) ∧
    (s.bus.writeHome addr = none → s.bus.store s.mem w addr v = s.mem) ∧
    (s.bus.readHome addr = none → ∀ a, s.bus.answers[s.reads]? = some a → s.busRead w addr = (writeOf w addr a).value)

/-! ## Exceptions -/

/-- Taking an exception (R706 to R708, R740). -/
def Obligations.TakeExceptionLaw : Prop :=
  ∀ (s : State) (vector : Word) (m : Mode), m.hasSpsr = true →
    Entered vector m s.pc s (s.takeException vector m) ∧
    (s.takeException vector m).halted = s.halted ∧ (s.takeException vector m).cycles = s.cycles

/-- The restore after an entry gives back the CPSR, T included, and the bank of the old mode (R741). -/
def Obligations.RestoreUndoesTheEntry : Prop :=
  ∀ (s : State) (vector : Word) (m : Mode), s.modeValid = true → m.hasSpsr = true →
    (s.takeException vector m).restoreCpsr.cpsr = s.cpsr ∧
    (s.takeException vector m).restoreCpsr.mode = s.mode ∧
    ∀ i : RegNum, i ≠ 15#4 → route s.mode i ≠ .lr m.bankKey →
      (s.takeException vector m).restoreCpsr.reg i = s.reg i

/-- The IRQ input (R711): nothing while I = 1; else the entry at 0x18 into IRQ mode, LR the next instruction's address,
`halted` cleared, no cycle. -/
def Obligations.IrqInput : Prop :=
  ∀ s : State,
    (s.cpsr.i = true → s.triggerIrq = s) ∧
    (s.cpsr.i = false →
      Entered 0x00000018#32 .irq s.pc s s.triggerIrq ∧ s.triggerIrq.halted = false ∧
        s.triggerIrq.stopped = s.stopped ∧ s.triggerIrq.cycles = s.cycles ∧
        s.triggerIrq.triggerIrq = s.triggerIrq)

/-! ## Headline statements -/

/-- Decoding the encoding of a well-formed instruction gives it back, with every operand at every value; ignored fields
are encoded as 0 (log 9) and the comment of an ARM SWI is 25 bits (log 15), both the model's choice. -/
def Obligations.DecodeOfEncode : Prop :=
  ∀ i : Instr, i.wellFormed = true → decode (encode i) = i

/-- Every word and halfword decodes to a well-formed instruction. -/
def Obligations.DecodedInstructionsAreWellFormed : Prop :=
  ∀ w : CodeWord, (decode w).wellFormed = true

/-- Every step keeps the invariant: a valid mode, an aligned PC, a canonical memory (the model's form: log 2). -/
def Obligations.StepKeepsTheInvariant : Prop :=
  ∀ s t : State, s.Inv → step s = .next t → t.Inv

/-- Every schedule of steps, interrupts, halts, resets, external status writes, DMA and changes of the platform keeps a
valid mode, bit 0 of the PC clear and a canonical memory, from any state that has them; the events are the model's form
of R8 (log 3). -/
def Obligations.SchedulesKeepTheInvariant : Prop :=
  ∀ (events : List EnvEvent) (s t : State), s.EventInv → runSchedule events s = .next t → t.EventInv

/-- In User mode only SWI changes the mode, and it goes to Supervisor (R726). -/
def Obligations.UserModeIsLeftOnlyBySwi : Prop :=
  ∀ (i : Instr) (s t : State), s.cpsr.m = 0x10#5 → exec i s = .next t → t.cpsr.m ≠ 0x10#5 →
    t.cpsr.m = 0x13#5 ∧ t.pc = 0x00000008#32 ∧
      ((∃ c comment, i = .armSwi c comment) ∨ ∃ value8, i = .thumbSwi value8)

/-- In User mode an instruction other than SWI changes no register of another mode's bank, no SPSR, not I, F, the mode
or a reserved bit 23..8 of CPSR (R473, R725). -/
def Obligations.UserModeCannotReachOtherModes : Prop :=
  ∀ (i : Instr) (s t : State), s.cpsr.m = 0x10#5 → exec i s = .next t →
    (∀ c comment, i ≠ .armSwi c comment) → (∀ value8, i ≠ .thumbSwi value8) →
    (∀ k, t.readPhys (.fiq8 k) = s.readPhys (.fiq8 k)) ∧
    (∀ k, k ≠ .user → t.readPhys (.sp k) = s.readPhys (.sp k) ∧ t.readPhys (.lr k) = s.readPhys (.lr k)) ∧
    t.spsr = s.spsr ∧ t.cpsr.m = s.cpsr.m ∧ t.cpsr.i = s.cpsr.i ∧ t.cpsr.f = s.cpsr.f ∧
    ∀ k, 8 ≤ k → k < 24 → t.cpsr.getLsbD k = s.cpsr.getLsbD k

/-- A memory in canonical form, the model's (log 2), is determined by what its bytes read as. -/
def Obligations.CanonicalMemoriesAreDeterminedByTheirBytes : Prop :=
  ∀ m n : Memory, m.wf = true → n.wf = true → (∀ a, m.read a = n.read a) → m = n
end

