-- ==== Sys2Proof/Laws/Bits.lean ====
section
/-! SUPPORT. Fields of concatenated bits, one spelling: `bits v lo len` and `getLsbD`, pushed through `++` and `pack`. -/

namespace Sys2Proof

variable {n m w : Nat}

theorem getLsbD_bits (v : BitVec n) (lo len k : Nat) :
    (bits v lo len).getLsbD k = (decide (k < len) && v.getLsbD (lo + k)) := by
  simp [bits, BitVec.getLsbD_extractLsb']

/-- A field of the low part. -/
theorem bits_append_low (a : BitVec n) (b : BitVec m) (lo len : Nat) (h : lo + len ≤ m) :
    bits (a ++ b) lo len = bits b lo len := by
  apply BitVec.eq_of_getLsbD_eq
  intro k hk
  simp only [getLsbD_bits, BitVec.getLsbD_append]
  rw [if_pos (by omega)]

/-- A field of the high part. -/
theorem bits_append_high (a : BitVec n) (b : BitVec m) (lo len : Nat) (h : m ≤ lo) :
    bits (a ++ b) lo len = bits a (lo - m) len := by
  apply BitVec.eq_of_getLsbD_eq
  intro k hk
  simp only [getLsbD_bits, BitVec.getLsbD_append]
  rw [if_neg (by omega), show lo + k - m = lo - m + k from by omega]

theorem bit_append_low (a : BitVec n) (b : BitVec m) (k : Nat) (h : k < m) :
    (a ++ b).getLsbD k = b.getLsbD k := by
  simp [BitVec.getLsbD_append, h]

theorem bit_append_high (a : BitVec n) (b : BitVec m) (k : Nat) (h : m ≤ k) :
    (a ++ b).getLsbD k = a.getLsbD (k - m) := by
  rw [BitVec.getLsbD_append, if_neg (by omega)]

theorem bits_pack (v : BitVec n) (h : n = m) (lo len : Nat) : bits (pack v h) lo len = bits v lo len := by
  subst h; rfl

theorem bit_pack (v : BitVec n) (h : n = m) (k : Nat) : (pack v h).getLsbD k = v.getLsbD k := by
  subst h; rfl

/-- The whole of a vector. -/
theorem bits_full (v : BitVec n) : bits v 0 n = v := by
  apply BitVec.eq_of_getLsbD_eq
  intro k hk
  simp [hk]

/-- A field is a constant exactly when its bits are the constant's. -/
theorem bits_eq_iff (v : BitVec n) (lo len : Nat) (c : BitVec len) :
    bits v lo len = c ↔ ∀ k, k < len → v.getLsbD (lo + k) = c.getLsbD k := by
  constructor
  · rintro rfl k hk
    simp [hk]
  · intro h
    apply BitVec.eq_of_getLsbD_eq
    intro k hk
    simp [hk, h k hk]

@[simp] theorem Cond.ofBits_toBits (c : Cond) : Cond.ofBits c.toBits = c := by cases c <;> rfl

@[simp] theorem ShiftType.ofBits_toBits (t : ShiftType) : ShiftType.ofBits t.toBits = t := by cases t <;> rfl

namespace Machine

/-! ## The PC mask and alignment -/

theorem getLsbD_maskPc (t : Bool) (v : Word) (k : Nat) :
    (maskPc t v).getLsbD k = (decide ((if t then 1 else 2) ≤ k) && v.getLsbD k) := by
  by_cases hk : k < 32
  · have : ∀ j : Fin 32, (0xFFFFFFFE#32).getLsbD j = decide (1 ≤ j.val) ∧
        (0xFFFFFFFC#32).getLsbD j = decide (2 ≤ j.val) := by decide
    obtain ⟨h1, h2⟩ := this ⟨k, hk⟩
    cases t <;> simp_all [maskPc, Bool.and_comm]
  · rw [BitVec.getLsbD_of_ge _ _ (by omega), BitVec.getLsbD_of_ge _ _ (by omega), Bool.and_false]

@[simp] theorem maskPc_idem (t : Bool) (v : Word) : maskPc t (maskPc t v) = maskPc t v := by
  apply BitVec.eq_of_getLsbD_eq
  intro k hk
  simp only [getLsbD_maskPc]
  cases decide ((if t then 1 else 2) ≤ k) <;> simp

@[simp] theorem maskPc_bit0 (t : Bool) (v : Word) : (maskPc t v).getLsbD 0 = false := by
  rw [getLsbD_maskPc]; cases t <;> rfl

/-- An address aligned for ARM is aligned for Thumb. -/
theorem maskPc_true_false (v : Word) : maskPc true (maskPc false v) = maskPc false v := by
  apply BitVec.eq_of_getLsbD_eq
  intro k hk
  simp only [getLsbD_maskPc]
  by_cases h : 2 ≤ k
  · simp [h, show 1 ≤ k from by omega]
  · simp [h]

end Machine

end Sys2Proof
end

