-- ==== Sys2Proof/Laws/Memory.lean ====
section
/-! SUPPORT. Memory: read after write, the canonical form and that every operation keeps it, loads and stores. -/

namespace Sys2Proof.Machine

/-! ## One byte -/

@[simp] theorem Memory.read_nil (a : Nat) : Memory.read [] a = unlistedByte := rfl

theorem Memory.read_cons (k : Nat) (b : Byte) (m : Memory) (a : Nat) :
    Memory.read ((k, b) :: m) a = if k = a then b else Memory.read m a := rfl

theorem Memory.read_insert (m : Memory) (a : Nat) (b : Byte) (x : Nat) :
    (Memory.insert m a b).read x = if x = a then b else m.read x := by
  induction m with
  | nil => simp only [Memory.insert, Memory.read_cons, Memory.read_nil, eq_comm]
  | cons c m ih =>
    obtain ⟨k, c⟩ := c
    simp only [Memory.insert]
    split
    · simp only [Memory.read_cons, eq_comm]
    · split
      · subst_vars
        simp only [Memory.read_cons, eq_comm]
        split <;> simp_all
      · simp only [Memory.read_cons, ih]
        split
        · rw [if_neg (by omega)]
        · rfl

theorem Memory.read_erase (m : Memory) (a x : Nat) :
    (Memory.erase m a).read x = if x = a then unlistedByte else m.read x := by
  induction m with
  | nil => simp [Memory.erase]
  | cons c m ih =>
    obtain ⟨k, c⟩ := c
    simp only [Memory.erase]
    split
    · subst_vars
      rw [ih, Memory.read_cons]
      split
      · rfl
      · rw [if_neg (by omega)]
    · simp only [Memory.read_cons, ih]
      split
      · rw [if_neg (by omega)]
      · rfl

/-- Reading after writing one byte. -/
theorem Memory.read_write (m : Memory) (a : Nat) (b : Byte) (x : Nat) :
    (m.write a b).read x = if x = a then b else m.read x := by
  unfold Memory.write
  split
  · rw [Memory.read_erase, ‹b = unlistedByte›]
  · rw [Memory.read_insert]

theorem Memory.read_setByteAt (m : Memory) (a : Word) (b : Byte) (x : Nat) :
    (m.setByteAt a b).read x = if x = a.toNat then b else m.read x := Memory.read_write ..

theorem Memory.byteAt_setByteAt (m : Memory) (a : Word) (b : Byte) (x : Word) :
    (m.setByteAt a b).byteAt x = if x = a then b else m.byteAt x := by
  simp only [Memory.byteAt, Memory.read_setByteAt, BitVec.toNat_inj]

/-! ## The canonical form -/

theorem Memory.wfFrom_cons (lo k : Nat) (b : Byte) (m : Memory) :
    Memory.wfFrom lo ((k, b) :: m) = true ↔
      lo ≤ k ∧ k < 2 ^ 32 ∧ b ≠ unlistedByte ∧ Memory.wfFrom (k + 1) m = true := by
  simp only [Memory.wfFrom, Bool.and_eq_true, decide_eq_true_eq, bne_iff_ne, and_assoc]

theorem Memory.wfFrom_mono {lo lo' : Nat} {m : Memory} (h : lo' ≤ lo) (hm : Memory.wfFrom lo m = true) :
    Memory.wfFrom lo' m = true := by
  cases m with
  | nil => rfl
  | cons c m =>
    obtain ⟨k, c⟩ := c
    rw [Memory.wfFrom_cons] at hm ⊢
    exact ⟨Nat.le_trans h hm.1, hm.2⟩

theorem Memory.wfFrom_insert {lo a : Nat} {b : Byte} {m : Memory} (hm : Memory.wfFrom lo m = true) (h : lo ≤ a)
    (ha : a < 2 ^ 32) (hb : b ≠ unlistedByte) : Memory.wfFrom lo (Memory.insert m a b) = true := by
  induction m generalizing lo with
  | nil => exact (Memory.wfFrom_cons ..).2 ⟨h, ha, hb, rfl⟩
  | cons c m ih =>
    obtain ⟨k, c⟩ := c
    have hm' := (Memory.wfFrom_cons ..).1 hm
    simp only [Memory.insert]
    split
    · exact (Memory.wfFrom_cons ..).2 ⟨h, ha, hb, (Memory.wfFrom_cons ..).2 ⟨by omega, hm'.2⟩⟩
    · split
      · exact (Memory.wfFrom_cons ..).2 ⟨h, ha, hb, by subst_vars; exact hm'.2.2.2⟩
      · exact (Memory.wfFrom_cons ..).2 ⟨hm'.1, hm'.2.1, hm'.2.2.1, ih hm'.2.2.2 (by omega)⟩

theorem Memory.wfFrom_erase {lo : Nat} (a : Nat) {m : Memory} (hm : Memory.wfFrom lo m = true) :
    Memory.wfFrom lo (Memory.erase m a) = true := by
  induction m generalizing lo with
  | nil => rfl
  | cons c m ih =>
    obtain ⟨k, c⟩ := c
    have hm' := (Memory.wfFrom_cons ..).1 hm
    simp only [Memory.erase]
    split
    · exact ih (Memory.wfFrom_mono (by omega) hm'.2.2.2)
    · exact (Memory.wfFrom_cons ..).2 ⟨hm'.1, hm'.2.1, hm'.2.2.1, ih hm'.2.2.2⟩

/-- A write of one byte keeps the canonical form. -/
theorem Memory.wf_write {m : Memory} (hm : m.wf = true) {a : Nat} (ha : a < 2 ^ 32) (b : Byte) :
    (m.write a b).wf = true := by
  unfold Memory.write
  split
  · exact Memory.wfFrom_erase a hm
  · exact Memory.wfFrom_insert hm (Nat.zero_le _) ha ‹_›

theorem Memory.wf_setByteAt {m : Memory} (hm : m.wf = true) (a : Word) (b : Byte) : (m.setByteAt a b).wf = true :=
  Memory.wf_write hm a.isLt b

/-- A store of any width keeps the canonical form. -/
theorem Memory.wf_store {m : Memory} (hm : m.wf = true) (w : Width) (a v : Word) : (m.store w a v).wf = true := by
  cases w <;> simp only [Memory.store] <;> repeat first | exact hm | apply Memory.wf_setByteAt

/-- Below its first key a canonical list lists nothing. -/
theorem Memory.read_below {lo a : Nat} {m : Memory} (hm : Memory.wfFrom lo m = true) (h : a < lo) :
    m.read a = unlistedByte := by
  induction m generalizing lo with
  | nil => rfl
  | cons c m ih =>
    obtain ⟨k, c⟩ := c
    have hm' := (Memory.wfFrom_cons ..).1 hm
    rw [Memory.read_cons, if_neg (by omega), ih hm'.2.2.2 (by omega)]

/-! ## Loads and stores -/

/-- Adding different small numbers to an address gives different addresses. -/
theorem add_small_inj (a : Word) {j k : Nat} (hj : j < 4) (hk : k < 4) :
    a + BitVec.ofNat 32 j = a + BitVec.ofNat 32 k ↔ j = k := by
  constructor
  · intro h
    have h2 : BitVec.ofNat 32 j = BitVec.ofNat 32 k := by simpa using h
    have h3 := congrArg BitVec.toNat h2
    simp only [BitVec.toNat_ofNat] at h3
    omega
  · rintro rfl; rfl

/-- The bytes of a store, one at a time. -/
theorem Memory.read_store (m : Memory) (w : Width) (a v : Word) (x : Nat) :
    (m.store w a v).read x =
      if w.bytes > 3 ∧ x = (a + 3).toNat then bits v 24 8
      else if w.bytes > 2 ∧ x = (a + 2).toNat then bits v 16 8
      else if w.bytes > 1 ∧ x = (a + 1).toNat then bits v 8 8
      else if x = a.toNat then bits v 0 8
      else m.read x := by
  cases w <;> simp [Memory.store, Memory.read_setByteAt, Width.bytes]

/-- Byte `k` of a store of width `w`. -/
theorem Memory.read_store_inside (m : Memory) {w : Width} (a v : Word) {k : Nat} (hk : k < w.bytes) :
    (m.store w a v).read (a + BitVec.ofNat 32 k).toNat = bits v (8 * k) 8 := by
  have hk4 : k < 4 := by cases w <;> simp only [Width.bytes] at hk <;> omega
  rw [Memory.read_store]
  have e : ∀ j : Nat, j < 4 → ((a + BitVec.ofNat 32 k).toNat = (a + BitVec.ofNat 32 j).toNat ↔ k = j) :=
    fun j hj => BitVec.toNat_inj.trans (add_small_inj _ hk4 hj)
  have e0 : (a + BitVec.ofNat 32 k).toNat = a.toNat ↔ k = 0 := by
    simpa using e 0 (by omega)
  have e1 := e 1 (by omega)
  have e2 := e 2 (by omega)
  have e3 := e 3 (by omega)
  simp only [BitVec.ofNat_eq_ofNat] at e0 e1 e2 e3 ⊢
  simp only [e0, e1, e2, e3]
  have hk' : k = 0 ∨ k = 1 ∨ k = 2 ∨ k = 3 := by omega
  rcases hk' with rfl | rfl | rfl | rfl <;> simp_all

/-- A byte outside a store stays. -/
theorem Memory.read_store_outside (m : Memory) {w : Width} {a : Word} (v : Word) {x : Nat}
    (h : ∀ k, k < w.bytes → x ≠ (a + BitVec.ofNat 32 k).toNat) : (m.store w a v).read x = m.read x := by
  have h0 := h 0 (by cases w <;> decide)
  have h1 := h 1
  have h2 := h 2
  have h3 := h 3
  rw [Memory.read_store]
  simp only [BitVec.add_zero] at h0 h1 h2 h3
  rw [if_neg (fun c => h3 c.1 c.2), if_neg (fun c => h2 c.1 c.2), if_neg (fun c => h1 c.1 c.2), if_neg h0]

/-- A load of the place and width just stored gives the value stored, as the bus carries it. -/
theorem Memory.load_store (m : Memory) (w : Width) (a v : Word) : (m.store w a v).load w a = busValue w v := by
  have R0 : (m.store w a v).read a.toNat = bits v 0 8 := by
    have := Memory.read_store_inside m (w := w) a v (k := 0) (by cases w <;> decide)
    simpa only [BitVec.ofNat_eq_ofNat, BitVec.add_zero] using this
  have R1 (h : 1 < w.bytes) : (m.store w a v).read (a + 1).toNat = bits v 8 8 := Memory.read_store_inside m a v h
  have R2 (h : 2 < w.bytes) : (m.store w a v).read (a + 2).toNat = bits v 16 8 := Memory.read_store_inside m a v h
  have R3 (h : 3 < w.bytes) : (m.store w a v).read (a + 3).toNat = bits v 24 8 := Memory.read_store_inside m a v h
  cases w with
  | byte => simp only [Memory.load, Memory.byteAt, R0, busValue]
  | half =>
    rw [Memory.load, Memory.byteAt, Memory.byteAt, R0, R1 (by decide), busValue, halfOfBytes]
    apply BitVec.eq_of_getLsbD_eq
    intro k hk
    rw [BitVec.getLsbD_setWidth, BitVec.getLsbD_setWidth, bit_pack, getLsbD_bits]
    by_cases h8 : k < 8
    · rw [bit_append_low _ _ _ h8, getLsbD_bits]; simp [h8, show k < 16 by omega]
    · rw [bit_append_high _ _ _ (by omega), getLsbD_bits, show 8 + (k - 8) = k by omega]
      by_cases h16 : k < 16
      · simp [h16, show k - 8 < 8 by omega]
      · simp [h16, show ¬ k - 8 < 8 by omega]
  | word =>
    rw [Memory.load, Memory.byteAt, Memory.byteAt, Memory.byteAt, Memory.byteAt, R0, R1 (by decide), R2 (by decide),
      R3 (by decide), busValue, wordOfBytes]
    apply BitVec.eq_of_getLsbD_eq
    intro k hk
    rw [bit_pack]
    simp only [BitVec.getLsbD_append, getLsbD_bits]
    by_cases h8 : k < 8
    · simp [h8]
    · by_cases h16 : k < 16
      · simp [h8, show k - 8 < 8 by omega, show 8 + (k - 8) = k by omega]
      · by_cases h24 : k < 24
        · simp [h8, show ¬ k - 8 < 8 by omega, show k - 8 - 8 < 8 by omega, show 16 + (k - 8 - 8) = k by omega]
        · simp [h8, show ¬ k - 8 < 8 by omega, show ¬ k - 8 - 8 < 8 by omega,
            show 24 + (k - 8 - 8 - 8) = k by omega, show k - 8 - 8 - 8 < 8 by omega]

/-! ## The bus -/

/-- A bus with no map is plain memory. -/
@[simp] theorem Bus.readHome_flat (answers : List Word) (a : Word) : Bus.readHome ⟨[], answers⟩ a = some a := rfl
@[simp] theorem Bus.writeHome_flat (answers : List Word) (a : Word) : Bus.writeHome ⟨[], answers⟩ a = some a := rfl

/-- Where a write leaves its bytes, a read finds them. -/
theorem Bus.readHome_of_writeHome {b : Bus} {a home : Word} (h : b.writeHome a = some home) :
    b.readHome a = some home := by
  unfold Bus.writeHome at h
  unfold Bus.readHome
  split at h <;> simp_all

theorem Bus.store_home {b : Bus} {m : Memory} {w : Width} {a home : Word} (v : Word) (h : b.writeHome a = some home) :
    b.store m w a v = m.store w home v := by simp [Bus.store, h]

theorem Bus.store_none {b : Bus} {m : Memory} {w : Width} {a : Word} (v : Word) (h : b.writeHome a = none) :
    b.store m w a v = m := by simp [Bus.store, h]

/-- A write keeps the canonical form. -/
theorem Bus.wf_store (b : Bus) {m : Memory} (hm : m.wf = true) (w : Width) (a v : Word) :
    (b.store m w a v).wf = true := by
  unfold Bus.store
  split
  · exact Memory.wf_store hm _ _ _
  · exact hm

/-- What a read of the bus gives depends on the platform, memory and the number of the read alone. -/
theorem State.busRead_congr {s t : State} (hb : t.bus = s.bus) (hm : t.mem = s.mem) (hn : t.reads = s.reads) (w : Width)
    (a : Word) : t.busRead w a = s.busRead w a := by
  unfold State.busRead
  rw [hb, hm, hn]

/-- A write at the aligned address writes the bytes of the value at its home and nothing else. -/
theorem Memory.stored {s t : State} {w : Width} {addr v : Word}
    (h : t.mem = s.bus.store s.mem w (align w addr) v) : Stored w addr v s t := by
  constructor
  · intro home hh k hk
    rw [Memory.byteAt, h, Bus.store_home v hh, Memory.read_store_inside _ _ _ hk]
  · intro a ha
    rw [h]
    cases hh : s.bus.writeHome (align w addr) with
    | none => rw [Bus.store_none v hh]
    | some home =>
      rw [Bus.store_home v hh]
      exact Memory.read_store_outside _ _ fun k hk hx => ha ⟨home, hh, k, hk, hx⟩

end Sys2Proof.Machine
end

