-- ==== Sys2Proof/Laws/Flags.lean ====
section
/-! SUPPORT. The fields of a status word under each flag write: what is written, and that the rest stays. -/

namespace Sys2Proof.Machine

theorem Psr.getLsbD_setBit (p : Psr) (k : Nat) (b : Bool) (j : Nat) (hk : k < 32) :
    (p.setBit k b).getLsbD j = if j = k then b else p.getLsbD j := by
  by_cases hj : j < 32
  · unfold Psr.setBit
    simp only [BitVec.getLsbD_or, BitVec.getLsbD_and, BitVec.getLsbD_not, BitVec.getLsbD_shiftLeft, hj, decide_true,
      Bool.true_and, BitVec.getLsbD_setWidth, BitVec.getLsbD_one]
    by_cases h : j = k
    · subst h; simp [hj]
    · by_cases h2 : j < k
      · simp [h, h2]
      · have : ¬ (j - k = 0) := by omega
        simp [h, h2, this, BitVec.getLsbD_ofBool]
  · rw [BitVec.getLsbD_of_ge _ _ (by omega), if_neg (by omega), BitVec.getLsbD_of_ge _ _ (by omega)]

/-- A field that does not contain the bit stays. -/
theorem Psr.m_setBit (p : Psr) (k : Nat) (b : Bool) (hk : k < 32) (h5 : 5 ≤ k) : (p.setBit k b).m = p.m := by
  apply BitVec.eq_of_getLsbD_eq
  intro j hj
  simp only [Psr.m, getLsbD_bits, hj, decide_true, Bool.true_and, Nat.zero_add]
  rw [Psr.getLsbD_setBit _ _ _ _ hk, if_neg (by omega)]

theorem Psr.getLsbD_setM (p : Psr) (m : BitVec 5) (j : Nat) :
    (p.setM m).getLsbD j = if j < 5 then m.getLsbD j else p.getLsbD j := by
  unfold Psr.setM
  by_cases h : j < 5
  · rw [bit_pack, bit_append_low _ _ _ h, if_pos h]
  · rw [bit_pack, bit_append_high _ _ _ (by omega), getLsbD_bits, if_neg h]
    by_cases h2 : j < 32
    · simp [show j - 5 < 27 from by omega, show 5 + (j - 5) = j from by omega]
    · simp [show ¬ j - 5 < 27 from by omega, BitVec.getLsbD_of_ge p j (by omega)]

@[simp] theorem Psr.m_setM (p : Psr) (m : BitVec 5) : (p.setM m).m = m := by
  apply BitVec.eq_of_getLsbD_eq
  intro j hj
  simp only [Psr.m, getLsbD_bits, hj, decide_true, Bool.true_and, Nat.zero_add, Psr.getLsbD_setM, if_true]

/-- Every bit of a status word after `set_flags_nz`. -/
theorem Psr.getLsbD_setNZ {w : Nat} (p : Psr) (r : BitVec w) (j : Nat) :
    (p.setNZ r).getLsbD j = if j = 31 then r.msb else if j = 30 then r == 0#w else p.getLsbD j := by
  unfold Psr.setNZ
  rw [Psr.getLsbD_setBit _ _ _ _ (by decide), Psr.getLsbD_setBit _ _ _ _ (by decide)]
  split <;> split <;> first | rfl | omega

/-- Every bit after `set_flags_nzc`. -/
theorem Psr.getLsbD_setNZC (p : Psr) (r : Word) (c : Bool) (j : Nat) :
    (p.setNZC r c).getLsbD j =
      if j = 31 then r.msb else if j = 30 then r == 0#32 else if j = 29 then c else p.getLsbD j := by
  unfold Psr.setNZC Psr.setC
  rw [Psr.getLsbD_setBit _ _ _ _ (by decide), Psr.getLsbD_setNZ]
  repeat' split
  all_goals first | rfl | omega

/-- Every bit after `set_flags_nzcv`. -/
theorem Psr.getLsbD_setNZCV (p : Psr) (r : Word) (c v : Bool) (j : Nat) :
    (p.setNZCV r c v).getLsbD j =
      if j = 31 then r.msb else if j = 30 then r == 0#32 else if j = 29 then c else if j = 28 then v
      else p.getLsbD j := by
  unfold Psr.setNZCV
  rw [Psr.getLsbD_setBit _ _ _ _ (by decide), Psr.getLsbD_setNZC]
  repeat' split
  all_goals first | rfl | omega

@[simp] theorem Psr.n_setNZ (p : Psr) {w : Nat} (r : BitVec w) : (p.setNZ r).n = r.msb :=
  Psr.getLsbD_setNZ p r 31
@[simp] theorem Psr.z_setNZ (p : Psr) {w : Nat} (r : BitVec w) : (p.setNZ r).z = (r == 0#w) :=
  Psr.getLsbD_setNZ p r 30
@[simp] theorem Psr.c_setNZ (p : Psr) {w : Nat} (r : BitVec w) : (p.setNZ r).c = p.c :=
  Psr.getLsbD_setNZ p r 29
@[simp] theorem Psr.v_setNZ (p : Psr) {w : Nat} (r : BitVec w) : (p.setNZ r).v = p.v :=
  Psr.getLsbD_setNZ p r 28
@[simp] theorem Psr.i_setNZ (p : Psr) {w : Nat} (r : BitVec w) : (p.setNZ r).i = p.i :=
  Psr.getLsbD_setNZ p r 7
@[simp] theorem Psr.f_setNZ (p : Psr) {w : Nat} (r : BitVec w) : (p.setNZ r).f = p.f :=
  Psr.getLsbD_setNZ p r 6
@[simp] theorem Psr.t_setNZ (p : Psr) {w : Nat} (r : BitVec w) : (p.setNZ r).t = p.t :=
  Psr.getLsbD_setNZ p r 5
@[simp] theorem Psr.m_setNZ (p : Psr) {w : Nat} (r : BitVec w) : (p.setNZ r).m = p.m := by
  apply BitVec.eq_of_getLsbD_eq
  intro j hj
  simp only [Psr.m, getLsbD_bits, hj, decide_true, Bool.true_and, Nat.zero_add]
  rw [Psr.getLsbD_setNZ]
  repeat rw [if_neg (by omega)]


@[simp] theorem Psr.n_setNZC (p : Psr) (r : Word) (c : Bool) : (p.setNZC r c).n = r.msb :=
  Psr.getLsbD_setNZC p r c 31
@[simp] theorem Psr.z_setNZC (p : Psr) (r : Word) (c : Bool) : (p.setNZC r c).z = (r == 0#32) :=
  Psr.getLsbD_setNZC p r c 30
@[simp] theorem Psr.c_setNZC (p : Psr) (r : Word) (c : Bool) : (p.setNZC r c).c = c :=
  Psr.getLsbD_setNZC p r c 29
@[simp] theorem Psr.v_setNZC (p : Psr) (r : Word) (c : Bool) : (p.setNZC r c).v = p.v :=
  Psr.getLsbD_setNZC p r c 28
@[simp] theorem Psr.i_setNZC (p : Psr) (r : Word) (c : Bool) : (p.setNZC r c).i = p.i :=
  Psr.getLsbD_setNZC p r c 7
@[simp] theorem Psr.f_setNZC (p : Psr) (r : Word) (c : Bool) : (p.setNZC r c).f = p.f :=
  Psr.getLsbD_setNZC p r c 6
@[simp] theorem Psr.t_setNZC (p : Psr) (r : Word) (c : Bool) : (p.setNZC r c).t = p.t :=
  Psr.getLsbD_setNZC p r c 5
@[simp] theorem Psr.m_setNZC (p : Psr) (r : Word) (c : Bool) : (p.setNZC r c).m = p.m := by
  apply BitVec.eq_of_getLsbD_eq
  intro j hj
  simp only [Psr.m, getLsbD_bits, hj, decide_true, Bool.true_and, Nat.zero_add]
  rw [Psr.getLsbD_setNZC]
  repeat rw [if_neg (by omega)]


@[simp] theorem Psr.n_setNZCV (p : Psr) (r : Word) (c v : Bool) : (p.setNZCV r c v).n = r.msb :=
  Psr.getLsbD_setNZCV p r c v 31
@[simp] theorem Psr.z_setNZCV (p : Psr) (r : Word) (c v : Bool) : (p.setNZCV r c v).z = (r == 0#32) :=
  Psr.getLsbD_setNZCV p r c v 30
@[simp] theorem Psr.c_setNZCV (p : Psr) (r : Word) (c v : Bool) : (p.setNZCV r c v).c = c :=
  Psr.getLsbD_setNZCV p r c v 29
@[simp] theorem Psr.v_setNZCV (p : Psr) (r : Word) (c v : Bool) : (p.setNZCV r c v).v = v :=
  Psr.getLsbD_setNZCV p r c v 28
@[simp] theorem Psr.i_setNZCV (p : Psr) (r : Word) (c v : Bool) : (p.setNZCV r c v).i = p.i :=
  Psr.getLsbD_setNZCV p r c v 7
@[simp] theorem Psr.f_setNZCV (p : Psr) (r : Word) (c v : Bool) : (p.setNZCV r c v).f = p.f :=
  Psr.getLsbD_setNZCV p r c v 6
@[simp] theorem Psr.t_setNZCV (p : Psr) (r : Word) (c v : Bool) : (p.setNZCV r c v).t = p.t :=
  Psr.getLsbD_setNZCV p r c v 5
@[simp] theorem Psr.m_setNZCV (p : Psr) (r : Word) (c v : Bool) : (p.setNZCV r c v).m = p.m := by
  apply BitVec.eq_of_getLsbD_eq
  intro j hj
  simp only [Psr.m, getLsbD_bits, hj, decide_true, Bool.true_and, Nat.zero_add]
  rw [Psr.getLsbD_setNZCV]
  repeat rw [if_neg (by omega)]


@[simp] theorem Psr.n_setC (p : Psr) (b : Bool) : (p.setC b).n = p.n :=
  Psr.getLsbD_setBit p 29 b 31 (by decide)
@[simp] theorem Psr.z_setC (p : Psr) (b : Bool) : (p.setC b).z = p.z :=
  Psr.getLsbD_setBit p 29 b 30 (by decide)
@[simp] theorem Psr.c_setC (p : Psr) (b : Bool) : (p.setC b).c = b :=
  Psr.getLsbD_setBit p 29 b 29 (by decide)
@[simp] theorem Psr.v_setC (p : Psr) (b : Bool) : (p.setC b).v = p.v :=
  Psr.getLsbD_setBit p 29 b 28 (by decide)
@[simp] theorem Psr.i_setC (p : Psr) (b : Bool) : (p.setC b).i = p.i :=
  Psr.getLsbD_setBit p 29 b 7 (by decide)
@[simp] theorem Psr.f_setC (p : Psr) (b : Bool) : (p.setC b).f = p.f :=
  Psr.getLsbD_setBit p 29 b 6 (by decide)
@[simp] theorem Psr.t_setC (p : Psr) (b : Bool) : (p.setC b).t = p.t :=
  Psr.getLsbD_setBit p 29 b 5 (by decide)
@[simp] theorem Psr.m_setC (p : Psr) (b : Bool) : (p.setC b).m = p.m := by
  simp [Psr.setC, Psr.m_setBit]

@[simp] theorem Psr.n_setI (p : Psr) (b : Bool) : (p.setI b).n = p.n :=
  Psr.getLsbD_setBit p 7 b 31 (by decide)
@[simp] theorem Psr.z_setI (p : Psr) (b : Bool) : (p.setI b).z = p.z :=
  Psr.getLsbD_setBit p 7 b 30 (by decide)
@[simp] theorem Psr.c_setI (p : Psr) (b : Bool) : (p.setI b).c = p.c :=
  Psr.getLsbD_setBit p 7 b 29 (by decide)
@[simp] theorem Psr.v_setI (p : Psr) (b : Bool) : (p.setI b).v = p.v :=
  Psr.getLsbD_setBit p 7 b 28 (by decide)
@[simp] theorem Psr.i_setI (p : Psr) (b : Bool) : (p.setI b).i = b :=
  Psr.getLsbD_setBit p 7 b 7 (by decide)
@[simp] theorem Psr.f_setI (p : Psr) (b : Bool) : (p.setI b).f = p.f :=
  Psr.getLsbD_setBit p 7 b 6 (by decide)
@[simp] theorem Psr.t_setI (p : Psr) (b : Bool) : (p.setI b).t = p.t :=
  Psr.getLsbD_setBit p 7 b 5 (by decide)
@[simp] theorem Psr.m_setI (p : Psr) (b : Bool) : (p.setI b).m = p.m := by
  simp [Psr.setI, Psr.m_setBit]

@[simp] theorem Psr.n_setF (p : Psr) (b : Bool) : (p.setF b).n = p.n :=
  Psr.getLsbD_setBit p 6 b 31 (by decide)
@[simp] theorem Psr.z_setF (p : Psr) (b : Bool) : (p.setF b).z = p.z :=
  Psr.getLsbD_setBit p 6 b 30 (by decide)
@[simp] theorem Psr.c_setF (p : Psr) (b : Bool) : (p.setF b).c = p.c :=
  Psr.getLsbD_setBit p 6 b 29 (by decide)
@[simp] theorem Psr.v_setF (p : Psr) (b : Bool) : (p.setF b).v = p.v :=
  Psr.getLsbD_setBit p 6 b 28 (by decide)
@[simp] theorem Psr.i_setF (p : Psr) (b : Bool) : (p.setF b).i = p.i :=
  Psr.getLsbD_setBit p 6 b 7 (by decide)
@[simp] theorem Psr.f_setF (p : Psr) (b : Bool) : (p.setF b).f = b :=
  Psr.getLsbD_setBit p 6 b 6 (by decide)
@[simp] theorem Psr.t_setF (p : Psr) (b : Bool) : (p.setF b).t = p.t :=
  Psr.getLsbD_setBit p 6 b 5 (by decide)
@[simp] theorem Psr.m_setF (p : Psr) (b : Bool) : (p.setF b).m = p.m := by
  simp [Psr.setF, Psr.m_setBit]

@[simp] theorem Psr.n_setT (p : Psr) (b : Bool) : (p.setT b).n = p.n :=
  Psr.getLsbD_setBit p 5 b 31 (by decide)
@[simp] theorem Psr.z_setT (p : Psr) (b : Bool) : (p.setT b).z = p.z :=
  Psr.getLsbD_setBit p 5 b 30 (by decide)
@[simp] theorem Psr.c_setT (p : Psr) (b : Bool) : (p.setT b).c = p.c :=
  Psr.getLsbD_setBit p 5 b 29 (by decide)
@[simp] theorem Psr.v_setT (p : Psr) (b : Bool) : (p.setT b).v = p.v :=
  Psr.getLsbD_setBit p 5 b 28 (by decide)
@[simp] theorem Psr.i_setT (p : Psr) (b : Bool) : (p.setT b).i = p.i :=
  Psr.getLsbD_setBit p 5 b 7 (by decide)
@[simp] theorem Psr.f_setT (p : Psr) (b : Bool) : (p.setT b).f = p.f :=
  Psr.getLsbD_setBit p 5 b 6 (by decide)
@[simp] theorem Psr.t_setT (p : Psr) (b : Bool) : (p.setT b).t = b :=
  Psr.getLsbD_setBit p 5 b 5 (by decide)
@[simp] theorem Psr.m_setT (p : Psr) (b : Bool) : (p.setT b).m = p.m := by
  simp [Psr.setT, Psr.m_setBit]

@[simp] theorem Psr.n_setM (p : Psr) (m : BitVec 5) : (p.setM m).n = p.n :=
  Psr.getLsbD_setM p m 31
@[simp] theorem Psr.z_setM (p : Psr) (m : BitVec 5) : (p.setM m).z = p.z :=
  Psr.getLsbD_setM p m 30
@[simp] theorem Psr.c_setM (p : Psr) (m : BitVec 5) : (p.setM m).c = p.c :=
  Psr.getLsbD_setM p m 29
@[simp] theorem Psr.v_setM (p : Psr) (m : BitVec 5) : (p.setM m).v = p.v :=
  Psr.getLsbD_setM p m 28
@[simp] theorem Psr.i_setM (p : Psr) (m : BitVec 5) : (p.setM m).i = p.i :=
  Psr.getLsbD_setM p m 7
@[simp] theorem Psr.f_setM (p : Psr) (m : BitVec 5) : (p.setM m).f = p.f :=
  Psr.getLsbD_setM p m 6
@[simp] theorem Psr.t_setM (p : Psr) (m : BitVec 5) : (p.setM m).t = p.t :=
  Psr.getLsbD_setM p m 5

/-- A bit outside the four flags stays, whatever the flags are set to. -/
theorem Psr.setNZ_other {w : Nat} (p : Psr) (r : BitVec w) (k : Nat) (h : k ∉ [31, 30]) :
    (p.setNZ r).getLsbD k = p.getLsbD k := by
  simp only [List.mem_cons, List.not_mem_nil, or_false, not_or] at h
  simp [Psr.getLsbD_setNZ, h]

theorem Psr.setNZC_other (p : Psr) (r : Word) (c : Bool) (k : Nat) (h : k ∉ [31, 30, 29]) :
    (p.setNZC r c).getLsbD k = p.getLsbD k := by
  simp only [List.mem_cons, List.not_mem_nil, or_false, not_or] at h
  simp [Psr.getLsbD_setNZC, h]

theorem Psr.setNZCV_other (p : Psr) (r : Word) (c v : Bool) (k : Nat) (h : k ∉ [31, 30, 29, 28]) :
    (p.setNZCV r c v).getLsbD k = p.getLsbD k := by
  simp only [List.mem_cons, List.not_mem_nil, or_false, not_or] at h
  simp [Psr.getLsbD_setNZCV, h]

end Sys2Proof.Machine
end

