-- ==== Sys2Proof/Laws/State.lean ====
section
/-! SUPPORT. One lemma per field per update of the state, so that no later proof unfolds a record update. -/

namespace Sys2Proof.Machine

variable (s : State)

/-! ## `setCpsr` -/

@[simp] theorem State.setCpsr_common (x : Psr) : (s.setCpsr x).common = s.common := rfl
@[simp] theorem State.setCpsr_r8to12Usr (x : Psr) : (s.setCpsr x).r8to12Usr = s.r8to12Usr := rfl
@[simp] theorem State.setCpsr_r8to12Fiq (x : Psr) : (s.setCpsr x).r8to12Fiq = s.r8to12Fiq := rfl
@[simp] theorem State.setCpsr_r13 (x : Psr) : (s.setCpsr x).r13 = s.r13 := rfl
@[simp] theorem State.setCpsr_r14 (x : Psr) : (s.setCpsr x).r14 = s.r14 := rfl
@[simp] theorem State.setCpsr_pc (x : Psr) : (s.setCpsr x).pc = s.pc := rfl
@[simp] theorem State.setCpsr_cpsr (x : Psr) : (s.setCpsr x).cpsr = x := rfl
@[simp] theorem State.setCpsr_spsr (x : Psr) : (s.setCpsr x).spsr = s.spsr := rfl
@[simp] theorem State.setCpsr_halted (x : Psr) : (s.setCpsr x).halted = s.halted := rfl
@[simp] theorem State.setCpsr_stopped (x : Psr) : (s.setCpsr x).stopped = s.stopped := rfl
@[simp] theorem State.setCpsr_cycles (x : Psr) : (s.setCpsr x).cycles = s.cycles := rfl
@[simp] theorem State.setCpsr_currentPc (x : Psr) : (s.setCpsr x).currentPc = s.currentPc := rfl
@[simp] theorem State.setCpsr_currentInstruction (x : Psr) : (s.setCpsr x).currentInstruction = s.currentInstruction := rfl
@[simp] theorem State.setCpsr_mem (x : Psr) : (s.setCpsr x).mem = s.mem := rfl
@[simp] theorem State.setCpsr_bus (x : Psr) : (s.setCpsr x).bus = s.bus := rfl
@[simp] theorem State.setCpsr_reads (x : Psr) : (s.setCpsr x).reads = s.reads := rfl
@[simp] theorem State.setCpsr_accesses (x : Psr) : (s.setCpsr x).accesses = s.accesses := rfl
@[simp] theorem State.setCpsr_readPhys (x : Psr) (p : PhysReg) : (s.setCpsr x).readPhys p = s.readPhys p := by
  cases p <;> rfl

/-! ## `setSpsrs` -/

@[simp] theorem State.setSpsrs_common (x : Spsrs) : (s.setSpsrs x).common = s.common := rfl
@[simp] theorem State.setSpsrs_r8to12Usr (x : Spsrs) : (s.setSpsrs x).r8to12Usr = s.r8to12Usr := rfl
@[simp] theorem State.setSpsrs_r8to12Fiq (x : Spsrs) : (s.setSpsrs x).r8to12Fiq = s.r8to12Fiq := rfl
@[simp] theorem State.setSpsrs_r13 (x : Spsrs) : (s.setSpsrs x).r13 = s.r13 := rfl
@[simp] theorem State.setSpsrs_r14 (x : Spsrs) : (s.setSpsrs x).r14 = s.r14 := rfl
@[simp] theorem State.setSpsrs_pc (x : Spsrs) : (s.setSpsrs x).pc = s.pc := rfl
@[simp] theorem State.setSpsrs_cpsr (x : Spsrs) : (s.setSpsrs x).cpsr = s.cpsr := rfl
@[simp] theorem State.setSpsrs_spsr (x : Spsrs) : (s.setSpsrs x).spsr = x := rfl
@[simp] theorem State.setSpsrs_halted (x : Spsrs) : (s.setSpsrs x).halted = s.halted := rfl
@[simp] theorem State.setSpsrs_stopped (x : Spsrs) : (s.setSpsrs x).stopped = s.stopped := rfl
@[simp] theorem State.setSpsrs_cycles (x : Spsrs) : (s.setSpsrs x).cycles = s.cycles := rfl
@[simp] theorem State.setSpsrs_currentPc (x : Spsrs) : (s.setSpsrs x).currentPc = s.currentPc := rfl
@[simp] theorem State.setSpsrs_currentInstruction (x : Spsrs) : (s.setSpsrs x).currentInstruction = s.currentInstruction := rfl
@[simp] theorem State.setSpsrs_mem (x : Spsrs) : (s.setSpsrs x).mem = s.mem := rfl
@[simp] theorem State.setSpsrs_bus (x : Spsrs) : (s.setSpsrs x).bus = s.bus := rfl
@[simp] theorem State.setSpsrs_reads (x : Spsrs) : (s.setSpsrs x).reads = s.reads := rfl
@[simp] theorem State.setSpsrs_accesses (x : Spsrs) : (s.setSpsrs x).accesses = s.accesses := rfl
@[simp] theorem State.setSpsrs_readPhys (x : Spsrs) (p : PhysReg) : (s.setSpsrs x).readPhys p = s.readPhys p := by
  cases p <;> rfl
@[simp] theorem State.setSpsrs_mode (x : Spsrs) : (s.setSpsrs x).mode = s.mode := rfl
@[simp] theorem State.setSpsrs_reg (x : Spsrs) (i : RegNum) : (s.setSpsrs x).reg i = s.reg i := by
  simp [State.reg]

/-! ## `setMem` -/

@[simp] theorem State.setMem_common (x : Memory) : (s.setMem x).common = s.common := rfl
@[simp] theorem State.setMem_r8to12Usr (x : Memory) : (s.setMem x).r8to12Usr = s.r8to12Usr := rfl
@[simp] theorem State.setMem_r8to12Fiq (x : Memory) : (s.setMem x).r8to12Fiq = s.r8to12Fiq := rfl
@[simp] theorem State.setMem_r13 (x : Memory) : (s.setMem x).r13 = s.r13 := rfl
@[simp] theorem State.setMem_r14 (x : Memory) : (s.setMem x).r14 = s.r14 := rfl
@[simp] theorem State.setMem_pc (x : Memory) : (s.setMem x).pc = s.pc := rfl
@[simp] theorem State.setMem_cpsr (x : Memory) : (s.setMem x).cpsr = s.cpsr := rfl
@[simp] theorem State.setMem_spsr (x : Memory) : (s.setMem x).spsr = s.spsr := rfl
@[simp] theorem State.setMem_halted (x : Memory) : (s.setMem x).halted = s.halted := rfl
@[simp] theorem State.setMem_stopped (x : Memory) : (s.setMem x).stopped = s.stopped := rfl
@[simp] theorem State.setMem_cycles (x : Memory) : (s.setMem x).cycles = s.cycles := rfl
@[simp] theorem State.setMem_currentPc (x : Memory) : (s.setMem x).currentPc = s.currentPc := rfl
@[simp] theorem State.setMem_currentInstruction (x : Memory) : (s.setMem x).currentInstruction = s.currentInstruction := rfl
@[simp] theorem State.setMem_mem (x : Memory) : (s.setMem x).mem = x := rfl
@[simp] theorem State.setMem_bus (x : Memory) : (s.setMem x).bus = s.bus := rfl
@[simp] theorem State.setMem_reads (x : Memory) : (s.setMem x).reads = s.reads := rfl
@[simp] theorem State.setMem_accesses (x : Memory) : (s.setMem x).accesses = s.accesses := rfl
@[simp] theorem State.setMem_readPhys (x : Memory) (p : PhysReg) : (s.setMem x).readPhys p = s.readPhys p := by
  cases p <;> rfl
@[simp] theorem State.setMem_mode (x : Memory) : (s.setMem x).mode = s.mode := rfl
@[simp] theorem State.setMem_reg (x : Memory) (i : RegNum) : (s.setMem x).reg i = s.reg i := by
  simp [State.reg]

/-! ## `setBus` -/

@[simp] theorem State.setBus_common (x : Bus) : (s.setBus x).common = s.common := rfl
@[simp] theorem State.setBus_r8to12Usr (x : Bus) : (s.setBus x).r8to12Usr = s.r8to12Usr := rfl
@[simp] theorem State.setBus_r8to12Fiq (x : Bus) : (s.setBus x).r8to12Fiq = s.r8to12Fiq := rfl
@[simp] theorem State.setBus_r13 (x : Bus) : (s.setBus x).r13 = s.r13 := rfl
@[simp] theorem State.setBus_r14 (x : Bus) : (s.setBus x).r14 = s.r14 := rfl
@[simp] theorem State.setBus_pc (x : Bus) : (s.setBus x).pc = s.pc := rfl
@[simp] theorem State.setBus_cpsr (x : Bus) : (s.setBus x).cpsr = s.cpsr := rfl
@[simp] theorem State.setBus_spsr (x : Bus) : (s.setBus x).spsr = s.spsr := rfl
@[simp] theorem State.setBus_halted (x : Bus) : (s.setBus x).halted = s.halted := rfl
@[simp] theorem State.setBus_stopped (x : Bus) : (s.setBus x).stopped = s.stopped := rfl
@[simp] theorem State.setBus_cycles (x : Bus) : (s.setBus x).cycles = s.cycles := rfl
@[simp] theorem State.setBus_currentPc (x : Bus) : (s.setBus x).currentPc = s.currentPc := rfl
@[simp] theorem State.setBus_currentInstruction (x : Bus) : (s.setBus x).currentInstruction = s.currentInstruction := rfl
@[simp] theorem State.setBus_mem (x : Bus) : (s.setBus x).mem = s.mem := rfl
@[simp] theorem State.setBus_bus (x : Bus) : (s.setBus x).bus = x := rfl
@[simp] theorem State.setBus_reads (x : Bus) : (s.setBus x).reads = s.reads := rfl
@[simp] theorem State.setBus_accesses (x : Bus) : (s.setBus x).accesses = s.accesses := rfl
@[simp] theorem State.setBus_readPhys (x : Bus) (p : PhysReg) : (s.setBus x).readPhys p = s.readPhys p := by
  cases p <;> rfl
@[simp] theorem State.setBus_mode (x : Bus) : (s.setBus x).mode = s.mode := rfl
@[simp] theorem State.setBus_reg (x : Bus) (i : RegNum) : (s.setBus x).reg i = s.reg i := by
  simp [State.reg]

/-! ## `setReads` -/

@[simp] theorem State.setReads_common (x : Nat) : (s.setReads x).common = s.common := rfl
@[simp] theorem State.setReads_r8to12Usr (x : Nat) : (s.setReads x).r8to12Usr = s.r8to12Usr := rfl
@[simp] theorem State.setReads_r8to12Fiq (x : Nat) : (s.setReads x).r8to12Fiq = s.r8to12Fiq := rfl
@[simp] theorem State.setReads_r13 (x : Nat) : (s.setReads x).r13 = s.r13 := rfl
@[simp] theorem State.setReads_r14 (x : Nat) : (s.setReads x).r14 = s.r14 := rfl
@[simp] theorem State.setReads_pc (x : Nat) : (s.setReads x).pc = s.pc := rfl
@[simp] theorem State.setReads_cpsr (x : Nat) : (s.setReads x).cpsr = s.cpsr := rfl
@[simp] theorem State.setReads_spsr (x : Nat) : (s.setReads x).spsr = s.spsr := rfl
@[simp] theorem State.setReads_halted (x : Nat) : (s.setReads x).halted = s.halted := rfl
@[simp] theorem State.setReads_stopped (x : Nat) : (s.setReads x).stopped = s.stopped := rfl
@[simp] theorem State.setReads_cycles (x : Nat) : (s.setReads x).cycles = s.cycles := rfl
@[simp] theorem State.setReads_currentPc (x : Nat) : (s.setReads x).currentPc = s.currentPc := rfl
@[simp] theorem State.setReads_currentInstruction (x : Nat) : (s.setReads x).currentInstruction = s.currentInstruction := rfl
@[simp] theorem State.setReads_mem (x : Nat) : (s.setReads x).mem = s.mem := rfl
@[simp] theorem State.setReads_bus (x : Nat) : (s.setReads x).bus = s.bus := rfl
@[simp] theorem State.setReads_reads (x : Nat) : (s.setReads x).reads = x := rfl
@[simp] theorem State.setReads_accesses (x : Nat) : (s.setReads x).accesses = s.accesses := rfl
@[simp] theorem State.setReads_readPhys (x : Nat) (p : PhysReg) : (s.setReads x).readPhys p = s.readPhys p := by
  cases p <;> rfl
@[simp] theorem State.setReads_mode (x : Nat) : (s.setReads x).mode = s.mode := rfl
@[simp] theorem State.setReads_reg (x : Nat) (i : RegNum) : (s.setReads x).reg i = s.reg i := by
  simp [State.reg]

/-! ## `setAccesses` -/

@[simp] theorem State.setAccesses_common (x : List BusAccess) : (s.setAccesses x).common = s.common := rfl
@[simp] theorem State.setAccesses_r8to12Usr (x : List BusAccess) : (s.setAccesses x).r8to12Usr = s.r8to12Usr := rfl
@[simp] theorem State.setAccesses_r8to12Fiq (x : List BusAccess) : (s.setAccesses x).r8to12Fiq = s.r8to12Fiq := rfl
@[simp] theorem State.setAccesses_r13 (x : List BusAccess) : (s.setAccesses x).r13 = s.r13 := rfl
@[simp] theorem State.setAccesses_r14 (x : List BusAccess) : (s.setAccesses x).r14 = s.r14 := rfl
@[simp] theorem State.setAccesses_pc (x : List BusAccess) : (s.setAccesses x).pc = s.pc := rfl
@[simp] theorem State.setAccesses_cpsr (x : List BusAccess) : (s.setAccesses x).cpsr = s.cpsr := rfl
@[simp] theorem State.setAccesses_spsr (x : List BusAccess) : (s.setAccesses x).spsr = s.spsr := rfl
@[simp] theorem State.setAccesses_halted (x : List BusAccess) : (s.setAccesses x).halted = s.halted := rfl
@[simp] theorem State.setAccesses_stopped (x : List BusAccess) : (s.setAccesses x).stopped = s.stopped := rfl
@[simp] theorem State.setAccesses_cycles (x : List BusAccess) : (s.setAccesses x).cycles = s.cycles := rfl
@[simp] theorem State.setAccesses_currentPc (x : List BusAccess) : (s.setAccesses x).currentPc = s.currentPc := rfl
@[simp] theorem State.setAccesses_currentInstruction (x : List BusAccess) : (s.setAccesses x).currentInstruction = s.currentInstruction := rfl
@[simp] theorem State.setAccesses_mem (x : List BusAccess) : (s.setAccesses x).mem = s.mem := rfl
@[simp] theorem State.setAccesses_bus (x : List BusAccess) : (s.setAccesses x).bus = s.bus := rfl
@[simp] theorem State.setAccesses_reads (x : List BusAccess) : (s.setAccesses x).reads = s.reads := rfl
@[simp] theorem State.setAccesses_accesses (x : List BusAccess) : (s.setAccesses x).accesses = x := rfl
@[simp] theorem State.setAccesses_readPhys (x : List BusAccess) (p : PhysReg) : (s.setAccesses x).readPhys p = s.readPhys p := by
  cases p <;> rfl
@[simp] theorem State.setAccesses_mode (x : List BusAccess) : (s.setAccesses x).mode = s.mode := rfl
@[simp] theorem State.setAccesses_reg (x : List BusAccess) (i : RegNum) : (s.setAccesses x).reg i = s.reg i := by
  simp [State.reg]

/-! ## `setCurrentPc` -/

@[simp] theorem State.setCurrentPc_common (x : Word) : (s.setCurrentPc x).common = s.common := rfl
@[simp] theorem State.setCurrentPc_r8to12Usr (x : Word) : (s.setCurrentPc x).r8to12Usr = s.r8to12Usr := rfl
@[simp] theorem State.setCurrentPc_r8to12Fiq (x : Word) : (s.setCurrentPc x).r8to12Fiq = s.r8to12Fiq := rfl
@[simp] theorem State.setCurrentPc_r13 (x : Word) : (s.setCurrentPc x).r13 = s.r13 := rfl
@[simp] theorem State.setCurrentPc_r14 (x : Word) : (s.setCurrentPc x).r14 = s.r14 := rfl
@[simp] theorem State.setCurrentPc_pc (x : Word) : (s.setCurrentPc x).pc = s.pc := rfl
@[simp] theorem State.setCurrentPc_cpsr (x : Word) : (s.setCurrentPc x).cpsr = s.cpsr := rfl
@[simp] theorem State.setCurrentPc_spsr (x : Word) : (s.setCurrentPc x).spsr = s.spsr := rfl
@[simp] theorem State.setCurrentPc_halted (x : Word) : (s.setCurrentPc x).halted = s.halted := rfl
@[simp] theorem State.setCurrentPc_stopped (x : Word) : (s.setCurrentPc x).stopped = s.stopped := rfl
@[simp] theorem State.setCurrentPc_cycles (x : Word) : (s.setCurrentPc x).cycles = s.cycles := rfl
@[simp] theorem State.setCurrentPc_currentPc (x : Word) : (s.setCurrentPc x).currentPc = x := rfl
@[simp] theorem State.setCurrentPc_currentInstruction (x : Word) : (s.setCurrentPc x).currentInstruction = s.currentInstruction := rfl
@[simp] theorem State.setCurrentPc_mem (x : Word) : (s.setCurrentPc x).mem = s.mem := rfl
@[simp] theorem State.setCurrentPc_bus (x : Word) : (s.setCurrentPc x).bus = s.bus := rfl
@[simp] theorem State.setCurrentPc_reads (x : Word) : (s.setCurrentPc x).reads = s.reads := rfl
@[simp] theorem State.setCurrentPc_accesses (x : Word) : (s.setCurrentPc x).accesses = s.accesses := rfl
@[simp] theorem State.setCurrentPc_readPhys (x : Word) (p : PhysReg) : (s.setCurrentPc x).readPhys p = s.readPhys p := by
  cases p <;> rfl
@[simp] theorem State.setCurrentPc_mode (x : Word) : (s.setCurrentPc x).mode = s.mode := rfl
@[simp] theorem State.setCurrentPc_reg (x : Word) (i : RegNum) : (s.setCurrentPc x).reg i = s.reg i := by
  simp [State.reg]

/-! ## `setCurrentInstruction` -/

@[simp] theorem State.setCurrentInstruction_common (x : Word) : (s.setCurrentInstruction x).common = s.common := rfl
@[simp] theorem State.setCurrentInstruction_r8to12Usr (x : Word) : (s.setCurrentInstruction x).r8to12Usr = s.r8to12Usr := rfl
@[simp] theorem State.setCurrentInstruction_r8to12Fiq (x : Word) : (s.setCurrentInstruction x).r8to12Fiq = s.r8to12Fiq := rfl
@[simp] theorem State.setCurrentInstruction_r13 (x : Word) : (s.setCurrentInstruction x).r13 = s.r13 := rfl
@[simp] theorem State.setCurrentInstruction_r14 (x : Word) : (s.setCurrentInstruction x).r14 = s.r14 := rfl
@[simp] theorem State.setCurrentInstruction_pc (x : Word) : (s.setCurrentInstruction x).pc = s.pc := rfl
@[simp] theorem State.setCurrentInstruction_cpsr (x : Word) : (s.setCurrentInstruction x).cpsr = s.cpsr := rfl
@[simp] theorem State.setCurrentInstruction_spsr (x : Word) : (s.setCurrentInstruction x).spsr = s.spsr := rfl
@[simp] theorem State.setCurrentInstruction_halted (x : Word) : (s.setCurrentInstruction x).halted = s.halted := rfl
@[simp] theorem State.setCurrentInstruction_stopped (x : Word) : (s.setCurrentInstruction x).stopped = s.stopped := rfl
@[simp] theorem State.setCurrentInstruction_cycles (x : Word) : (s.setCurrentInstruction x).cycles = s.cycles := rfl
@[simp] theorem State.setCurrentInstruction_currentPc (x : Word) : (s.setCurrentInstruction x).currentPc = s.currentPc := rfl
@[simp] theorem State.setCurrentInstruction_currentInstruction (x : Word) : (s.setCurrentInstruction x).currentInstruction = x := rfl
@[simp] theorem State.setCurrentInstruction_mem (x : Word) : (s.setCurrentInstruction x).mem = s.mem := rfl
@[simp] theorem State.setCurrentInstruction_bus (x : Word) : (s.setCurrentInstruction x).bus = s.bus := rfl
@[simp] theorem State.setCurrentInstruction_reads (x : Word) : (s.setCurrentInstruction x).reads = s.reads := rfl
@[simp] theorem State.setCurrentInstruction_accesses (x : Word) : (s.setCurrentInstruction x).accesses = s.accesses := rfl
@[simp] theorem State.setCurrentInstruction_readPhys (x : Word) (p : PhysReg) : (s.setCurrentInstruction x).readPhys p = s.readPhys p := by
  cases p <;> rfl
@[simp] theorem State.setCurrentInstruction_mode (x : Word) : (s.setCurrentInstruction x).mode = s.mode := rfl
@[simp] theorem State.setCurrentInstruction_reg (x : Word) (i : RegNum) : (s.setCurrentInstruction x).reg i = s.reg i := by
  simp [State.reg]

/-! ## `setHalted` -/

@[simp] theorem State.setHalted_common (x : Bool) : (s.setHalted x).common = s.common := rfl
@[simp] theorem State.setHalted_r8to12Usr (x : Bool) : (s.setHalted x).r8to12Usr = s.r8to12Usr := rfl
@[simp] theorem State.setHalted_r8to12Fiq (x : Bool) : (s.setHalted x).r8to12Fiq = s.r8to12Fiq := rfl
@[simp] theorem State.setHalted_r13 (x : Bool) : (s.setHalted x).r13 = s.r13 := rfl
@[simp] theorem State.setHalted_r14 (x : Bool) : (s.setHalted x).r14 = s.r14 := rfl
@[simp] theorem State.setHalted_pc (x : Bool) : (s.setHalted x).pc = s.pc := rfl
@[simp] theorem State.setHalted_cpsr (x : Bool) : (s.setHalted x).cpsr = s.cpsr := rfl
@[simp] theorem State.setHalted_spsr (x : Bool) : (s.setHalted x).spsr = s.spsr := rfl
@[simp] theorem State.setHalted_halted (x : Bool) : (s.setHalted x).halted = x := rfl
@[simp] theorem State.setHalted_stopped (x : Bool) : (s.setHalted x).stopped = s.stopped := rfl
@[simp] theorem State.setHalted_cycles (x : Bool) : (s.setHalted x).cycles = s.cycles := rfl
@[simp] theorem State.setHalted_currentPc (x : Bool) : (s.setHalted x).currentPc = s.currentPc := rfl
@[simp] theorem State.setHalted_currentInstruction (x : Bool) : (s.setHalted x).currentInstruction = s.currentInstruction := rfl
@[simp] theorem State.setHalted_mem (x : Bool) : (s.setHalted x).mem = s.mem := rfl
@[simp] theorem State.setHalted_bus (x : Bool) : (s.setHalted x).bus = s.bus := rfl
@[simp] theorem State.setHalted_reads (x : Bool) : (s.setHalted x).reads = s.reads := rfl
@[simp] theorem State.setHalted_accesses (x : Bool) : (s.setHalted x).accesses = s.accesses := rfl
@[simp] theorem State.setHalted_readPhys (x : Bool) (p : PhysReg) : (s.setHalted x).readPhys p = s.readPhys p := by
  cases p <;> rfl
@[simp] theorem State.setHalted_mode (x : Bool) : (s.setHalted x).mode = s.mode := rfl
@[simp] theorem State.setHalted_reg (x : Bool) (i : RegNum) : (s.setHalted x).reg i = s.reg i := by
  simp [State.reg]

/-! ## `setStopped` -/

@[simp] theorem State.setStopped_common (x : Bool) : (s.setStopped x).common = s.common := rfl
@[simp] theorem State.setStopped_r8to12Usr (x : Bool) : (s.setStopped x).r8to12Usr = s.r8to12Usr := rfl
@[simp] theorem State.setStopped_r8to12Fiq (x : Bool) : (s.setStopped x).r8to12Fiq = s.r8to12Fiq := rfl
@[simp] theorem State.setStopped_r13 (x : Bool) : (s.setStopped x).r13 = s.r13 := rfl
@[simp] theorem State.setStopped_r14 (x : Bool) : (s.setStopped x).r14 = s.r14 := rfl
@[simp] theorem State.setStopped_pc (x : Bool) : (s.setStopped x).pc = s.pc := rfl
@[simp] theorem State.setStopped_cpsr (x : Bool) : (s.setStopped x).cpsr = s.cpsr := rfl
@[simp] theorem State.setStopped_spsr (x : Bool) : (s.setStopped x).spsr = s.spsr := rfl
@[simp] theorem State.setStopped_halted (x : Bool) : (s.setStopped x).halted = s.halted := rfl
@[simp] theorem State.setStopped_stopped (x : Bool) : (s.setStopped x).stopped = x := rfl
@[simp] theorem State.setStopped_cycles (x : Bool) : (s.setStopped x).cycles = s.cycles := rfl
@[simp] theorem State.setStopped_currentPc (x : Bool) : (s.setStopped x).currentPc = s.currentPc := rfl
@[simp] theorem State.setStopped_currentInstruction (x : Bool) : (s.setStopped x).currentInstruction = s.currentInstruction := rfl
@[simp] theorem State.setStopped_mem (x : Bool) : (s.setStopped x).mem = s.mem := rfl
@[simp] theorem State.setStopped_bus (x : Bool) : (s.setStopped x).bus = s.bus := rfl
@[simp] theorem State.setStopped_reads (x : Bool) : (s.setStopped x).reads = s.reads := rfl
@[simp] theorem State.setStopped_accesses (x : Bool) : (s.setStopped x).accesses = s.accesses := rfl
@[simp] theorem State.setStopped_readPhys (x : Bool) (p : PhysReg) : (s.setStopped x).readPhys p = s.readPhys p := by
  cases p <;> rfl
@[simp] theorem State.setStopped_mode (x : Bool) : (s.setStopped x).mode = s.mode := rfl
@[simp] theorem State.setStopped_reg (x : Bool) (i : RegNum) : (s.setStopped x).reg i = s.reg i := by
  simp [State.reg]

/-! ## `addCycles` -/

@[simp] theorem State.addCycles_common (x : Nat) : (s.addCycles x).common = s.common := rfl
@[simp] theorem State.addCycles_r8to12Usr (x : Nat) : (s.addCycles x).r8to12Usr = s.r8to12Usr := rfl
@[simp] theorem State.addCycles_r8to12Fiq (x : Nat) : (s.addCycles x).r8to12Fiq = s.r8to12Fiq := rfl
@[simp] theorem State.addCycles_r13 (x : Nat) : (s.addCycles x).r13 = s.r13 := rfl
@[simp] theorem State.addCycles_r14 (x : Nat) : (s.addCycles x).r14 = s.r14 := rfl
@[simp] theorem State.addCycles_pc (x : Nat) : (s.addCycles x).pc = s.pc := rfl
@[simp] theorem State.addCycles_cpsr (x : Nat) : (s.addCycles x).cpsr = s.cpsr := rfl
@[simp] theorem State.addCycles_spsr (x : Nat) : (s.addCycles x).spsr = s.spsr := rfl
@[simp] theorem State.addCycles_halted (x : Nat) : (s.addCycles x).halted = s.halted := rfl
@[simp] theorem State.addCycles_stopped (x : Nat) : (s.addCycles x).stopped = s.stopped := rfl
@[simp] theorem State.addCycles_cycles (x : Nat) : (s.addCycles x).cycles = s.cycles + x := rfl
@[simp] theorem State.addCycles_currentPc (x : Nat) : (s.addCycles x).currentPc = s.currentPc := rfl
@[simp] theorem State.addCycles_currentInstruction (x : Nat) : (s.addCycles x).currentInstruction = s.currentInstruction := rfl
@[simp] theorem State.addCycles_mem (x : Nat) : (s.addCycles x).mem = s.mem := rfl
@[simp] theorem State.addCycles_bus (x : Nat) : (s.addCycles x).bus = s.bus := rfl
@[simp] theorem State.addCycles_reads (x : Nat) : (s.addCycles x).reads = s.reads := rfl
@[simp] theorem State.addCycles_accesses (x : Nat) : (s.addCycles x).accesses = s.accesses := rfl
@[simp] theorem State.addCycles_readPhys (x : Nat) (p : PhysReg) : (s.addCycles x).readPhys p = s.readPhys p := by
  cases p <;> rfl
@[simp] theorem State.addCycles_mode (x : Nat) : (s.addCycles x).mode = s.mode := rfl
@[simp] theorem State.addCycles_reg (x : Nat) (i : RegNum) : (s.addCycles x).reg i = s.reg i := by
  simp [State.reg]

/-! ## `writePhys` -/

@[simp] theorem State.writePhys_cpsr (p : PhysReg) (v : Word) : (s.writePhys p v).cpsr = s.cpsr := by
  cases p <;> rfl
@[simp] theorem State.writePhys_spsr (p : PhysReg) (v : Word) : (s.writePhys p v).spsr = s.spsr := by
  cases p <;> rfl
@[simp] theorem State.writePhys_halted (p : PhysReg) (v : Word) : (s.writePhys p v).halted = s.halted := by
  cases p <;> rfl
@[simp] theorem State.writePhys_stopped (p : PhysReg) (v : Word) : (s.writePhys p v).stopped = s.stopped := by
  cases p <;> rfl
@[simp] theorem State.writePhys_cycles (p : PhysReg) (v : Word) : (s.writePhys p v).cycles = s.cycles := by
  cases p <;> rfl
@[simp] theorem State.writePhys_currentPc (p : PhysReg) (v : Word) : (s.writePhys p v).currentPc = s.currentPc := by
  cases p <;> rfl
@[simp] theorem State.writePhys_currentInstruction (p : PhysReg) (v : Word) : (s.writePhys p v).currentInstruction = s.currentInstruction := by
  cases p <;> rfl
@[simp] theorem State.writePhys_mem (p : PhysReg) (v : Word) : (s.writePhys p v).mem = s.mem := by
  cases p <;> rfl
@[simp] theorem State.writePhys_bus (p : PhysReg) (v : Word) : (s.writePhys p v).bus = s.bus := by
  cases p <;> rfl
@[simp] theorem State.writePhys_reads (p : PhysReg) (v : Word) : (s.writePhys p v).reads = s.reads := by
  cases p <;> rfl
@[simp] theorem State.writePhys_accesses (p : PhysReg) (v : Word) : (s.writePhys p v).accesses = s.accesses := by
  cases p <;> rfl
@[simp] theorem State.writePhys_mode (p : PhysReg) (v : Word) : (s.writePhys p v).mode = s.mode := by
  cases p <;> rfl

end Sys2Proof.Machine
end

