-- ==== Sys2Proof/Laws/Registers.lean ====
section
/-! SUPPORT. The register file: what each register access reads and writes. -/

namespace Sys2Proof.Machine

/-! ## Modes -/

@[simp] theorem Mode.ofBits?_toBits (m : Mode) : Mode.ofBits? m.toBits = some m := by cases m <;> decide

/-- A valid mode field is the field of the mode it names. -/
theorem Mode.toBits_of_ofBits? {b : BitVec 5} {m : Mode} (h : Mode.ofBits? b = some m) : m.toBits = b := by
  revert b m; decide

theorem State.mode_eq {s : State} {m : Mode} (h : Mode.ofBits? s.cpsr.m = some m) : s.mode = m := by
  simp [State.mode, h]

/-- The mode depends on the mode field alone. -/
theorem State.mode_congr {s t : State} (h : t.cpsr.m = s.cpsr.m) : t.mode = s.mode := by
  simp [State.mode, h]

@[simp] theorem State.mode_setCpsr (s : State) (p : Psr) : (s.setCpsr p).mode = (Mode.ofBits? p.m).getD .user := rfl

/-! ## Routes (R36) -/

@[simp] theorem route_15 (m : Mode) : route m 15#4 = .pc := by cases m <;> decide

@[simp] theorem route_14 (m : Mode) : route m 14#4 = .lr m.bankKey := by cases m <;> decide

@[simp] theorem route_13 (m : Mode) : route m 13#4 = .sp m.bankKey := by cases m <;> decide

/-- Only R15 reaches the PC. -/
theorem route_eq_pc (m : Mode) (i : RegNum) : route m i = .pc ↔ i = 15#4 := by
  revert m i
  have : ∀ m : Fin 7, ∀ i : BitVec 4, route ([Mode.user, .fiq, .irq, .supervisor, .abort, .undefined, .system][m]) i = .pc ↔ i = 15#4 := by
    decide
  intro m i
  cases m
  exacts [this 0 i, this 1 i, this 2 i, this 3 i, this 4 i, this 5 i, this 6 i]

/-- In one mode different registers reach different storage. -/
theorem route_inj (m : Mode) (i j : RegNum) : route m i = route m j ↔ i = j := by
  have : ∀ m : Fin 7, ∀ i j : BitVec 4,
      route ([Mode.user, .fiq, .irq, .supervisor, .abort, .undefined, .system][m]) i =
        route ([Mode.user, .fiq, .irq, .supervisor, .abort, .undefined, .system][m]) j ↔ i = j := by
    decide +kernel
  cases m
  exacts [this 0 i j, this 1 i j, this 2 i j, this 3 i j, this 4 i j, this 5 i j, this 6 i j]

/-- A low register is never R15. -/
theorem lowReg_ne_15 (i : LowReg) : lowReg i ≠ 15#4 := by revert i; decide

theorem lowReg_ne_13 (i : LowReg) : lowReg i ≠ 13#4 := by revert i; decide

theorem lowReg_ne_14 (i : LowReg) : lowReg i ≠ 14#4 := by revert i; decide

@[simp] theorem lowReg_eq_15 (i : LowReg) : (lowReg i = 15#4) = False := by simp [lowReg_ne_15]

theorem lowReg_inj (i j : LowReg) : lowReg i = lowReg j ↔ i = j := by revert i j; decide

/-- A low register is one of R0 to R7 in every mode. -/
theorem route_lowReg (m : Mode) (i : LowReg) : route m (lowReg i) = .common ⟨i.toNat, i.isLt⟩ := by
  have h : (lowReg i).toNat = i.toNat := by revert i; decide
  simp [route, h, i.isLt]

/-! ## Banks -/

@[simp] theorem Banked.get_set (x : Banked) (k j : BankKey) (v : Word) :
    (x.set k v).get j = if j = k then v else x.get j := by
  cases k <;> cases j <;> rfl

/-- Reading a physical register after writing one. -/
@[simp] theorem State.readPhys_writePhys (s : State) (p q : PhysReg) (v : Word) :
    (s.writePhys p v).readPhys q = if q = p then v else s.readPhys q := by
  cases p <;> cases q <;>
    simp [State.readPhys, State.writePhys, Vector.getElem_set, Fin.ext_iff, eq_comm]

@[simp] theorem Spsrs.get?_set (x : Spsrs) (m : Mode) (v : Psr) :
    (x.set m v).get? m = if m.hasSpsr then some v else none := by
  cases m <;> rfl

/-- A write of one mode's SPSR leaves the others. -/
theorem Spsrs.get?_set_of_ne (x : Spsrs) {m n : Mode} (v : Psr) (h : n ≠ m) : (x.set m v).get? n = x.get? n := by
  cases m <;> cases n <;> first | rfl | exact absurd rfl h

theorem Spsrs.get?_isSome (x : Spsrs) (m : Mode) : (x.get? m).isSome = m.hasSpsr := by cases m <;> rfl

/-! ## Register writes -/

/-- The value a register write stores: masked for R15 (R37). -/
def storedValue (s : State) (i : RegNum) (v : Word) : Word := if i = 15#4 then maskPc s.cpsr.t v else v

/-- A register write is a write of the storage it reaches. -/
theorem State.setReg_eq (s : State) (i : RegNum) (v : Word) :
    s.setReg i v = s.writePhys (route s.mode i) (storedValue s i v) := by
  unfold State.setReg storedValue State.setPc
  split
  · subst_vars; simp
  · rfl

/-- Every physical register after a register write. -/
@[simp] theorem State.readPhys_setReg (s : State) (i : RegNum) (v : Word) (q : PhysReg) :
    (s.setReg i v).readPhys q = if q = route s.mode i then storedValue s i v else s.readPhys q := by
  rw [State.setReg_eq, State.readPhys_writePhys]

@[simp] theorem State.readPhys_setPc (s : State) (v : Word) (q : PhysReg) :
    (s.setPc v).readPhys q = if q = .pc then maskPc s.cpsr.t v else s.readPhys q := by
  unfold State.setPc; rw [State.readPhys_writePhys]

@[simp] theorem State.setPc_pc (s : State) (v : Word) : (s.setPc v).pc = maskPc s.cpsr.t v := rfl

@[simp] theorem State.setReg_15 (s : State) (v : Word) : s.setReg 15#4 v = s.setPc v := rfl

@[simp] theorem storedValue_15 (s : State) (v : Word) : storedValue s 15#4 v = maskPc s.cpsr.t v := rfl

theorem storedValue_of_ne (s : State) {i : RegNum} (v : Word) (h : i ≠ 15#4) : storedValue s i v = v := if_neg h

@[simp] theorem storedValue_lowReg (s : State) (i : LowReg) (v : Word) : storedValue s (lowReg i) v = v :=
  storedValue_of_ne s v (lowReg_ne_15 i)

@[simp] theorem storedValue_14 (s : State) (v : Word) : storedValue s 14#4 v = v := rfl

@[simp] theorem storedValue_13 (s : State) (v : Word) : storedValue s 13#4 v = v := rfl

/-- The PC after a register write. -/
theorem State.setReg_pc (s : State) (i : RegNum) (v : Word) :
    (s.setReg i v).pc = if i = 15#4 then maskPc s.cpsr.t v else s.pc := by
  have h := State.readPhys_setReg s i v .pc
  have hp : ∀ x : State, x.readPhys .pc = x.pc := fun _ => rfl
  rw [hp, hp] at h
  rw [h]
  by_cases h15 : i = 15#4
  · simp [h15]
  · rw [if_neg h15, if_neg (fun e => h15 ((route_eq_pc _ _).1 e.symm))]

/-- Reading a register after writing one, in the same mode. -/
theorem State.reg_setReg (s : State) (i j : RegNum) (v : Word) :
    (s.setReg i v).reg j = if j = i then storedValue s i v else s.reg j := by
  have hm : (s.setReg i v).mode = s.mode := by rw [State.setReg_eq, State.writePhys_mode]
  simp only [State.reg, hm, State.readPhys_setReg, route_inj]

theorem State.setUserReg_eq (s : State) (i : RegNum) (v : Word) :
    s.setUserReg i v = s.writePhys (route .user i) (storedValue s i v) := by
  unfold State.setUserReg storedValue State.setPc
  split
  · subst_vars; simp
  · rfl

@[simp] theorem State.readPhys_setUserReg (s : State) (i : RegNum) (v : Word) (q : PhysReg) :
    (s.setUserReg i v).readPhys q = if q = route .user i then storedValue s i v else s.readPhys q := by
  rw [State.setUserReg_eq, State.readPhys_writePhys]

@[simp] theorem State.setReg_cpsr (s : State) (i : RegNum) (v : Word) : (s.setReg i v).cpsr = s.cpsr := by
  rw [State.setReg_eq]; simp
@[simp] theorem State.setReg_spsr (s : State) (i : RegNum) (v : Word) : (s.setReg i v).spsr = s.spsr := by
  rw [State.setReg_eq]; simp
@[simp] theorem State.setReg_halted (s : State) (i : RegNum) (v : Word) : (s.setReg i v).halted = s.halted := by
  rw [State.setReg_eq]; simp
@[simp] theorem State.setReg_stopped (s : State) (i : RegNum) (v : Word) : (s.setReg i v).stopped = s.stopped := by
  rw [State.setReg_eq]; simp
@[simp] theorem State.setReg_cycles (s : State) (i : RegNum) (v : Word) : (s.setReg i v).cycles = s.cycles := by
  rw [State.setReg_eq]; simp
@[simp] theorem State.setReg_currentPc (s : State) (i : RegNum) (v : Word) : (s.setReg i v).currentPc = s.currentPc := by
  rw [State.setReg_eq]; simp
@[simp] theorem State.setReg_currentInstruction (s : State) (i : RegNum) (v : Word) : (s.setReg i v).currentInstruction = s.currentInstruction := by
  rw [State.setReg_eq]; simp
@[simp] theorem State.setReg_mem (s : State) (i : RegNum) (v : Word) : (s.setReg i v).mem = s.mem := by
  rw [State.setReg_eq]; simp
@[simp] theorem State.setReg_bus (s : State) (i : RegNum) (v : Word) : (s.setReg i v).bus = s.bus := by
  rw [State.setReg_eq]; simp
@[simp] theorem State.setReg_reads (s : State) (i : RegNum) (v : Word) : (s.setReg i v).reads = s.reads := by
  rw [State.setReg_eq]; simp
@[simp] theorem State.setReg_accesses (s : State) (i : RegNum) (v : Word) : (s.setReg i v).accesses = s.accesses := by
  rw [State.setReg_eq]; simp
@[simp] theorem State.setReg_mode (s : State) (i : RegNum) (v : Word) : (s.setReg i v).mode = s.mode := by
  rw [State.setReg_eq]; simp

@[simp] theorem State.setUserReg_cpsr (s : State) (i : RegNum) (v : Word) : (s.setUserReg i v).cpsr = s.cpsr := by
  rw [State.setUserReg_eq]; simp
@[simp] theorem State.setUserReg_spsr (s : State) (i : RegNum) (v : Word) : (s.setUserReg i v).spsr = s.spsr := by
  rw [State.setUserReg_eq]; simp
@[simp] theorem State.setUserReg_halted (s : State) (i : RegNum) (v : Word) : (s.setUserReg i v).halted = s.halted := by
  rw [State.setUserReg_eq]; simp
@[simp] theorem State.setUserReg_stopped (s : State) (i : RegNum) (v : Word) : (s.setUserReg i v).stopped = s.stopped := by
  rw [State.setUserReg_eq]; simp
@[simp] theorem State.setUserReg_cycles (s : State) (i : RegNum) (v : Word) : (s.setUserReg i v).cycles = s.cycles := by
  rw [State.setUserReg_eq]; simp
@[simp] theorem State.setUserReg_currentPc (s : State) (i : RegNum) (v : Word) : (s.setUserReg i v).currentPc = s.currentPc := by
  rw [State.setUserReg_eq]; simp
@[simp] theorem State.setUserReg_currentInstruction (s : State) (i : RegNum) (v : Word) : (s.setUserReg i v).currentInstruction = s.currentInstruction := by
  rw [State.setUserReg_eq]; simp
@[simp] theorem State.setUserReg_mem (s : State) (i : RegNum) (v : Word) : (s.setUserReg i v).mem = s.mem := by
  rw [State.setUserReg_eq]; simp
@[simp] theorem State.setUserReg_bus (s : State) (i : RegNum) (v : Word) : (s.setUserReg i v).bus = s.bus := by
  rw [State.setUserReg_eq]; simp
@[simp] theorem State.setUserReg_reads (s : State) (i : RegNum) (v : Word) : (s.setUserReg i v).reads = s.reads := by
  rw [State.setUserReg_eq]; simp
@[simp] theorem State.setUserReg_accesses (s : State) (i : RegNum) (v : Word) : (s.setUserReg i v).accesses = s.accesses := by
  rw [State.setUserReg_eq]; simp
@[simp] theorem State.setUserReg_mode (s : State) (i : RegNum) (v : Word) : (s.setUserReg i v).mode = s.mode := by
  rw [State.setUserReg_eq]; simp

@[simp] theorem State.setPc_cpsr (s : State) (v : Word) : (s.setPc v).cpsr = s.cpsr := by
  unfold State.setPc; simp
@[simp] theorem State.setPc_spsr (s : State) (v : Word) : (s.setPc v).spsr = s.spsr := by
  unfold State.setPc; simp
@[simp] theorem State.setPc_halted (s : State) (v : Word) : (s.setPc v).halted = s.halted := by
  unfold State.setPc; simp
@[simp] theorem State.setPc_stopped (s : State) (v : Word) : (s.setPc v).stopped = s.stopped := by
  unfold State.setPc; simp
@[simp] theorem State.setPc_cycles (s : State) (v : Word) : (s.setPc v).cycles = s.cycles := by
  unfold State.setPc; simp
@[simp] theorem State.setPc_currentPc (s : State) (v : Word) : (s.setPc v).currentPc = s.currentPc := by
  unfold State.setPc; simp
@[simp] theorem State.setPc_currentInstruction (s : State) (v : Word) : (s.setPc v).currentInstruction = s.currentInstruction := by
  unfold State.setPc; simp
@[simp] theorem State.setPc_mem (s : State) (v : Word) : (s.setPc v).mem = s.mem := by
  unfold State.setPc; simp
@[simp] theorem State.setPc_bus (s : State) (v : Word) : (s.setPc v).bus = s.bus := by
  unfold State.setPc; simp
@[simp] theorem State.setPc_reads (s : State) (v : Word) : (s.setPc v).reads = s.reads := by
  unfold State.setPc; simp
@[simp] theorem State.setPc_accesses (s : State) (v : Word) : (s.setPc v).accesses = s.accesses := by
  unfold State.setPc; simp
@[simp] theorem State.setPc_mode (s : State) (v : Word) : (s.setPc v).mode = s.mode := by
  unfold State.setPc; simp

end Sys2Proof.Machine
end

