-- ==== Sys2Proof/Laws/Ops.lean ====
section
/-! SUPPORT. One lemma for each shared operation that says everything it does, for later proofs to cite instead of
unfolding it. -/

namespace Sys2Proof.Machine

/-! ## Ending an ARM instruction -/

theorem armInstr_passed {c : Cond} {s : State} (f : State → State) (h : condPassed s.cpsr c = true) :
    armInstr c f s = .next (f s) := by simp [armInstr, h]

theorem armInstr_failed {c : Cond} {s : State} (f : State → State) (h : condPassed s.cpsr c = false) :
    armInstr c f s = .next (s.addCycles 1) := by simp [armInstr, h]

/-- An ARM instruction always completes, as its effect or as one cycle. -/
theorem armInstr_cases (c : Cond) (f : State → State) (s : State) :
    condPassed s.cpsr c = true ∧ armInstr c f s = .next (f s) ∨
      condPassed s.cpsr c = false ∧ armInstr c f s = .next (s.addCycles 1) := by
  cases h : condPassed s.cpsr c
  · exact .inr ⟨rfl, armInstr_failed f h⟩
  · exact .inl ⟨rfl, armInstr_passed f h⟩

/-! ## The bus -/

/-- The record of a read (R103). -/
def readRecord (s : State) (w : Width) (addr : Word) : BusAccess :=
  ⟨.read, w, align w addr, s.busRead w (align w addr)⟩

/-- The state after the reads `l`: each recorded, each counted. -/
def State.afterReads (s : State) (l : List BusAccess) : State :=
  (s.setReads (s.reads + l.length)).setAccesses (s.accesses ++ l)

@[simp] theorem State.afterReads_common (s : State) (l : List BusAccess) : (s.afterReads l).common = s.common := rfl
@[simp] theorem State.afterReads_r8to12Usr (s : State) (l : List BusAccess) : (s.afterReads l).r8to12Usr = s.r8to12Usr := rfl
@[simp] theorem State.afterReads_r8to12Fiq (s : State) (l : List BusAccess) : (s.afterReads l).r8to12Fiq = s.r8to12Fiq := rfl
@[simp] theorem State.afterReads_r13 (s : State) (l : List BusAccess) : (s.afterReads l).r13 = s.r13 := rfl
@[simp] theorem State.afterReads_r14 (s : State) (l : List BusAccess) : (s.afterReads l).r14 = s.r14 := rfl
@[simp] theorem State.afterReads_pc (s : State) (l : List BusAccess) : (s.afterReads l).pc = s.pc := rfl
@[simp] theorem State.afterReads_cpsr (s : State) (l : List BusAccess) : (s.afterReads l).cpsr = s.cpsr := rfl
@[simp] theorem State.afterReads_spsr (s : State) (l : List BusAccess) : (s.afterReads l).spsr = s.spsr := rfl
@[simp] theorem State.afterReads_halted (s : State) (l : List BusAccess) : (s.afterReads l).halted = s.halted := rfl
@[simp] theorem State.afterReads_stopped (s : State) (l : List BusAccess) : (s.afterReads l).stopped = s.stopped := rfl
@[simp] theorem State.afterReads_cycles (s : State) (l : List BusAccess) : (s.afterReads l).cycles = s.cycles := rfl
@[simp] theorem State.afterReads_currentPc (s : State) (l : List BusAccess) : (s.afterReads l).currentPc = s.currentPc := rfl
@[simp] theorem State.afterReads_currentInstruction (s : State) (l : List BusAccess) : (s.afterReads l).currentInstruction = s.currentInstruction := rfl
@[simp] theorem State.afterReads_mem (s : State) (l : List BusAccess) : (s.afterReads l).mem = s.mem := rfl
@[simp] theorem State.afterReads_bus (s : State) (l : List BusAccess) : (s.afterReads l).bus = s.bus := rfl
@[simp] theorem State.afterReads_reads (s : State) (l : List BusAccess) : (s.afterReads l).reads = s.reads + l.length := rfl
@[simp] theorem State.afterReads_accesses (s : State) (l : List BusAccess) : (s.afterReads l).accesses = s.accesses ++ l := rfl
@[simp] theorem State.afterReads_mode (s : State) (l : List BusAccess) : (s.afterReads l).mode = s.mode := rfl
@[simp] theorem State.afterReads_readPhys (s : State) (l : List BusAccess) (p : PhysReg) :
    (s.afterReads l).readPhys p = s.readPhys p := by simp [State.afterReads]
@[simp] theorem State.afterReads_reg (s : State) (l : List BusAccess) (i : RegNum) : (s.afterReads l).reg i = s.reg i := by
  simp [State.afterReads]
@[simp] theorem State.afterReads_nil (s : State) : s.afterReads [] = s := by
  simp [State.afterReads, State.setReads, State.setAccesses]
theorem State.afterReads_append (s : State) (l l' : List BusAccess) :
    (s.afterReads l).afterReads l' = s.afterReads (l ++ l') := by
  simp [State.afterReads, State.setReads, State.setAccesses, Nat.add_assoc]

/-- A read gives what the bus gives at the aligned address, and records and counts itself; nothing else changes. -/
theorem State.memRead_eq (s : State) (w : Width) (addr : Word) :
    s.memRead w addr = (s.busRead w (align w addr), s.afterReads [readRecord s w addr]) := rfl

@[simp] theorem State.memRead_fst (s : State) (w : Width) (addr : Word) :
    (s.memRead w addr).1 = s.busRead w (align w addr) := rfl

@[simp] theorem State.memRead_snd (s : State) (w : Width) (addr : Word) :
    (s.memRead w addr).2 = s.afterReads [readRecord s w addr] := rfl

/-- A value written where the platform keeps it is what the next read there gives. -/
theorem State.busRead_store {s : State} {w : Width} {a : Word} (v : Word) (h : (s.bus.writeHome a).isSome = true) :
    (s.setMem (s.bus.store s.mem w a v)).busRead w a = busValue w v := by
  obtain ⟨home, hh⟩ := Option.isSome_iff_exists.1 h
  simp only [State.busRead, State.setMem_bus, Bus.readHome_of_writeHome hh, State.setMem_mem, Bus.store_home v hh,
    Memory.load_store]

/-- Every access of the list is a read. -/
theorem countP_reads {l : List BusAccess} (h : ∀ a, a ∈ l → a.kind = .read) :
    (l.countP fun a => a.kind == .read) = l.length := by
  rw [List.countP_eq_length]
  intro a ha
  simp [h a ha]

/-- Reads done are accesses made. -/
theorem Accessed.afterReads {s t : State} {l : List BusAccess} (h : ∀ a, a ∈ l → a.kind = .read)
    (ha : t.accesses = s.accesses ++ l) (hr : t.reads = s.reads + l.length) : Accessed l s t :=
  ⟨ha, by rw [hr, countP_reads h]⟩

/-- Writes done are accesses made, and no read. -/
theorem Accessed.writes {s t : State} {l : List BusAccess} (h : ∀ a, a ∈ l → a.kind = .write)
    (ha : t.accesses = s.accesses ++ l) (hr : t.reads = s.reads) : Accessed l s t := by
  refine ⟨ha, ?_⟩
  have : (l.countP fun a => a.kind == .read) = 0 := by
    rw [List.countP_eq_zero]; intro a hm; simp [h a hm]
  rw [hr, this]; rfl

/-- The bus value is the value masked to the width. -/
theorem busValue_eq (w : Width) (v : Word) :
    busValue w v = v &&& (match w with | .byte => 0xFF#32 | .half => 0xFFFF#32 | .word => 0xFFFFFFFF#32) := by
  apply BitVec.eq_of_getLsbD_eq
  intro k hk
  have h8 : ∀ k : Fin 32, (0xFF#32).getLsbD k = decide (k.val < 8) ∧ (0xFFFF#32).getLsbD k = decide (k.val < 16) ∧
      (0xFFFFFFFF#32).getLsbD k = true := by decide
  obtain ⟨a, b, c⟩ := h8 ⟨k, hk⟩
  cases w <;> simp_all [busValue, Bool.and_comm]

/-- A write stores at the aligned address and records itself; nothing else changes. -/
theorem State.memWrite_eq (s : State) (w : Width) (addr v : Word) :
    s.memWrite w addr v =
      (s.setMem (s.bus.store s.mem w (align w addr) v)).setAccesses
        (s.accesses ++ [⟨.write, w, align w addr, busValue w v⟩]) := rfl

@[simp] theorem State.memWrite_mem (s : State) (w : Width) (addr v : Word) :
    (s.memWrite w addr v).mem = s.bus.store s.mem w (align w addr) v := rfl

@[simp] theorem State.memWrite_bus (s : State) (w : Width) (addr v : Word) : (s.memWrite w addr v).bus = s.bus := rfl
@[simp] theorem State.memWrite_reads (s : State) (w : Width) (addr v : Word) : (s.memWrite w addr v).reads = s.reads := rfl

@[simp] theorem State.memWrite_accesses (s : State) (w : Width) (addr v : Word) :
    (s.memWrite w addr v).accesses = s.accesses ++ [⟨.write, w, align w addr, busValue w v⟩] := rfl

@[simp] theorem State.memWrite_readPhys (s : State) (w : Width) (addr v : Word) (p : PhysReg) :
    (s.memWrite w addr v).readPhys p = s.readPhys p := by rw [State.memWrite_eq]; simp

@[simp] theorem State.memWrite_reg (s : State) (w : Width) (addr v : Word) (i : RegNum) :
    (s.memWrite w addr v).reg i = s.reg i := by rw [State.memWrite_eq]; simp

@[simp] theorem State.memWrite_pc (s : State) (w : Width) (addr v : Word) : (s.memWrite w addr v).pc = s.pc := rfl
@[simp] theorem State.memWrite_cpsr (s : State) (w : Width) (addr v : Word) : (s.memWrite w addr v).cpsr = s.cpsr := rfl
@[simp] theorem State.memWrite_spsr (s : State) (w : Width) (addr v : Word) : (s.memWrite w addr v).spsr = s.spsr := rfl
@[simp] theorem State.memWrite_halted (s : State) (w : Width) (addr v : Word) : (s.memWrite w addr v).halted = s.halted := rfl
@[simp] theorem State.memWrite_stopped (s : State) (w : Width) (addr v : Word) : (s.memWrite w addr v).stopped = s.stopped := rfl
@[simp] theorem State.memWrite_cycles (s : State) (w : Width) (addr v : Word) : (s.memWrite w addr v).cycles = s.cycles := rfl
@[simp] theorem State.memWrite_currentPc (s : State) (w : Width) (addr v : Word) : (s.memWrite w addr v).currentPc = s.currentPc := rfl
@[simp] theorem State.memWrite_currentInstruction (s : State) (w : Width) (addr v : Word) : (s.memWrite w addr v).currentInstruction = s.currentInstruction := rfl
@[simp] theorem State.memWrite_mode (s : State) (w : Width) (addr v : Word) : (s.memWrite w addr v).mode = s.mode := rfl

/-! ## Status and mode -/

theorem mergeMode_of_valid {old new : Psr} (h : (Mode.ofBits? new.m).isSome = true) : mergeMode old new = new := by
  simp [mergeMode, h]

theorem mergeMode_of_invalid {old new : Psr} (h : (Mode.ofBits? new.m).isSome = false) :
    mergeMode old new = new.setM old.m := by simp [mergeMode, h]

/-- The mode field after a whole status word was written (R41). -/
theorem mergeMode_m (old new : Psr) :
    (mergeMode old new).m = if (Mode.ofBits? new.m).isSome then new.m else old.m := by
  unfold mergeMode; split <;> simp

/-- A whole status word written over a valid mode leaves a valid mode (R41). -/
theorem mergeMode_valid {old : Psr} (new : Psr) (h : (Mode.ofBits? old.m).isSome = true) :
    (Mode.ofBits? (mergeMode old new).m).isSome = true := by
  rw [mergeMode_m]; split <;> assumption

/-- A switch to a named mode (R47). -/
theorem State.switchMode_toBits (s : State) (m : Mode) (save : Bool) :
    s.switchMode m.toBits save =
      (if save then s.setSpsrs (s.spsr.set m s.cpsr) else s).setCpsr (s.cpsr.setM m.toBits) := by
  simp [State.switchMode]

/-- A switch to an invalid mode value has no effect (R47). -/
theorem State.switchMode_invalid (s : State) {b : BitVec 5} (save : Bool) (h : (Mode.ofBits? b).isSome = false) :
    s.switchMode b save = s := by
  unfold State.switchMode
  split
  · rfl
  · simp_all

/-- What a mode switch without a save writes: the mode field, where the value is valid. -/
theorem State.switchMode_false (s : State) (b : BitVec 5) :
    s.switchMode b false = s.setCpsr (if (Mode.ofBits? b).isSome then s.cpsr.setM b else s.cpsr) := by
  unfold State.switchMode
  split
  · simp_all; rfl
  · simp_all

/-- The restore writes CPSR alone (R48, R49). -/
theorem State.restoreCpsr_eq (s : State) :
    s.restoreCpsr = s.setCpsr (match s.spsr.get? s.mode with | none => s.cpsr | some p => mergeMode s.cpsr p) := by
  unfold State.restoreCpsr
  cases s.spsr.get? s.mode <;> rfl

/-! ## Exceptions -/

@[simp] theorem entryPsr_t (p : Psr) (vector : Word) (m : Mode) : (entryPsr p vector m).t = false := by
  simp [entryPsr]

@[simp] theorem entryPsr_i (p : Psr) (vector : Word) (m : Mode) : (entryPsr p vector m).i = true := by
  unfold entryPsr; split <;> simp

theorem entryPsr_f (p : Psr) (vector : Word) (m : Mode) :
    (entryPsr p vector m).f = if m = .fiq ∨ vector = 0x00000000#32 then true else p.f := by
  unfold entryPsr; split <;> simp

@[simp] theorem entryPsr_m (p : Psr) (vector : Word) (m : Mode) : (entryPsr p vector m).m = p.m := by
  unfold entryPsr; split <;> simp

/-- An entry writes I, F and T of the control byte and nothing above it. -/
theorem entryPsr_upper (p : Psr) (vector : Word) (m : Mode) (k : Nat) (h : 8 ≤ k) :
    (entryPsr p vector m).getLsbD k = p.getLsbD k := by
  unfold entryPsr
  split <;> simp only [Psr.setI, Psr.setF, Psr.setT] <;>
    rw [Psr.getLsbD_setBit _ _ _ _ (by decide), if_neg (by omega)]
  · rw [Psr.getLsbD_setBit _ _ _ _ (by decide), if_neg (by omega), Psr.getLsbD_setBit _ _ _ _ (by decide),
      if_neg (by omega)]
  · rw [Psr.getLsbD_setBit _ _ _ _ (by decide), if_neg (by omega)]

/-- Taking an exception as one update (R706): the SPSR, CPSR, LR of the new mode, PC. -/
theorem State.takeException_eq (s : State) (vector : Word) (m : Mode) :
    s.takeException vector m =
      (((s.setSpsrs (s.spsr.set m s.cpsr)).setCpsr (entryPsr (s.cpsr.setM m.toBits) vector m)).writePhys
        (.lr m.bankKey) s.pc).writePhys .pc (maskPc false vector) := by
  unfold State.takeException
  simp only [State.switchMode_toBits, if_true, State.setReg_eq, State.mode_setCpsr, State.setCpsr_cpsr, entryPsr_m,
    Psr.m_setM, Mode.ofBits?_toBits, Option.getD_some, route_14, route_15, storedValue_14, storedValue_15,
    State.writePhys_mode, State.writePhys_cpsr, entryPsr_t]
  rfl

/-! ## Data processing and multiplies -/

/-- The end of an opcode with Rd below R15. -/
theorem dpWrite_of_ne (sf : Bool) {rd : RegNum} (o : DpOutcome) (s : State) (h : rd ≠ 15#4) :
    dpWrite sf rd o s = ((s.setReg rd o.value).setCpsr (if sf then o.psr else s.cpsr)).addCycles 1 := by
  simp [dpWrite, h]

/-- The end of an opcode with Rd = R15. -/
theorem dpWrite_15 (sf : Bool) (o : DpOutcome) (s : State) :
    dpWrite sf 15#4 o s = ((if sf then s.restoreCpsr else s).setPc o.value).addCycles 3 := rfl

/-! ## Loads -/

/-- The value a load gives, from the state and address alone. -/
def loadedValue (s : State) : LoadKind → Word → Word
  | .word, addr => ror32 (s.busRead .word (align .word addr)) (8 * (addr &&& 3#32).toNat)
  | .byte, addr => s.busRead .byte addr
  | .half, addr =>
    if addr.getLsbD 0 then ror32 (s.busRead .half (align .half addr)) 8 else s.busRead .half (align .half addr)
  | .signedByte, addr => (bits (s.busRead .byte addr) 0 8).signExtend 32
  | .signedHalf, addr =>
    if addr.getLsbD 0 then (bits (s.busRead .byte addr) 0 8).signExtend 32
    else (bits (s.busRead .half (align .half addr)) 0 16).signExtend 32

/-- The width a load reads. -/
def loadWidth : LoadKind → Word → Width
  | .word, _ => .word
  | .byte, _ => .byte
  | .half, _ => .half
  | .signedByte, _ => .byte
  | .signedHalf, addr => if addr.getLsbD 0 then .byte else .half

/-- A load gives the value, records and counts one read of the right width, and changes nothing else. -/
theorem State.loadValue_eq (s : State) (k : LoadKind) (addr : Word) :
    s.loadValue k addr = (loadedValue s k addr, s.afterReads [readRecord s (loadWidth k addr) addr]) := by
  cases k with
  | word => rfl
  | byte => rfl
  | half => rfl
  | signedByte => rfl
  | signedHalf =>
    simp only [State.loadValue, loadedValue, loadWidth]
    split <;> rfl

end Sys2Proof.Machine
end

