-- ==== Sys2Proof/Laws/Blocks.lean ====
section
/-! SUPPORT. Blocks of words: the addresses of their words, what a block of stores leaves in memory, what a block of
loads gives, and the order of the registers of a list. -/

namespace Sys2Proof.Machine

/-! ## Register lists -/

theorem mem_listRegs {n : Nat} (hn : n ≤ 16) (list : BitVec n) (i : RegNum) :
    i ∈ listRegs list ↔ list.getLsbD i.toNat = true := by
  unfold listRegs
  simp only [List.mem_map, List.mem_filter, List.mem_range]
  constructor
  · rintro ⟨k, ⟨hk, hb⟩, rfl⟩
    rwa [BitVec.toNat_ofNat, Nat.mod_eq_of_lt (by omega)]
  · intro h
    have hi : i.toNat < n := by
      by_contra hc
      rw [BitVec.getLsbD_of_ge _ _ (by omega)] at h
      exact absurd h (by decide)
    exact ⟨i.toNat, ⟨hi, h⟩, by simp⟩

theorem listRegs_ascending {n : Nat} (hn : n ≤ 16) (list : BitVec n) :
    (listRegs list).Pairwise (fun i j => i.toNat < j.toNat) := by
  unfold listRegs
  rw [List.pairwise_map]
  refine List.Pairwise.imp_of_mem ?_ (List.Pairwise.filter _ List.pairwise_lt_range)
  intro a b ha hb hab
  have h1 := List.mem_range.1 (List.mem_filter.1 ha).1
  have h2 := List.mem_range.1 (List.mem_filter.1 hb).1
  simp only [BitVec.toNat_ofNat]
  omega

theorem listRegs_length {n : Nat} (list : BitVec n) : (listRegs list).length = listCount list := by
  simp [listRegs, listCount]

theorem listCount_le {n : Nat} (list : BitVec n) : listCount list ≤ n := by
  unfold listCount
  exact (List.length_filter_le _ _).trans (by simp)

/-- Ascending registers are different. -/
theorem nodup_of_ascending {l : List RegNum} (h : l.Pairwise (fun i j => i.toNat < j.toNat)) : l.Nodup :=
  h.imp (fun hab e => by subst e; omega)

theorem blockRegs_ascending (list : BitVec 16) : (blockRegs list).Pairwise (fun i j => i.toNat < j.toNat) := by
  unfold blockRegs
  split
  · simp
  · exact listRegs_ascending (by decide) list

theorem mem_blockRegs {list : BitVec 16} (h : list ≠ 0#16) (i : RegNum) :
    i ∈ blockRegs list ↔ list.getLsbD i.toNat = true := by
  rw [blockRegs, if_neg h]
  exact mem_listRegs (by decide) list i

/-- R15 is transferred exactly when `loadsPc` holds: it is listed or the list is empty. -/
theorem mem_blockRegs_15 (list : BitVec 16) :
    (15#4 ∈ blockRegs list) ↔ (list.getLsbD 15 = true ∨ list = 0#16) := by
  by_cases h : list = 0#16
  · simp [h, blockRegs]
  · rw [mem_blockRegs h]; simp [h]

theorem blockRegs_length (list : BitVec 16) : (blockRegs list).length ≤ 16 := by
  unfold blockRegs
  split
  · simp
  · rw [listRegs_length]; exact listCount_le list

/-- A list with no register is the zero list. -/
theorem listCount_eq_zero {n : Nat} (list : BitVec n) : listCount list = 0 ↔ list = 0#n := by
  unfold listCount
  rw [List.length_eq_zero_iff, List.filter_eq_nil_iff]
  constructor
  · intro h
    apply BitVec.eq_of_getLsbD_eq
    intro k hk
    have := h k (List.mem_range.2 hk)
    simpa using this
  · rintro rfl k _
    simp

/-- The lowest register of a list is the one with none below it. -/
theorem head?_ne_iff {l : List RegNum} (hl : l.Pairwise (fun i j => i.toNat < j.toNat)) {i : RegNum} (hi : i ∈ l) :
    l.head? ≠ some i ↔ ∃ j, j ∈ l ∧ j.toNat < i.toNat := by
  cases l with
  | nil => simp at hi
  | cons x xs =>
    have hx := (List.pairwise_cons.1 hl).1
    simp only [List.head?_cons, ne_eq, Option.some.injEq, List.mem_cons, exists_eq_or_imp]
    constructor
    · intro hne
      rcases List.mem_cons.1 hi with rfl | h
      · exact absurd rfl hne
      · exact .inl (hx i h)
    · rintro (h | ⟨j, hj, h⟩) rfl
      · exact absurd h (Nat.lt_irrefl _)
      · exact absurd (hx j hj) (by omega)

/-! ## Word addresses -/

theorem wordsSize_zero : wordsSize 0 = 0#32 := rfl

theorem wordsSize_succ (n : Nat) (a : Word) : a + wordsSize (n + 1) = a + 4 + wordsSize n := by
  apply BitVec.eq_of_toNat_eq
  simp only [wordsSize, BitVec.toNat_add, BitVec.toNat_ofNat, Nat.mul_add, show (4 : Word).toNat = 4 from rfl]
  omega

/-- Aligning down to a word drops the remainder by 4. -/
theorem align_word_toNat (a : Word) : (align .word a).toNat = 4 * (a.toNat / 4) := by
  have h : align .word a = (a >>> 2) <<< 2 := by
    apply BitVec.eq_of_getLsbD_eq
    intro k hk
    have : ∀ j : Fin 32, (0xFFFFFFFC#32).getLsbD j = decide (2 ≤ j.val) := by decide
    have h2 := this ⟨k, hk⟩
    simp only at h2
    simp only [align, BitVec.getLsbD_and, h2, BitVec.getLsbD_shiftLeft, BitVec.getLsbD_ushiftRight, hk, decide_true,
      Bool.true_and]
    by_cases hk2 : 2 ≤ k
    · simp [hk2, show ¬ k < 2 from by omega, show 2 + (k - 2) = k from by omega]
    · simp [hk2, show k < 2 from by omega]
  rw [h, BitVec.toNat_shiftLeft, BitVec.toNat_ushiftRight, Nat.shiftLeft_eq, Nat.shiftRight_eq_div_pow]
  have := a.isLt
  omega

/-- Byte `k` of word `j` of a block that starts at `a`. -/
theorem wordByte_toNat (a : Word) (j k : Nat) (hk : k < 4) :
    (align .word (a + wordsSize j) + BitVec.ofNat 32 k).toNat = 4 * ((a.toNat / 4 + j) % 2 ^ 30) + k := by
  rw [BitVec.toNat_add, align_word_toNat, BitVec.toNat_ofNat, wordsSize, BitVec.toNat_add, BitVec.toNat_ofNat]
  have := a.isLt
  omega

/-! ## Stores -/

/-- The memory a block of stores leaves. -/
def blockMem (b : Bus) (value : RegNum → Word) : List RegNum → Word → Memory → Memory
  | [], _, m => m
  | i :: is, a, m => blockMem b value is (a + 4) (b.store m .word (align .word a) (value i))

/-- The writes it records. -/
def blockWrites (value : RegNum → Word) : List RegNum → Word → List BusAccess
  | [], _ => []
  | i :: is, a => ⟨.write, .word, align .word a, value i⟩ :: blockWrites value is (a + 4)

/-- A block of stores writes memory and the record of accesses, nothing else. -/
theorem writeBlock_eq (value : RegNum → Word) (regs : List RegNum) (a : Word) (s : State) :
    writeBlock value regs a s =
      (s.setMem (blockMem s.bus value regs a s.mem)).setAccesses (s.accesses ++ blockWrites value regs a) := by
  induction regs generalizing a s with
  | nil => simp [writeBlock, blockMem, blockWrites, State.setMem, State.setAccesses]
  | cons i is ih =>
    simp only [writeBlock, ih, blockMem, blockWrites, State.memWrite_mem, State.memWrite_bus, State.memWrite_accesses,
      busValue, List.append_assoc, List.cons_append, List.nil_append]
    rfl

/-- The writes of a block by register. -/
theorem blockWrites_eq (value : RegNum → Word) {regs : List RegNum} (h : regs.Nodup) (a : Word) :
    blockWrites value regs a =
      regs.map fun i => ⟨.write, .word, align .word (a + wordsSize (regs.idxOf i)), value i⟩ := by
  induction regs generalizing a with
  | nil => rfl
  | cons i is ih =>
    obtain ⟨hi, his⟩ := List.nodup_cons.1 h
    simp only [blockWrites, List.map_cons, List.idxOf_cons_self, wordsSize_zero, BitVec.add_zero, ih his]
    congr 1
    apply List.map_congr_left
    intro j hj
    rw [List.idxOf_cons_ne _ (fun e => hi (by rw [e]; exact hj)), wordsSize_succ]

/-- A byte that no word of the block touches stays. -/
theorem blockMem_outside (s : State) (value : RegNum → Word) {regs : List RegNum} {a : Word} {m : Memory} {x : Nat}
    (h : ∀ j, j < regs.length → ¬ touches s .word (a + wordsSize j) x) :
    (blockMem s.bus value regs a m).read x = m.read x := by
  induction regs generalizing a m with
  | nil => rfl
  | cons i is ih =>
    rw [blockMem, ih]
    · have h0 := h 0 (by simp)
      rw [wordsSize_zero, BitVec.add_zero] at h0
      cases hh : s.bus.writeHome (align .word a) with
      | none => rw [Bus.store_none _ hh]
      | some home =>
        rw [Bus.store_home _ hh]
        exact Memory.read_store_outside _ _ fun k hk hx => h0 ⟨home, hh, k, hk, hx⟩
    · intro j hj
      have := h (j + 1) (by simpa using hj)
      rwa [wordsSize_succ] at this

/-- The bytes of word `j` of a block are those of its register's value, where no later word touches them. -/
theorem blockMem_inside (s : State) (value : RegNum → Word) {regs : List RegNum} {a : Word} {m : Memory} {j : Nat}
    (hj : j < regs.length) {home : Word} (hh : s.bus.writeHome (align .word (a + wordsSize j)) = some home) {k : Nat}
    (hk : k < 4)
    (hlater : ∀ j', j < j' → j' < regs.length →
      ¬ touches s .word (a + wordsSize j') (home + BitVec.ofNat 32 k).toNat) :
    (blockMem s.bus value regs a m).byteAt (home + BitVec.ofNat 32 k) = bits (value regs[j]) (8 * k) 8 := by
  induction regs generalizing a m j with
  | nil => simp at hj
  | cons i is ih =>
    simp only [List.length_cons] at hj hlater
    cases j with
    | zero =>
      rw [wordsSize_zero, BitVec.add_zero] at hh
      rw [blockMem, Memory.byteAt, blockMem_outside, Bus.store_home _ hh, Memory.read_store_inside (w := .word) _ _ _ hk]
      · rfl
      · intro j' hj'
        have := hlater (j' + 1) (by omega) (by omega)
        rwa [wordsSize_succ] at this
    | succ j =>
      rw [wordsSize_succ] at hh
      rw [blockMem]
      refine ih (by omega) hh fun j' h1 h2 => ?_
      have := hlater (j' + 1) (by omega) (by omega)
      rwa [wordsSize_succ] at this

/-- On a bus with no map the words of a block do not overlap. -/
theorem block_apart {s : State} (hb : s.bus.map = []) {a : Word} {j j' k : Nat} (hj : j < j') (hj' : j' < 2 ^ 30)
    (hk : k < 4) : ¬ touches s .word (a + wordsSize j') (align .word (a + wordsSize j) + BitVec.ofNat 32 k).toNat := by
  rintro ⟨home, hh, k', hk', h⟩
  have hk4 : k' < 4 := hk'
  have e : home = align .word (a + wordsSize j') := by
    simpa [Bus.writeHome, hb, placeIn, eq_comm] using hh
  rw [e, wordByte_toNat _ _ _ hk, wordByte_toNat _ _ _ hk'] at h
  have := a.isLt
  omega

/-- A block of stores keeps the canonical form. -/
theorem blockMem_wf (b : Bus) (value : RegNum → Word) (regs : List RegNum) (a : Word) {m : Memory} (h : m.wf = true) :
    (blockMem b value regs a m).wf = true := by
  induction regs generalizing a m with
  | nil => exact h
  | cons i is ih => exact ih _ (Bus.wf_store b h _ _ _)

/-! ## Loads -/

/-- The reads a block of loads records: each is numbered after the one before. -/
def blockReads (s : State) : List RegNum → Word → List BusAccess
  | [], _ => []
  | _ :: is, a => readRecord s .word a :: blockReads (s.setReads (s.reads + 1)) is (a + 4)

theorem blockReads_length (s : State) (regs : List RegNum) (a : Word) : (blockReads s regs a).length = regs.length := by
  induction regs generalizing s a with
  | nil => rfl
  | cons i is ih => simp [blockReads, ih]

theorem blockReads_kind (s : State) (regs : List RegNum) (a : Word) : ∀ x, x ∈ blockReads s regs a → x.kind = .read := by
  induction regs generalizing s a with
  | nil => simp [blockReads]
  | cons i is ih =>
    intro x hx
    rcases List.mem_cons.1 hx with rfl | hx
    · rfl
    · exact ih _ _ x hx

/-- What a read is depends on the platform, memory and the number of the read alone. -/
theorem readRecord_congr {s t : State} (hb : t.bus = s.bus) (hm : t.mem = s.mem) (hn : t.reads = s.reads) (w : Width)
    (a : Word) : readRecord t w a = readRecord s w a := by
  simp only [readRecord, State.busRead_congr hb hm hn]

theorem blockReads_congr {s t : State} (hb : t.bus = s.bus) (hm : t.mem = s.mem) (hn : t.reads = s.reads)
    (regs : List RegNum) (a : Word) : blockReads t regs a = blockReads s regs a := by
  induction regs generalizing s t a with
  | nil => rfl
  | cons i is ih =>
    simp only [blockReads]
    rw [readRecord_congr hb hm hn, ih (s := s.setReads (s.reads + 1)) (by simpa using hb) (by simpa using hm)
      (by simp [hn])]

@[simp] theorem State.setReads_setReads (s : State) (m n : Nat) : (s.setReads m).setReads n = s.setReads n := rfl
theorem State.setReads_self (s : State) : s.setReads (s.reads + 0) = s := rfl

/-- The reads of a block by register. -/
theorem blockReads_eq (s : State) {regs : List RegNum} (h : regs.Nodup) (a : Word) :
    blockReads s regs a = regs.map fun i =>
      readRecord (s.setReads (s.reads + regs.idxOf i)) .word (a + wordsSize (regs.idxOf i)) := by
  induction regs generalizing s a with
  | nil => rfl
  | cons i is ih =>
    obtain ⟨hi, his⟩ := List.nodup_cons.1 h
    simp only [blockReads, List.map_cons, List.idxOf_cons_self, wordsSize_zero, BitVec.add_zero, ih _ his]
    rw [State.setReads_self]
    congr 1
    apply List.map_congr_left
    intro j hj
    rw [List.idxOf_cons_ne _ (fun e => hi (by rw [e]; exact hj)), wordsSize_succ, State.setReads_setReads,
      State.setReads_reads, Nat.add_assoc, Nat.add_comm 1]

/-- The value the word of register `i` of a block has. -/
def blockWord (s : State) (regs : List RegNum) (a : Word) (i : RegNum) : Word :=
  (s.setReads (s.reads + regs.idxOf i)).busRead .word (align .word (a + wordsSize (regs.idxOf i)))

/-- The words of a block after its first read. -/
theorem blockWord_cons {s t : State} (hb : t.bus = s.bus) (hm : t.mem = s.mem) (hn : t.reads = s.reads + 1)
    {i j : RegNum} {is : List RegNum} (h : i ≠ j) (a : Word) : blockWord t is (a + 4) j = blockWord s (i :: is) a j := by
  rw [blockWord, blockWord, List.idxOf_cons_ne _ h, wordsSize_succ]
  exact State.busRead_congr (by simpa using hb) (by simpa using hm)
    (by simp only [State.setReads_reads, hn, Nat.succ_eq_add_one]; omega) _ _

/-- The first word of a block. -/
theorem blockWord_head (s : State) (i : RegNum) (is : List RegNum) (a : Word) :
    blockWord s (i :: is) a i = s.busRead .word (align .word a) := by
  simp only [blockWord, List.idxOf_cons_self, wordsSize_zero, BitVec.add_zero]
  rw [State.setReads_self]

/-- A block of loads gives each register its word and records the reads, nothing else. -/
theorem readBlock_eq {regs : List RegNum} (h : regs.Nodup) (a : Word) (s : State) :
    readBlock regs a s =
      (regs.map fun i => (i, blockWord s regs a i), s.afterReads (blockReads s regs a)) := by
  induction regs generalizing a s with
  | nil => simp [readBlock, blockReads]
  | cons i is ih =>
    obtain ⟨hi, his⟩ := List.nodup_cons.1 h
    simp only [readBlock, ih his, State.memRead_fst, State.memRead_snd, List.map_cons, blockReads, Prod.mk.injEq,
      List.cons.injEq, blockWord_head, true_and]
    constructor
    · apply List.map_congr_left
      intro j hj
      rw [blockWord_cons (s := s) (t := s.afterReads _) rfl rfl rfl (i := i) (j := j) (fun e => hi (by rw [e]; exact hj))]
    · rw [State.afterReads_append, blockReads_congr (s := s.setReads (s.reads + 1)) (t := s.afterReads _) rfl rfl rfl]
      rfl

/-! ## Many registers written -/

/-- Registers written in order through a map of numbers to storage. -/
theorem foldl_writePhys_read (target : RegNum → PhysReg) (l : List (RegNum × Word)) (s : State) (q : PhysReg)
    (h : ∀ p, p ∈ l → q ≠ target p.1) :
    (l.foldl (fun s p => s.writePhys (target p.1) p.2) s).readPhys q = s.readPhys q := by
  induction l generalizing s with
  | nil => rfl
  | cons x xs ih =>
    rw [List.foldl_cons, ih _ (fun p hp => h p (List.mem_cons_of_mem _ hp)), State.readPhys_writePhys,
      if_neg (h x List.mem_cons_self)]

/-- Each register of the list ends with its value, where no later one reaches the same storage. -/
theorem foldl_writePhys_written (target : RegNum → PhysReg) (hinj : ∀ i j, target i = target j → i = j)
    {l : List (RegNum × Word)} (hnd : (l.map Prod.fst).Nodup) (s : State) {i : RegNum} {v : Word} (h : (i, v) ∈ l) :
    (l.foldl (fun s p => s.writePhys (target p.1) p.2) s).readPhys (target i) = v := by
  induction l generalizing s with
  | nil => simp at h
  | cons x xs ih =>
    rw [List.map_cons, List.nodup_cons] at hnd
    rw [List.foldl_cons]
    rcases List.mem_cons.1 h with rfl | h
    · rw [foldl_writePhys_read _ _ _ _ (fun p hp e => hnd.1
        (by rw [show i = p.1 from hinj _ _ e]; exact List.mem_map.2 ⟨p, hp, rfl⟩))]
      simp
    · exact ih hnd.2 _ h

end Sys2Proof.Machine
end

