-- ==== Sys2Proof/Laws/Decode.lean ====
section
/-! SUPPORT. Which line of the decode order of R153 a word takes, from its class bits. -/

namespace Sys2Proof

@[simp] theorem ofBool_bit0 (b : Bool) : (BitVec.ofBool b).getLsbD 0 = b := by cases b <;> rfl

theorem bits_ne_of_bit {n : Nat} {v : BitVec n} {lo len : Nat} {c : BitVec len} (k : Nat) (hk : k < len) (h : v.getLsbD (lo + k) ≠ c.getLsbD k) : bits v lo len ≠ c :=
  fun e => h ((bits_eq_iff v lo len c).1 e k hk)

theorem bit_of_bits {n : Nat} {v : BitVec n} {lo len : Nat} {c : BitVec len} (h : bits v lo len = c) (k : Nat) (hk : k < len) : v.getLsbD (lo + k) = c.getLsbD k :=
  (bits_eq_iff v lo len c).1 h k hk

theorem bits_bits {n : Nat} (v : BitVec n) (lo len a b : Nat) (h : a + b ≤ len) : bits (bits v lo len) a b = bits v (lo + a) b := by
  apply BitVec.eq_of_getLsbD_eq
  intro k hk
  simp only [getLsbD_bits, hk, decide_true, Bool.true_and]
  rw [Nat.add_assoc]; simp; omega

theorem decodeArm_branch {w : Word} (h : bits w 25 3 = 0b101#3) : decodeArm w = decodeBranch (.ofBits (bits w 28 4)) w := by
  simp [decodeArm, h]

theorem decodeArm_block {w : Word} (h : bits w 25 3 = 0b100#3) : decodeArm w = decodeBlock (.ofBits (bits w 28 4)) w := by
  simp [decodeArm, h]

theorem decodeArm_single {w : Word} (h : bits w 25 3 = 0b010#3 ∨ bits w 25 3 = 0b011#3) : decodeArm w = decodeSingle (.ofBits (bits w 28 4)) w := by
  rcases h with h | h <;> simp [decodeArm, h]

theorem decodeArm_mul {w : Word} (h : bits w 25 3 = 0b000#3) (h2 : bits w 4 4 = 0b1001#4) : decodeArm w = decodeMultiplySpace (.ofBits (bits w 28 4)) w := by
  simp [decodeArm, h, h2]

theorem decodeArm_half {w : Word} (h : bits w 25 3 = 0b000#3) (h7 : w.getLsbD 7 = true) (h4 : w.getLsbD 4 = true) (h5 : bits w 5 2 ≠ 0b00#2) :
    decodeArm w = decodeHalfSpace (.ofBits (bits w 28 4)) w := by
  have n : bits w 4 4 ≠ 0b1001#4 := by
    intro e
    apply h5
    rw [bits_eq_iff]
    intro k hk
    have : k = 0 ∨ k = 1 := by omega
    rcases this with rfl | rfl
    · exact bit_of_bits e 1 (by decide)
    · exact bit_of_bits e 2 (by decide)
  have h7' : w[7] = true := h7
  have h4' : w[4] = true := h4
  simp [decodeArm, h, n, h7', h4', h5]

theorem decodeArm_low {w : Word} (h : bits w 25 3 = 0b000#3 ∨ bits w 25 3 = 0b001#3)
    (hm : ¬ (bits w 25 3 = 0b000#3 ∧ w.getLsbD 4 = true ∧ w.getLsbD 7 = true)) :
    decodeArm w = if bits w 4 24 = 0x12FFF1#24 then .armBx (.ofBits (bits w 28 4)) (bits w 0 4)
      else if bits w 23 2 = 0b10#2 ∧ ¬ w.getLsbD 20 then decodePsr (.ofBits (bits w 28 4)) w
      else decodeDataProcessing (.ofBits (bits w 28 4)) w := by
  have n1 : ¬ (bits w 25 3 = 0b000#3 ∧ bits w 4 4 = 0b1001#4) := by
    rintro ⟨h0, e⟩
    exact hm ⟨h0, bit_of_bits e 0 (by decide), bit_of_bits e 3 (by decide)⟩
  have n2 : ¬ (bits w 25 3 = 0b000#3 ∧ w.getLsbD 7 ∧ w.getLsbD 4 ∧ bits w 5 2 ≠ 0b00#2) := by
    rintro ⟨h0, h7, h4, _⟩
    exact hm ⟨h0, h4, h7⟩
  unfold decodeArm
  dsimp only
  rw [if_neg n1, if_neg n2]
  rcases h with h | h <;> simp [h]

theorem decodeArm_psr {w : Word} (h : bits w 25 3 = 0b000#3 ∨ bits w 25 3 = 0b001#3)
    (hm : ¬ (bits w 25 3 = 0b000#3 ∧ w.getLsbD 4 = true)) (h2 : bits w 23 2 = 0b10#2) (h20 : w.getLsbD 20 = false) :
    decodeArm w = decodePsr (.ofBits (bits w 28 4)) w := by
  rw [decodeArm_low h (fun c => hm ⟨c.1, c.2.1⟩), if_neg, if_pos ⟨h2, by rw [h20]; decide⟩]
  intro e
  have e4 := bit_of_bits e 0 (by decide)
  have e25 := bit_of_bits e 21 (by decide)
  rcases h with h | h
  · exact hm ⟨h, e4⟩
  · have := bit_of_bits h 0 (by decide)
    rw [show 25 + 0 = 4 + 21 from rfl, e25] at this
    exact absurd this (by decide)

theorem decodeArm_dp {w : Word} (h : bits w 25 3 = 0b000#3 ∨ bits w 25 3 = 0b001#3)
    (hm : ¬ (bits w 25 3 = 0b000#3 ∧ w.getLsbD 4 = true ∧ w.getLsbD 7 = true)) (h2 : bits w 23 2 ≠ 0b10#2 ∨ w.getLsbD 20 = true) :
    decodeArm w = decodeDataProcessing (.ofBits (bits w 28 4)) w := by
  have hn : ¬ (bits w 23 2 = 0b10#2 ∧ ¬ w.getLsbD 20) := by
    rintro ⟨a, b⟩; rcases h2 with h2 | h2
    · exact h2 a
    · exact b h2
  rw [decodeArm_low h hm, if_neg, if_neg hn]
  intro e
  rcases h2 with h2 | h2
  · apply h2
    rw [bits_eq_iff]
    intro k hk
    have : k = 0 ∨ k = 1 := by omega
    rcases this with rfl | rfl
    · exact bit_of_bits e 19 (by decide)
    · exact bit_of_bits e 20 (by decide)
  · have := bit_of_bits e 16 (by decide)
    rw [show 4 + 16 = 20 from rfl, h2] at this
    exact absurd this (by decide)

end Sys2Proof
end

