-- ==== Sys2Proof/Laws/Frames.lean ====
section
/-! SUPPORT. Frames of the updates instructions end with, the write-back, the MSR byte masks, scaled offsets. -/

namespace Sys2Proof.Machine

/-! ## Frames -/

/-- A register and CPSR bits written. -/
theorem Frame.regCpsr (s : State) (i : RegNum) (v : Word) (p : Psr) (n : Nat) {l : List Nat}
    (h : ∀ k, k ∉ l → p.getLsbD k = s.cpsr.getLsbD k) :
    Frame [route s.mode i] l s (((s.setReg i v).setCpsr p).addCycles n) := by
  constructor <;> simp_all

/-- CPSR bits written, no register. -/
theorem Frame.cpsrOnly (s : State) (p : Psr) (n : Nat) {l : List Nat}
    (h : ∀ k, k ∉ l → p.getLsbD k = s.cpsr.getLsbD k) :
    Frame [] l s ((s.setCpsr p).addCycles n) := by
  constructor <;> simp_all

/-- A register written, no bit of CPSR. -/
theorem Frame.reg (s : State) (i : RegNum) (v : Word) (n : Nat) :
    Frame [route s.mode i] [] s ((s.setReg i v).addCycles n) := by
  constructor <;> simp_all

/-- An opcode that writes Rd, where it does not write R15. -/
theorem Frame.dp (s : State) {rd : RegNum} (sf : Bool) (o : DpOutcome) (h : rd ≠ 15#4) {l : List Nat}
    (hp : ∀ k, k ∉ l → o.psr.getLsbD k = s.cpsr.getLsbD k) :
    Frame [route s.mode rd] (if sf then l else []) s (dpWrite sf rd o s) := by
  rw [dpWrite_of_ne _ _ _ h]
  apply Frame.regCpsr
  cases sf <;> simp_all

/-! ## Write-back -/

/-- R15 is never written back (R400). -/
theorem writesBack_ne_15 {a : Addressing} (h : writesBack a = true) : a.rn ≠ 15#4 := by
  simp [writesBack] at h; exact h.2

/-- The write-back is a write of the base's storage. -/
theorem baseWriteBack_eq (a : Addressing) (v : Word) (s : State) :
    baseWriteBack a v s = if writesBack a then s.writePhys (route s.mode a.rn) v else s := by
  unfold baseWriteBack
  split
  · rw [State.setReg_eq, storedValue_of_ne _ _ (writesBack_ne_15 ‹_›)]
  · rfl

@[simp] theorem baseWriteBack_cpsr (a : Addressing) (v : Word) (s : State) : (baseWriteBack a v s).cpsr = s.cpsr := by
  unfold baseWriteBack; split <;> simp

@[simp] theorem baseWriteBack_mode (a : Addressing) (v : Word) (s : State) : (baseWriteBack a v s).mode = s.mode := by
  unfold baseWriteBack; split <;> simp

@[simp] theorem baseWriteBack_spsr (a : Addressing) (v : Word) (s : State) : (baseWriteBack a v s).spsr = s.spsr := by
  unfold baseWriteBack; split <;> simp

@[simp] theorem baseWriteBack_mem (a : Addressing) (v : Word) (s : State) : (baseWriteBack a v s).mem = s.mem := by
  unfold baseWriteBack; split <;> simp

@[simp] theorem baseWriteBack_bus (a : Addressing) (v : Word) (s : State) : (baseWriteBack a v s).bus = s.bus := by
  unfold baseWriteBack; split <;> simp

@[simp] theorem baseWriteBack_reads (a : Addressing) (v : Word) (s : State) : (baseWriteBack a v s).reads = s.reads := by
  unfold baseWriteBack; split <;> simp

@[simp] theorem baseWriteBack_accesses (a : Addressing) (v : Word) (s : State) : (baseWriteBack a v s).accesses = s.accesses := by
  unfold baseWriteBack; split <;> simp

@[simp] theorem baseWriteBack_cycles (a : Addressing) (v : Word) (s : State) : (baseWriteBack a v s).cycles = s.cycles := by
  unfold baseWriteBack; split <;> simp

@[simp] theorem baseWriteBack_halted (a : Addressing) (v : Word) (s : State) : (baseWriteBack a v s).halted = s.halted := by
  unfold baseWriteBack; split <;> simp

@[simp] theorem baseWriteBack_stopped (a : Addressing) (v : Word) (s : State) : (baseWriteBack a v s).stopped = s.stopped := by
  unfold baseWriteBack; split <;> simp

@[simp] theorem baseWriteBack_currentPc (a : Addressing) (v : Word) (s : State) : (baseWriteBack a v s).currentPc = s.currentPc := by
  unfold baseWriteBack; split <;> simp

@[simp] theorem baseWriteBack_currentInstruction (a : Addressing) (v : Word) (s : State) : (baseWriteBack a v s).currentInstruction = s.currentInstruction := by
  unfold baseWriteBack; split <;> simp

/-- Every physical register after the write-back. -/
theorem baseWriteBack_readPhys (a : Addressing) (v : Word) (s : State) (q : PhysReg) :
    (baseWriteBack a v s).readPhys q = if writesBack a = true ∧ q = route s.mode a.rn then v else s.readPhys q := by
  rw [baseWriteBack_eq]
  split <;> simp_all

@[simp] theorem storedValue_baseWriteBack (a : Addressing) (w : Word) (s : State) (i : RegNum) (v : Word) :
    storedValue (baseWriteBack a w s) i v = storedValue s i v := by simp [storedValue]

@[simp] theorem storedValue_afterReads (s : State) (l) (i : RegNum) (v : Word) :
    storedValue (s.afterReads l) i v = storedValue s i v := by simp [storedValue]

/-! ## Many registers -/

/-- The number of the register that reaches a storage. -/
def regNumOf : PhysReg → RegNum
  | .common i => BitVec.ofNat 4 i
  | .usr8 i => BitVec.ofNat 4 (8 + i)
  | .fiq8 i => BitVec.ofNat 4 (8 + i)
  | .sp _ => 13#4
  | .lr _ => 14#4
  | .pc => 15#4

theorem regNumOf_route (m : Mode) (i : RegNum) : regNumOf (route m i) = i := by
  cases m <;> revert i <;> decide

/-- Storage shared by two modes is reached by one number. -/
theorem route_num {m n : Mode} {i j : RegNum} (h : route m i = route n j) : i = j := by
  rw [← regNumOf_route m i, h, regNumOf_route]

/-- What writing many registers leaves. -/
structure WroteRegs (targets : List PhysReg) (s t : State) : Prop where
  frame : Frame targets [] s t
  cpsr : t.cpsr = s.cpsr
  mem : t.mem = s.mem
  reads : t.reads = s.reads
  accesses : t.accesses = s.accesses
  cycles : t.cycles = s.cycles

theorem foldl_writePhys_wrote (target : RegNum → PhysReg) (l : List (RegNum × Word)) (s : State) :
    WroteRegs (l.map fun p => target p.1) s (l.foldl (fun s p => s.writePhys (target p.1) p.2) s) := by
  have key : ∀ t, (l.foldl (fun s p => s.writePhys (target p.1) p.2) s) = t → 
      t.cpsr = s.cpsr ∧ t.spsr = s.spsr ∧ t.halted = s.halted ∧ t.stopped = s.stopped ∧ t.currentPc = s.currentPc ∧
      t.currentInstruction = s.currentInstruction ∧ t.mem = s.mem ∧ t.bus = s.bus ∧ t.reads = s.reads ∧
      t.accesses = s.accesses ∧ t.cycles = s.cycles := by
    induction l generalizing s with
    | nil => rintro t rfl; simp
    | cons x xs ih => intro t ht; have := ih _ _ ht; simpa using this
  obtain ⟨h1, h2, h3, h4, h5, h6, h7, hb, hr, h8, h9⟩ := key _ rfl
  refine ⟨⟨?_, fun k _ => by rw [h1], h2, h3, h4, h5, h6, hb⟩, h1, h7, hr, h8, h9⟩
  intro p hp
  apply foldl_writePhys_read
  intro x hx e
  exact hp (List.mem_map.2 ⟨x, hx, e.symm⟩)

/-- Registers written in order, where each write is a write of one storage. -/
theorem writeRegs_eq (write : State → RegNum → Word → State) (target : RegNum → PhysReg) (m : Mode) 
    (hw : ∀ s i v, s.mode = m → i ≠ 15#4 → write s i v = s.writePhys (target i) v)
    (l : List (RegNum × Word)) (s : State) (hm : s.mode = m) (h : ∀ p, p ∈ l → p.1 ≠ 15#4) :
    writeRegs write l s = l.foldl (fun s p => s.writePhys (target p.1) p.2) s := by
  induction l generalizing s with
  | nil => rfl
  | cons x xs ih =>
    obtain ⟨i, v⟩ := x
    rw [writeRegs, hw s i v hm (h _ List.mem_cons_self), List.foldl_cons]
    exact ih _ (by simpa using hm) (fun p hp => h p (List.mem_cons_of_mem _ hp))

/-- LDM loads R15 exactly when R15 is transferred. -/
theorem loadsPc_iff (list : BitVec 16) : loadsPc list = true ↔ 15#4 ∈ blockRegs list := by
  rw [mem_blockRegs_15]; simp [loadsPc]

theorem find?_map_fst (f : RegNum → Word) (l : List RegNum) (i : RegNum) :
    ((l.map fun i => (i, f i)).find? fun p => p.1 == i) = if i ∈ l then some (i, f i) else none := by
  induction l with
  | nil => rfl
  | cons x xs ih =>
    simp only [List.map_cons, List.find?_cons]
    by_cases h : x = i
    · subst h; simp
    · have : (x == i) = false := by simp [h]
      rw [this]; simp only [ih]
      simp [Ne.symm h]

/-- What loading words into the registers `l` leaves. -/
structure LoadedRegs (l : List RegNum) (a : Word) (s t : State) : Prop where
  value : ∀ i, i ∈ l → t.readPhys (route s.mode i) = blockWord s l a i
  frame : Frame (l.map (route s.mode)) [] s t
  cpsr : t.cpsr = s.cpsr
  mem : t.mem = s.mem
  reads : t.reads = s.reads + l.length
  accesses : t.accesses = s.accesses ++ blockReads s l a
  cycles : t.cycles = s.cycles

theorem loadRegs_loaded {l : List RegNum} (hnd : l.Nodup) (h15 : ∀ i, i ∈ l → i ≠ 15#4) (a : Word) (s : State) :
    LoadedRegs l a s (loadRegs l a s) := by
  induction l generalizing a s with
  | nil =>
    refine ⟨by simp, ⟨fun _ _ => rfl, fun _ _ => rfl, rfl, rfl, rfl, rfl, rfl, rfl⟩, rfl, rfl, rfl, by simp [blockReads, loadRegs], rfl⟩
  | cons i is ih =>
    obtain ⟨hi, his⟩ := List.nodup_cons.1 hnd
    have hi15 := h15 i List.mem_cons_self
    let s1 := (s.memRead .word a).2.setReg i (s.memRead .word a).1
    have h := ih his (fun j hj => h15 j (List.mem_cons_of_mem _ hj)) (a + 4) s1
    have hm : s1.mode = s.mode := by simp [s1]
    have hr : ∀ q, s1.readPhys q = if q = route s.mode i then s.busRead .word (align .word a) else s.readPhys q := by
      intro q; simp [s1, storedValue, hi15]
    show LoadedRegs (i :: is) a s (loadRegs is (a + 4) s1)
    refine ⟨?_, ⟨?_, ?_, ?_, ?_, ?_, ?_, ?_, ?_⟩, ?_, ?_, ?_, ?_, ?_⟩
    · intro j hj
      rcases List.mem_cons.1 hj with rfl | hj
      · have := h.frame.regs (route s.mode j) (by
          rw [hm]; simp only [List.mem_map, not_exists, not_and]
          intro k hk e; exact hi (by rw [← (route_inj _ _ _).1 e]; exact hk))
        rw [this, hr]; simp [blockWord_head]
      · have := h.value j hj
        rw [hm] at this
        rw [this]
        exact blockWord_cons (by simp [s1]) (by simp [s1]) (by simp [s1]) (fun e => hi (by rw [e]; exact hj)) a
    · intro p hp
      simp only [List.map_cons, List.mem_cons, not_or] at hp
      rw [h.frame.regs p (by rw [hm]; exact hp.2), hr, if_neg hp.1]
    · intro k hk; rw [h.cpsr]; simp [s1]
    · rw [h.frame.spsr]; simp [s1]
    · rw [h.frame.halted]; simp [s1]
    · rw [h.frame.stopped]; simp [s1]
    · rw [h.frame.currentPc]; simp [s1]
    · rw [h.frame.currentInstruction]; simp [s1]
    · rw [h.frame.bus]; simp [s1]
    · rw [h.cpsr]; simp [s1]
    · rw [h.mem]; simp [s1]
    · rw [h.reads]; simp [s1]; omega
    · rw [h.accesses, blockReads_congr (s := s.setReads (s.reads + 1)) (by simp [s1]) (by simp [s1]) (by simp [s1])]
      simp [s1, blockReads]
    · rw [h.cycles]; simp [s1]

/-! ## Offsets and byte masks -/

/-- A scaled immediate as a number. -/
theorem scaled_eq {n : Nat} (imm : BitVec n) (k : Nat) (h : n + k ≤ 32) :
    scaled imm k = BitVec.ofNat 32 (imm.toNat * 2 ^ k) := by
  apply BitVec.eq_of_toNat_eq
  have := imm.isLt
  have h2 : imm.toNat * 2 ^ k < 2 ^ 32 := by
    calc imm.toNat * 2 ^ k < 2 ^ n * 2 ^ k := Nat.mul_lt_mul_of_pos_right this (Nat.pow_pos (by decide))
      _ = 2 ^ (n + k) := (Nat.pow_add ..).symm
      _ ≤ 2 ^ 32 := Nat.pow_le_pow_right (by decide) h
  have h3 : imm.toNat < 2 ^ 32 := lt_of_lt_of_le this (Nat.pow_le_pow_right (by decide) (by omega))
  simp only [scaled, BitVec.toNat_shiftLeft, BitVec.toNat_setWidth, BitVec.toNat_ofNat, Nat.shiftLeft_eq,
    Nat.mod_eq_of_lt h3]

/-- The bits a field mask selects (R471). -/
theorem getLsbD_maskBytes (mask : BitVec 4) (k : Nat) (hk : k < 32) : (maskBytes mask).getLsbD k = mask.getLsbD (k / 8) := by
  have : ∀ m : BitVec 4, ∀ k : Fin 32, (maskBytes m).getLsbD k = m.getLsbD (k.val / 8) := by decide +kernel
  exact this mask ⟨k, hk⟩

/-- Selected bits from the operand, the others kept. -/
theorem getLsbD_mergeBytes (b o p : Word) (k : Nat) (hk : k < 32) : (mergeBytes b o p).getLsbD k = if b.getLsbD k then p.getLsbD k else o.getLsbD k := by
  simp only [mergeBytes, BitVec.getLsbD_or, BitVec.getLsbD_and, BitVec.getLsbD_not, hk, decide_true, Bool.true_and]
  cases b.getLsbD k <;> simp

end Sys2Proof.Machine
end

