-- ==== Sys2Proof/Laws/Kept.lean ====
section
/-! SUPPORT. What every operation of an instruction but SWI keeps: the environment bits, the fetch registers, the
platform, the canonical memory, a valid mode, and in User mode everything of the other modes. The relation composes, so an
instruction keeps what its operations keep. -/

namespace Sys2Proof.Machine

/-- What a User-mode state keeps: the mode, I, F and the reserved bits, the SPSRs, every bank but User's. -/
structure UserKept (s t : State) : Prop where
  m : t.cpsr.m = s.cpsr.m
  i : t.cpsr.i = s.cpsr.i
  f : t.cpsr.f = s.cpsr.f
  reserved : ∀ k, 8 ≤ k → k < 24 → t.cpsr.getLsbD k = s.cpsr.getLsbD k
  spsr : t.spsr = s.spsr
  fiq8 : ∀ k, t.readPhys (.fiq8 k) = s.readPhys (.fiq8 k)
  sp : ∀ k, k ≠ .user → t.readPhys (.sp k) = s.readPhys (.sp k)
  lr : ∀ k, k ≠ .user → t.readPhys (.lr k) = s.readPhys (.lr k)

/-- What every operation of an instruction but SWI keeps. -/
structure Kept (s t : State) : Prop where
  halted : t.halted = s.halted
  stopped : t.stopped = s.stopped
  currentPc : t.currentPc = s.currentPc
  currentInstruction : t.currentInstruction = s.currentInstruction
  bus : t.bus = s.bus
  cycles : s.cycles ≤ t.cycles
  mem : s.mem.wf = true → t.mem.wf = true
  mode : s.modeValid = true → t.modeValid = true
  user : s.cpsr.m = 0x10#5 → UserKept s t

theorem UserKept.refl (s : State) : UserKept s s := ⟨rfl, rfl, rfl, fun _ _ _ => rfl, rfl, fun _ => rfl, fun _ _ => rfl, fun _ _ => rfl⟩

theorem UserKept.trans {s t u : State} (h1 : UserKept s t) (h2 : UserKept t u) : UserKept s u :=
  ⟨h2.m.trans h1.m, h2.i.trans h1.i, h2.f.trans h1.f, fun k a b => (h2.reserved k a b).trans (h1.reserved k a b),
    h2.spsr.trans h1.spsr, fun k => (h2.fiq8 k).trans (h1.fiq8 k), fun k h => (h2.sp k h).trans (h1.sp k h),
    fun k h => (h2.lr k h).trans (h1.lr k h)⟩

theorem Kept.refl (s : State) : Kept s s :=
  ⟨rfl, rfl, rfl, rfl, rfl, Nat.le_refl _, id, id, fun _ => UserKept.refl s⟩

theorem Kept.trans {s t u : State} (h1 : Kept s t) (h2 : Kept t u) : Kept s u :=
  ⟨h2.halted.trans h1.halted, h2.stopped.trans h1.stopped, h2.currentPc.trans h1.currentPc,
    h2.currentInstruction.trans h1.currentInstruction, h2.bus.trans h1.bus, h1.cycles.trans h2.cycles, fun h => h2.mem (h1.mem h),
    fun h => h2.mode (h1.mode h), fun h => (h1.user h).trans (h2.user ((h1.user h).m.trans h))⟩

/-- A mode field of 10000 is User mode. -/
theorem State.mode_user {s : State} (h : s.cpsr.m = 0x10#5) : s.mode = .user := by
  simp [State.mode, h]; rfl

/-- User mode reaches no storage of another mode. -/
theorem route_user (i : RegNum) : (∀ k, route .user i ≠ .fiq8 k) ∧ (∀ k, k ≠ .user → route .user i ≠ .sp k) ∧
    (∀ k, k ≠ .user → route .user i ≠ .lr k) := by
  unfold route
  split
  · simp
  · split
    · simp
    · split
      · simp [Mode.bankKey, eq_comm]
      · split <;> simp [Mode.bankKey, eq_comm]

theorem Kept.writeUser (s : State) (i : RegNum) (v : Word) : Kept s (s.writePhys (route .user i) v) := by
  constructor <;> try (simp [State.modeValid]; done)
  intro h
  obtain ⟨h1, h2, h3⟩ := route_user i
  constructor <;> try (simp; done)
  · intro k; simp [(h1 k).symm]
  · intro k hk; simp [(h2 k hk).symm]
  · intro k hk; simp [(h3 k hk).symm]

theorem Kept.setReg (s : State) (i : RegNum) (v : Word) : Kept s (s.setReg i v) := by
  constructor <;> try (simp [State.modeValid]; done)
  intro h
  rw [State.setReg_eq, State.mode_user h]
  exact (Kept.writeUser s i _).user h

theorem Kept.setUserReg (s : State) (i : RegNum) (v : Word) : Kept s (s.setUserReg i v) := by
  rw [State.setUserReg_eq]; exact Kept.writeUser s i _

theorem Kept.setPc (s : State) (v : Word) : Kept s (s.setPc v) := Kept.setReg s 15#4 v

/-- A new CPSR that leaves the mode, I, F and the reserved bits. -/
theorem Kept.setCpsr (s : State) {p : Psr} (hm : p.m = s.cpsr.m) (hu : s.cpsr.m = 0x10#5 → p.i = s.cpsr.i ∧ p.f = s.cpsr.f ∧
    ∀ k, 8 ≤ k → k < 24 → p.getLsbD k = s.cpsr.getLsbD k) : Kept s (s.setCpsr p) := by
  constructor <;> try (simp [State.modeValid]; done)
  · simp [State.modeValid, hm]
  · intro h
    obtain ⟨h1, h2, h3⟩ := hu h
    exact ⟨hm, h1, h2, h3, rfl, by simp, by simp, by simp⟩

theorem Kept.addCycles (s : State) (n : Nat) : Kept s (s.addCycles n) := by
  constructor <;> try (simp [State.modeValid]; done)
  intro _; constructor <;> simp

theorem Kept.afterReads (s : State) (l : List BusAccess) : Kept s (s.afterReads l) := by
  constructor <;> try (simp [State.modeValid]; done)
  intro _; constructor <;> simp

theorem Kept.memRead (s : State) (w : Width) (a : Word) : Kept s (s.memRead w a).2 := by
  rw [State.memRead_snd]; exact Kept.afterReads _ _

theorem Kept.memWrite (s : State) (w : Width) (a v : Word) : Kept s (s.memWrite w a v) := by
  constructor <;> try (simp [State.modeValid]; done)
  · intro h; exact Bus.wf_store _ h _ _ _
  · intro _; constructor <;> simp

theorem Kept.restoreCpsr (s : State) : Kept s s.restoreCpsr := by
  rw [State.restoreCpsr_eq]
  constructor <;> try (simp [State.modeValid]; done)
  · intro h
    cases h2 : s.spsr.get? s.mode with
    | none => simpa [State.modeValid] using h
    | some p => exact mergeMode_valid p h
  · intro h
    have : s.spsr.get? s.mode = none := by rw [State.mode_user h]; rfl
    rw [this]; exact UserKept.refl s

/-- Status words that agree outside flags (and T) agree in the mode, I, F and the reserved bits. -/
theorem Psr.ext_flags {p q : Psr} {l : List Nat} (h : ∀ k, k ∉ l → p.getLsbD k = q.getLsbD k) (hl : ∀ k, k < 28 → k ≠ 5 → k ∉ l) :
    p.m = q.m ∧ p.i = q.i ∧ p.f = q.f ∧ ∀ k, 8 ≤ k → k < 24 → p.getLsbD k = q.getLsbD k := by
  refine ⟨?_, h 7 (hl 7 (by decide) (by decide)), h 6 (hl 6 (by decide) (by decide)), fun k h8 h24 => h k (hl k (by omega) (by omega))⟩
  apply BitVec.eq_of_getLsbD_eq
  intro j hj
  simp only [Psr.m, getLsbD_bits, hj, decide_true, Bool.true_and, Nat.zero_add]
  exact h j (hl j (by omega) (by omega))

/-- Flags, and T, written. -/
theorem Kept.flags (s : State) {p : Psr} {l : List Nat} (h : ∀ k, k ∉ l → p.getLsbD k = s.cpsr.getLsbD k) (hl : ∀ k, k < 28 → k ≠ 5 → k ∉ l) :
    Kept s (s.setCpsr p) := by
  obtain ⟨h1, h2, h3, h4⟩ := Psr.ext_flags h hl
  exact Kept.setCpsr s h1 fun _ => ⟨h2, h3, h4⟩

theorem Kept.setT (s : State) (b : Bool) : Kept s (s.setCpsr (s.cpsr.setT b)) :=
  Kept.flags s (l := [5]) (fun k hk => by
    simp only [List.mem_singleton] at hk
    rw [Psr.setT, Psr.getLsbD_setBit _ _ _ _ (by decide), if_neg hk]) (by simp)

theorem Kept.branchExchange (s : State) (v : Word) : Kept s (s.branchExchange v) :=
  (Kept.setT s _).trans (Kept.setPc _ v)

theorem Kept.dpWrite (sf : Bool) (rd : RegNum) (o : DpOutcome) (s : State) (h : ∀ k, k ∉ [31, 30, 29, 28] → o.psr.getLsbD k = s.cpsr.getLsbD k) :
    Kept s (dpWrite sf rd o s) := by
  unfold Machine.dpWrite
  split
  · unfold State.writeR15
    refine Kept.trans (t := if sf then s.restoreCpsr else s) ?_ ((Kept.setPc _ _).trans (Kept.addCycles _ _))
    split
    · exact Kept.restoreCpsr s
    · exact Kept.refl s
  · refine (Kept.setReg s rd o.value).trans (Kept.trans ?_ (Kept.addCycles _ _))
    apply Kept.flags _ (l := [31, 30, 29, 28])
    · intro k hk; cases sf <;> simp [h k hk]
    · intro k hk; simp; omega

theorem Kept.loadValue (s : State) (k : LoadKind) (a : Word) : Kept s (s.loadValue k a).2 := by
  rw [State.loadValue_eq]; exact Kept.afterReads _ _

theorem Kept.baseWriteBack (a : Addressing) (v : Word) (s : State) : Kept s (baseWriteBack a v s) := by
  unfold Machine.baseWriteBack; split
  · exact Kept.setReg _ _ _
  · exact Kept.refl s

theorem Kept.readBlock (l : List RegNum) (a : Word) (s : State) : Kept s (readBlock l a s).2 := by
  induction l generalizing a s with
  | nil => exact Kept.refl s
  | cons i is ih => exact (Kept.memRead s .word a).trans (ih _ _)

theorem Kept.writeBlock (v : RegNum → Word) (l : List RegNum) (a : Word) (s : State) : Kept s (writeBlock v l a s) := by
  induction l generalizing a s with
  | nil => exact Kept.refl s
  | cons i is ih => exact (Kept.memWrite s .word a _).trans (ih _ _)

theorem Kept.loadRegs (l : List RegNum) (a : Word) (s : State) : Kept s (loadRegs l a s) := by
  induction l generalizing a s with
  | nil => exact Kept.refl s
  | cons i is ih => exact (Kept.memRead s .word a).trans ((Kept.setReg _ _ _).trans (ih _ _))

theorem Kept.writeRegs (w : State → RegNum → Word → State) (hw : ∀ s i v, Kept s (w s i v)) (l : List (RegNum × Word)) (s : State) :
    Kept s (writeRegs w l s) := by
  induction l generalizing s with
  | nil => exact Kept.refl s
  | cons x xs ih => exact (hw _ _ _).trans (ih _)

end Sys2Proof.Machine
end

