-- ==== Sys2Proof/Laws/Step.lean ====
section
/-! SUPPORT. The step: what the fetch leaves, the two cases of a step, and that an ARM instruction is its effect behind its
condition. -/

namespace Sys2Proof.Machine

/-- The fetched word: what the bus gives at the PC, aligned for the width of the state T selects (R231). -/
@[simp] theorem State.fetch_fst (s : State) :
    s.fetch.1 = s.busRead (fetchWidth s.cpsr.t) (align (fetchWidth s.cpsr.t) s.pc) := rfl

@[simp] theorem State.fetch_currentPc (s : State) : s.fetch.2.currentPc = s.pc := by simp [State.fetch]
@[simp] theorem State.fetch_currentInstruction (s : State) : s.fetch.2.currentInstruction = s.fetch.1 := by
  simp [State.fetch]
@[simp] theorem State.fetch_pc (s : State) : s.fetch.2.pc = maskPc s.cpsr.t (s.pc + fetchStep s.cpsr.t) := by
  simp [State.fetch]
@[simp] theorem State.fetch_cpsr (s : State) : s.fetch.2.cpsr = s.cpsr := by simp [State.fetch]
@[simp] theorem State.fetch_spsr (s : State) : s.fetch.2.spsr = s.spsr := by simp [State.fetch]
@[simp] theorem State.fetch_mem (s : State) : s.fetch.2.mem = s.mem := by simp [State.fetch]
@[simp] theorem State.fetch_halted (s : State) : s.fetch.2.halted = s.halted := by simp [State.fetch]
@[simp] theorem State.fetch_stopped (s : State) : s.fetch.2.stopped = s.stopped := by simp [State.fetch]
@[simp] theorem State.fetch_cycles (s : State) : s.fetch.2.cycles = s.cycles := by simp [State.fetch]
@[simp] theorem State.fetch_bus (s : State) : s.fetch.2.bus = s.bus := by simp [State.fetch]
@[simp] theorem State.fetch_reads (s : State) : s.fetch.2.reads = s.reads + 1 := by simp [State.fetch]
@[simp] theorem State.fetch_accesses (s : State) :
    s.fetch.2.accesses = [readRecord s (fetchWidth s.cpsr.t) s.pc] := by
  simp [State.fetch, readRecord, State.busRead]
theorem State.fetch_readPhys (s : State) (p : PhysReg) :
    s.fetch.2.readPhys p = if p = .pc then s.fetch.2.pc else s.readPhys p := by
  simp [State.fetch]

/-- After the fetch the PC is aligned for T, whatever it was. -/
theorem State.fetch_pcAligned (s : State) : s.fetch.2.pcAligned := by simp [State.pcAligned]

/-- A halted step does nothing (R730). -/
theorem step_halted {s : State} (h : s.halted = true) : step s = .next s := by simp [step, h]

/-- Any other step runs the fetched instruction from the state the fetch leaves (R230). -/
theorem step_running {s : State} (h : s.halted = false) :
    step s = exec (decodeFetched s.cpsr.t s.fetch.1) s.fetch.2 := by simp [step, h]

/-- An instruction with a condition is some effect behind that condition. -/
theorem exec_conditional {i : Instr} {c : Cond} (h : i.cond? = some c) :
    ∃ f : State → State, ∀ s, exec i s = armInstr c f s := by
  cases i <;> simp only [Instr.cond?, Option.some.injEq, reduceCtorEq] at h <;> subst h <;> exact ⟨_, fun s => rfl⟩

/-- What answers a next state is none of the four refused encodings (R586). -/
theorem emptyThumbList_of_next {i : Instr} {s t : State} (h : exec i s = .next t) : i.emptyThumbList = false := by
  cases he : i.emptyThumbList
  · rfl
  · exfalso
    cases i <;> simp only [Instr.emptyThumbList, reduceCtorEq] at he
    all_goals simp at he
    · obtain ⟨rfl, rfl⟩ := he; exact absurd h (by simp [exec, execThumbPush, stackCount, listCount])
    · obtain ⟨rfl, rfl⟩ := he; exact absurd h (by simp [exec, execThumbPop, stackCount, listCount])
    · subst he; exact absurd h (by simp [exec, execThumbStmia, listCount])
    · subst he; exact absurd h (by simp [exec, execThumbLdmia, listCount])

end Sys2Proof.Machine
end

