-- ==== Sys2Proof/Tests/Slice0.lean ====
section
/-! SUPPORT. Tests: ill-formed terms refused, words written out from the layouts of 30_encoding.md decoded, one step of every
instruction with the results of the spec's own examples (the rule, or the section of 95_test_vectors.md, is named at each),
the events of the environment, and for every obligation with hypotheses a state and operands that meet them. -/

namespace Sys2Proof.Tests

open Machine

/-! ## Helpers -/

/-- One step on the instruction `w` placed where `s` fetches. -/
def runAs (nbits w : Nat) (s : State) : Option State :=
  match step (s.withFetchWord nbits w) with
  | .next t => some t
  | .fault _ => none
  | .refused _ => none

/-- The reset state with a CPSR, a PC, registers of the current mode and words of memory. -/
def start (cpsr pc : Word) (regs : List (RegNum × Word)) (words : List (Word × Word)) : State :=
  let s := (State.reset.setCpsr cpsr).writePhys .pc pc
  let s := regs.foldl (fun s p => s.setReg p.1 p.2) s
  s.setMem (words.foldl (fun m p => m.store .word p.1 p.2) s.mem)

def withSpsrSvc (v : Psr) (s : State) : State := s.setSpsrs (s.spsr.set .supervisor v)

/-- Whether an answer is a next state with a property. -/
def nextWith (r : Result State) (p : State → Bool) : Bool :=
  match r with
  | .next t => p t
  | .fault _ => false
  | .refused _ => false

/-! ## Well-formedness -/

/-- The bits of MUL are no undefined multiply (R153 line 7). -/
theorem test_illformed_armUndefMultiply : (Instr.armUndefMultiply .al 0b00000#5 0#12 0#4).wellFormed = false := by decide

/-- The bits of SWP are no undefined multiply (R153 line 6). -/
theorem test_illformed_armUndefMultiply_swap : (Instr.armUndefMultiply .al 0b10000#5 0#12 0#4).wellFormed = false := by decide

/-- The bits of a PUSH are no undefined halfword (R170 line 14). -/
theorem test_illformed_thumbUndef1011 : (Instr.thumbUndef1011 0b010000000001#12).wellFormed = false := by decide

/-- Condition 1111 of format 16 is SWI (R181). -/
theorem test_illformed_thumbBCond : (Instr.thumbBCond .nv 0#8).wellFormed = false := by decide

/-! ## Decoding -/

/-- R162, R163. -/
theorem test_decode_arm_branches_and_blocks :
    decodeArm 0b0000_101_0_000000000000000000000001#32 = .armB .eq 1#24 ∧
    decodeArm 0b1110_101_1_111111111111111111111110#32 = .armBl .al 0xFFFFFE#24 ∧
    decodeArm 0b1110_100_1_0_0_1_0_1101_0100000000000011#32 = .armStm .al { pre := true, up := false, sbit := false, wback := true, rn := 13#4 } 0x4003#16 ∧
    decodeArm 0b1110_100_0_1_1_1_1_1101_1000000000000001#32 = .armLdm .al { pre := false, up := true, sbit := true, wback := true, rn := 13#4 } 0x8001#16 ∧
    decodeArm 0b0001_100_0_0_0_0_0_0000_0000000000000000#32 = .armStm .ne { pre := false, up := false, sbit := false, wback := false, rn := 0#4 } 0#16 := by decide

/-- R161. -/
theorem test_decode_arm_single_transfers :
    decodeArm 0b1110_010_1_1_0_1_0_0001_0001_000000000100#32 = .armStr .al { pre := true, up := true, wback := true, rn := 1#4 } (.imm12 4#12) 1#4 ∧
    decodeArm 0b1110_011_1_1_0_0_1_0010_0011_00100_01_1_0100#32 = .armLdr .al { pre := true, up := true, wback := false, rn := 2#4 } (.shifted 4#5 .lsr 4#4) 3#4 ∧
    decodeArm 0b1110_010_0_0_1_0_0_0101_0110_111111111111#32 = .armStrb .al { pre := false, up := false, wback := false, rn := 5#4 } (.imm12 0xFFF#12) 6#4 ∧
    decodeArm 0b1111_010_0_1_1_1_1_0101_1111_000000000001#32 = .armLdrb .nv { pre := false, up := true, wback := true, rn := 5#4 } (.imm12 1#12) 15#4 := by decide

/-- R156, R157. -/
theorem test_decode_arm_multiplies_and_swaps :
    decodeArm 0b1110_000_000_0_1_0000_1111_0010_1001_0001#32 = .armMul .al true 0#4 2#4 1#4 ∧
    decodeArm 0b1110_000_000_1_0_0000_0011_0010_1001_0001#32 = .armMla .al false 0#4 3#4 2#4 1#4 ∧
    decodeArm 0b1110_00001_0_0_0_0001_0000_0011_1001_0010#32 = .armUmull .al false 1#4 0#4 3#4 2#4 ∧
    decodeArm 0b1110_00001_0_1_1_0001_0000_0011_1001_0010#32 = .armUmlal .al true 1#4 0#4 3#4 2#4 ∧
    decodeArm 0b1110_00001_1_0_0_0001_0000_0011_1001_0010#32 = .armSmull .al false 1#4 0#4 3#4 2#4 ∧
    decodeArm 0b1110_00001_1_1_1_0001_0000_0011_1001_0010#32 = .armSmlal .al true 1#4 0#4 3#4 2#4 ∧
    decodeArm 0b1110_00010_0_00_0001_0100_0000_1001_0010#32 = .armSwp .al 1#4 4#4 2#4 ∧
    decodeArm 0b1110_00010_1_00_0010_0000_0000_1001_0001#32 = .armSwpb .al 2#4 0#4 1#4 ∧
    decodeArm 0b1110_000_11000_000000001010_1001_0101#32 = .armUndefMultiply .al 0b11000#5 0x00A#12 5#4 ∧
    decodeArm 0b1110_000_10001_000000000000_1001_0000#32 = .armUndefMultiply .al 0b10001#5 0#12 0#4 := by decide

/-- R158, R153 line 8. -/
theorem test_decode_arm_halfword_transfers :
    decodeArm 0b1110_000_1_1_1_0_0_0001_0000_0001_1_01_1_0010#32 = .armStrh .al { pre := true, up := true, wback := false, rn := 1#4 } (.imm8 0x12#8) 0#4 ∧
    decodeArm 0b1110_000_0_0_0_0_1_0001_0000_0000_1_01_1_0010#32 = .armLdrh .al { pre := false, up := false, wback := false, rn := 1#4 } (.reg 2#4) 0#4 ∧
    decodeArm 0b1110_000_1_1_1_1_1_0001_0000_0000_1_10_1_0001#32 = .armLdrsb .al { pre := true, up := true, wback := true, rn := 1#4 } (.imm8 1#8) 0#4 ∧
    decodeArm 0b1110_000_1_1_0_0_1_0001_0000_0000_1_11_1_0010#32 = .armLdrsh .al { pre := true, up := true, wback := false, rn := 1#4 } (.reg 2#4) 0#4 ∧
    decodeArm 0b1110_000_1110_0_000000010010_1_10_1_0011#32 = .armUndefStoreSh10 .al 0b1110#4 0x012#12 3#4 ∧
    decodeArm 0b1110_000_0001_0_000000010010_1_11_1_0011#32 = .armUndefStoreSh11 .al 0b0001#4 0x012#12 3#4 := by decide

/-- R159, R160, R164, R153 line 13. -/
theorem test_decode_arm_system :
    decodeArm 0b1110_0001_0010_1111_1111_1111_0001_1110#32 = .armBx .al 14#4 ∧
    decodeArm 0b1110_00010_0_00_1111_0011_000000000000#32 = .armMrsCpsr .al 3#4 ∧
    decodeArm 0b1110_00010_1_00_1111_0011_000000000000#32 = .armMrsSpsr .al 3#4 ∧
    decodeArm 0b1110_00010_0_10_1001_1111_00000000_0101#32 = .armMsrCpsrReg .al 9#4 5#4 ∧
    decodeArm 0b1110_00010_1_10_0001_1111_00000000_0101#32 = .armMsrSpsrReg .al 1#4 5#4 ∧
    decodeArm 0b1110_00110_0_10_1000_1111_0100_11110000#32 = .armMsrCpsrImm .al 8#4 4#4 0xF0#8 ∧
    decodeArm 0b1110_00110_1_10_1000_1111_0100_11110000#32 = .armMsrSpsrImm .al 8#4 4#4 0xF0#8 ∧
    decodeArm 0b1110_110_0000000000000000000000011#32 = .armUndefClass110 .al 3#25 ∧
    decodeArm 0b1110_1111_000000000000000000000101#32 = .armSwi .al 0x1000005#25 ∧
    decodeArm 0b1110_1110_000000000000000000000101#32 = .armSwi .al 5#25 := by decide

/-- R154, R155. -/
theorem test_decode_arm_data_processing :
    decodeArm 0b1110_00_1_0000_1_0001_0010_0010_00001111#32 = .armAnd .al true 1#4 2#4 (.imm 2#4 0x0F#8) ∧
    decodeArm 0b1110_00_0_0001_0_0001_0010_00011_10_0_0101#32 = .armEor .al false 1#4 2#4 (.shiftImm 3#5 .asr 5#4) ∧
    decodeArm 0b1110_00_0_0010_1_0001_0010_0110_0_11_1_0101#32 = .armSub .al true 1#4 2#4 (.shiftReg 6#4 .ror 5#4) ∧
    decodeArm 0b1110_00_1_0011_0_0001_0010_0010_00001111#32 = .armRsb .al false 1#4 2#4 (.imm 2#4 0x0F#8) ∧
    decodeArm 0b1110_00_0_0100_1_0001_0010_00011_10_0_0101#32 = .armAdd .al true 1#4 2#4 (.shiftImm 3#5 .asr 5#4) ∧
    decodeArm 0b1110_00_0_0101_0_0001_0010_0110_0_11_1_0101#32 = .armAdc .al false 1#4 2#4 (.shiftReg 6#4 .ror 5#4) ∧
    decodeArm 0b1110_00_1_0110_1_0001_0010_0010_00001111#32 = .armSbc .al true 1#4 2#4 (.imm 2#4 0x0F#8) ∧
    decodeArm 0b1110_00_0_0111_0_0001_0010_00011_10_0_0101#32 = .armRsc .al false 1#4 2#4 (.shiftImm 3#5 .asr 5#4) ∧
    decodeArm 0b1110_00_0_1000_1_0001_0000_0110_0_11_1_0101#32 = .armTst .al 1#4 (.shiftReg 6#4 .ror 5#4) ∧
    decodeArm 0b1110_00_1_1001_1_0001_0000_0010_00001111#32 = .armTeq .al 1#4 (.imm 2#4 0x0F#8) ∧
    decodeArm 0b1110_00_0_1010_1_0001_0000_00011_10_0_0101#32 = .armCmp .al 1#4 (.shiftImm 3#5 .asr 5#4) ∧
    decodeArm 0b1110_00_0_1011_1_0001_0000_0110_0_11_1_0101#32 = .armCmn .al 1#4 (.shiftReg 6#4 .ror 5#4) ∧
    decodeArm 0b1110_00_1_1100_1_0001_0010_0010_00001111#32 = .armOrr .al true 1#4 2#4 (.imm 2#4 0x0F#8) ∧
    decodeArm 0b1110_00_0_1101_0_0000_0010_00011_10_0_0101#32 = .armMov .al false 2#4 (.shiftImm 3#5 .asr 5#4) ∧
    decodeArm 0b1110_00_0_1110_1_0001_0010_0110_0_11_1_0101#32 = .armBic .al true 1#4 2#4 (.shiftReg 6#4 .ror 5#4) ∧
    decodeArm 0b1110_00_1_1111_0_0000_0010_0010_00001111#32 = .armMvn .al false 2#4 (.imm 2#4 0x0F#8) := by decide

/-- R171 formats 1 to 3. -/
theorem test_decode_thumb_formats_1_to_3 :
    decodeThumb 0b000_00_00100_001_010#16 = .thumbLslImm 4#5 1#3 2#3 ∧
    decodeThumb 0b000_01_00100_001_010#16 = .thumbLsrImm 4#5 1#3 2#3 ∧
    decodeThumb 0b000_10_00100_001_010#16 = .thumbAsrImm 4#5 1#3 2#3 ∧
    decodeThumb 0b00011_0_0_011_001_010#16 = .thumbAddReg 3#3 1#3 2#3 ∧
    decodeThumb 0b00011_0_1_011_001_010#16 = .thumbSubReg 3#3 1#3 2#3 ∧
    decodeThumb 0b00011_1_0_011_001_010#16 = .thumbAddImm3 3#3 1#3 2#3 ∧
    decodeThumb 0b00011_1_1_011_001_010#16 = .thumbSubImm3 3#3 1#3 2#3 ∧
    decodeThumb 0b001_00_010_10000001#16 = .thumbMovImm8 2#3 0x81#8 ∧
    decodeThumb 0b001_01_010_10000001#16 = .thumbCmpImm8 2#3 0x81#8 ∧
    decodeThumb 0b001_10_010_10000001#16 = .thumbAddImm8 2#3 0x81#8 ∧
    decodeThumb 0b001_11_010_10000001#16 = .thumbSubImm8 2#3 0x81#8 := by decide

/-- R171 formats 4 and 5. -/
theorem test_decode_thumb_formats_4_and_5 :
    decodeThumb 0b010000_0000_001_010#16 = .thumbAnd 1#3 2#3 ∧
    decodeThumb 0b010000_0001_001_010#16 = .thumbEor 1#3 2#3 ∧
    decodeThumb 0b010000_0010_001_010#16 = .thumbLslReg 1#3 2#3 ∧
    decodeThumb 0b010000_0011_001_010#16 = .thumbLsrReg 1#3 2#3 ∧
    decodeThumb 0b010000_0100_001_010#16 = .thumbAsrReg 1#3 2#3 ∧
    decodeThumb 0b010000_0101_001_010#16 = .thumbAdc 1#3 2#3 ∧
    decodeThumb 0b010000_0110_001_010#16 = .thumbSbc 1#3 2#3 ∧
    decodeThumb 0b010000_0111_001_010#16 = .thumbRorReg 1#3 2#3 ∧
    decodeThumb 0b010000_1000_001_010#16 = .thumbTst 1#3 2#3 ∧
    decodeThumb 0b010000_1001_001_010#16 = .thumbNeg 1#3 2#3 ∧
    decodeThumb 0b010000_1010_001_010#16 = .thumbCmpReg 1#3 2#3 ∧
    decodeThumb 0b010000_1011_001_010#16 = .thumbCmn 1#3 2#3 ∧
    decodeThumb 0b010000_1100_001_010#16 = .thumbOrr 1#3 2#3 ∧
    decodeThumb 0b010000_1101_001_010#16 = .thumbMul 1#3 2#3 ∧
    decodeThumb 0b010000_1110_001_010#16 = .thumbBic 1#3 2#3 ∧
    decodeThumb 0b010000_1111_001_010#16 = .thumbMvn 1#3 2#3 ∧
    decodeThumb 0b010001_00_1_0_001_010#16 = .thumbAddHi 1#4 10#4 ∧
    decodeThumb 0b010001_01_0_1_001_010#16 = .thumbCmpHi 9#4 2#4 ∧
    decodeThumb 0b010001_10_1_1_110_111#16 = .thumbMovHi 14#4 15#4 ∧
    decodeThumb 0b010001_11_0_1_110_000#16 = .thumbBx 14#4 := by decide

/-- R171 formats 6 to 9. -/
theorem test_decode_thumb_formats_6_to_9 :
    decodeThumb 0b01001_010_10000001#16 = .thumbLdrPc 2#3 0x81#8 ∧
    decodeThumb 0b0101_00_0_011_001_010#16 = .thumbStrReg 3#3 1#3 2#3 ∧
    decodeThumb 0b0101_01_0_011_001_010#16 = .thumbStrbReg 3#3 1#3 2#3 ∧
    decodeThumb 0b0101_10_0_011_001_010#16 = .thumbLdrReg 3#3 1#3 2#3 ∧
    decodeThumb 0b0101_11_0_011_001_010#16 = .thumbLdrbReg 3#3 1#3 2#3 ∧
    decodeThumb 0b0101_00_1_011_001_010#16 = .thumbStrhReg 3#3 1#3 2#3 ∧
    decodeThumb 0b0101_01_1_011_001_010#16 = .thumbLdsb 3#3 1#3 2#3 ∧
    decodeThumb 0b0101_10_1_011_001_010#16 = .thumbLdrhReg 3#3 1#3 2#3 ∧
    decodeThumb 0b0101_11_1_011_001_010#16 = .thumbLdsh 3#3 1#3 2#3 ∧
    decodeThumb 0b011_0_0_00100_001_010#16 = .thumbStrImm 4#5 1#3 2#3 ∧
    decodeThumb 0b011_0_1_00100_001_010#16 = .thumbLdrImm 4#5 1#3 2#3 ∧
    decodeThumb 0b011_1_0_00100_001_010#16 = .thumbStrbImm 4#5 1#3 2#3 ∧
    decodeThumb 0b011_1_1_00100_001_010#16 = .thumbLdrbImm 4#5 1#3 2#3 := by decide

/-- R171 formats 10 to 15. -/
theorem test_decode_thumb_formats_10_to_15 :
    decodeThumb 0b1000_0_00100_001_010#16 = .thumbStrhImm 4#5 1#3 2#3 ∧
    decodeThumb 0b1000_1_00100_001_010#16 = .thumbLdrhImm 4#5 1#3 2#3 ∧
    decodeThumb 0b1001_0_010_10000001#16 = .thumbStrSp 2#3 0x81#8 ∧
    decodeThumb 0b1001_1_010_10000001#16 = .thumbLdrSp 2#3 0x81#8 ∧
    decodeThumb 0b1010_0_010_10000001#16 = .thumbAddRdPc 2#3 0x81#8 ∧
    decodeThumb 0b1010_1_010_10000001#16 = .thumbAddRdSp 2#3 0x81#8 ∧
    decodeThumb 0b10110000_0_0000010#16 = .thumbAddSpImm 2#7 ∧
    decodeThumb 0b10110000_1_0000010#16 = .thumbSubSpImm 2#7 ∧
    decodeThumb 0b1011_0_10_1_00000011#16 = .thumbPush true 3#8 ∧
    decodeThumb 0b1011_1_10_0_00000011#16 = .thumbPop false 3#8 ∧
    decodeThumb 0b1011_000100000010#16 = .thumbUndef1011 0x102#12 ∧
    decodeThumb 0b1011_111111111111#16 = .thumbUndef1011 0xFFF#12 ∧
    decodeThumb 0b1100_0_010_10000001#16 = .thumbStmia 2#3 0x81#8 ∧
    decodeThumb 0b1100_1_010_10000001#16 = .thumbLdmia 2#3 0x81#8 := by decide

/-- R171 formats 16 to 19, R181. -/
theorem test_decode_thumb_formats_16_to_19 :
    decodeThumb 0b1101_0001_11111110#16 = .thumbBCond .ne 0xFE#8 ∧
    decodeThumb 0b1101_1110_00000001#16 = .thumbBCond .al 1#8 ∧
    decodeThumb 0b11011111_00000101#16 = .thumbSwi 5#8 ∧
    decodeThumb 0b11100_00000000011#16 = .thumbB 3#11 ∧
    decodeThumb 0b11101_00000000011#16 = .thumbUndef11101 3#11 ∧
    decodeThumb 0b11110_00000000011#16 = .thumbBlFirst 3#11 ∧
    decodeThumb 0b11111_00000000011#16 = .thumbBlSecond 3#11 := by decide

/-- The table numbers a Thumb row's bits from the one halfword, an ARM row's from the one word. -/
theorem test_decodeTableWord :
    decodeTableWord 16 0x2001 = some (.thumbMovImm8 0#3 1#8) ∧
    decodeTableWord 32 0xE3A00001 = some (.armMov .al false 0#4 (.imm 0#4 1#8)) := by decide

/-- Too few bytes hold no instruction (R150). -/
theorem test_decodeBytes_truncated :
    decodeBytes true [0x01#8] = .error .truncated ∧ decodeBytes false [0#8, 0#8, 0#8] = .error .truncated := by
  constructor <;> rfl

/-- Bytes are little-endian and the rest is given back (R150). -/
theorem test_decodeBytes_little_endian :
    decodeBytes true [0x01#8, 0x20#8, 0xAA#8] = .ok (.thumbMovImm8 0#3 1#8, [0xAA#8]) := by rfl

/-! ## One step of every instruction -/

/-- R310. -/
theorem test_exec_armAnd :
    (runAs 32 0xE0110002 (start 0x000000DF#32 0x08000000#32 [(1#4, 0xF0F0F0F0#32), (2#4, 0xFF00FF00#32)] [])).map (fun t => (t.reg 0, t.cpsr, t.pc, t.cycles)) =
      some (0xF000F000#32, 0x800000DF#32, 0x08000004#32, 1) := by decide

/-- R311. -/
theorem test_exec_armEor :
    (runAs 32 0xE0310002 (start 0x000000DF#32 0x08000000#32 [(1#4, 0xFFFF0000#32), (2#4, 0x0F0F0F0F#32)] [])).map (fun t => (t.reg 0, t.cpsr)) =
      some (0xF0F00F0F#32, 0x800000DF#32) := by decide

/-- R312. -/
theorem test_exec_armSub :
    (runAs 32 0xE0510002 (start 0x000000DF#32 0x08000000#32 [(1#4, 0x00000005#32), (2#4, 0x00000007#32)] [])).map (fun t => (t.reg 0, t.cpsr)) =
      some (0xFFFFFFFE#32, 0x800000DF#32) := by decide

/-- R313. -/
theorem test_exec_armRsb :
    (runAs 32 0xE2710000 (start 0x000000DF#32 0x08000000#32 [(1#4, 0x00000001#32)] [])).map (fun t => (t.reg 0, t.cpsr)) =
      some (0xFFFFFFFF#32, 0x800000DF#32) := by decide

/-- R314 (scenario S2). -/
theorem test_exec_armAdd :
    (runAs 32 0xE0902001 (start 0x000000DF#32 0x08000000#32 [(0#4, 0x7FFFFFFF#32), (1#4, 0x00000001#32)] [])).map (fun t => (t.reg 2, t.cpsr)) =
      some (0x80000000#32, 0x900000DF#32) := by decide

/-- R314, ADD PC, PC, #4 jumps to cur + 12. -/
theorem test_exec_armAdd_pc :
    (runAs 32 0xE28FF004 (start 0x000000DF#32 0x08000000#32 [] [])).map (fun t => (t.pc, t.cycles)) =
      some (0x0800000C#32, 3) := by decide

/-- R315. -/
theorem test_exec_armAdc :
    (runAs 32 0xE0B10002 (start 0x200000DF#32 0x08000000#32 [(1#4, 0xFFFFFFFF#32)] [])).map (fun t => (t.reg 0, t.cpsr)) =
      some (0x00000000#32, 0x600000DF#32) := by decide

/-- R316. -/
theorem test_exec_armSbc :
    (runAs 32 0xE0D10002 (start 0x000000DF#32 0x08000000#32 [(1#4, 0x00000005#32), (2#4, 0x00000005#32)] [])).map (fun t => (t.reg 0, t.cpsr)) =
      some (0xFFFFFFFF#32, 0x800000DF#32) := by decide

/-- R317. -/
theorem test_exec_armRsc :
    (runAs 32 0xE0F10002 (start 0x200000DF#32 0x08000000#32 [(1#4, 0x00000003#32), (2#4, 0x0000000A#32)] [])).map (fun t => (t.reg 0, t.cpsr)) =
      some (0x00000007#32, 0x200000DF#32) := by decide

/-- R318. -/
theorem test_exec_armTst :
    (runAs 32 0xE3110102 (start 0x100000DF#32 0x08000000#32 [(1#4, 0x80000000#32)] [])).map (fun t => (t.reg 1, t.cpsr)) =
      some (0x80000000#32, 0xB00000DF#32) := by decide

/-- R319. -/
theorem test_exec_armTeq :
    (runAs 32 0xE1310001 (start 0x300000DF#32 0x08000000#32 [(1#4, 0x00000005#32)] [])).map (fun t => t.cpsr) =
      some 0x700000DF#32 := by decide

/-- R320. -/
theorem test_exec_armCmp :
    (runAs 32 0xE3510003 (start 0x000000DF#32 0x08000000#32 [(1#4, 0x00000003#32)] [])).map (fun t => t.cpsr) =
      some 0x600000DF#32 := by decide

/-- R321. -/
theorem test_exec_armCmn :
    (runAs 32 0xE3710001 (start 0x000000DF#32 0x08000000#32 [(1#4, 0xFFFFFFFF#32)] [])).map (fun t => t.cpsr) =
      some 0x600000DF#32 := by decide

/-- R322. -/
theorem test_exec_armOrr :
    (runAs 32 0xE38100F0 (start 0x000000DF#32 0x08000000#32 [(1#4, 0x0000000F#32)] [])).map (fun t => (t.reg 0, t.cpsr)) =
      some (0x000000FF#32, 0x000000DF#32) := by decide

/-- 95 section 2.5: MOVS PC, LR from Supervisor to Thumb. -/
theorem test_exec_armMov_return :
    (runAs 32 0xE1B0F00E (withSpsrSvc 0x30#32 (start 0x00000013#32 0x08000000#32 [(14#4, 0x08000101#32)] []))).map (fun t => (t.cpsr, t.pc, t.cycles)) =
      some (0x00000030#32, 0x08000100#32, 3) := by decide

/-- R324. -/
theorem test_exec_armBic :
    (runAs 32 0xE3C1000F (start 0x000000DF#32 0x08000000#32 [(1#4, 0x000000FF#32)] [])).map (fun t => t.reg 0) =
      some 0x000000F0#32 := by decide

/-- R325. -/
theorem test_exec_armMvn :
    (runAs 32 0xE3F00000 (start 0x200000DF#32 0x08000000#32 [] [])).map (fun t => (t.reg 0, t.cpsr)) =
      some (0xFFFFFFFF#32, 0xA00000DF#32) := by decide

/-- 95 section 2.1: MOVEQ with Z = 0. -/
theorem test_exec_armMov_condition_fails :
    (runAs 32 0x03A00001 (start 0x000000DF#32 0x08000000#32 [(0#4, 0x00000007#32)] [])).map (fun t => (t.reg 0, t.pc, t.cycles, t.cpsr)) =
      some (0x00000007#32, 0x08000004#32, 1, 0x000000DF#32) := by decide

/-- R351. -/
theorem test_exec_armMul :
    (runAs 32 0xE0100291 (start 0x300000DF#32 0x08000000#32 [(1#4, 0x00010000#32), (2#4, 0x00010000#32)] [])).map (fun t => (t.reg 0, t.cpsr, t.cycles)) =
      some (0x00000000#32, 0x700000DF#32, 2) := by decide

/-- R352. -/
theorem test_exec_armMla :
    (runAs 32 0xE0303291 (start 0x000000DF#32 0x08000000#32 [(1#4, 0x00000002#32), (2#4, 0x00000003#32), (3#4, 0xFFFFFFFA#32)] [])).map (fun t => (t.reg 0, t.cpsr)) =
      some (0x00000000#32, 0x400000DF#32) := by decide

/-- R353. -/
theorem test_exec_armUmull :
    (runAs 32 0xE0810392 (start 0x000000DF#32 0x08000000#32 [(2#4, 0xFFFFFFFF#32), (3#4, 0xFFFFFFFF#32)] [])).map (fun t => (t.reg 0, t.reg 1, t.cycles)) =
      some (0x00000001#32, 0xFFFFFFFE#32, 3) := by decide

/-- R357: RdHi = RdLo ends with the high word. -/
theorem test_exec_armUmull_same_destination :
    (runAs 32 0xE0800392 (start 0x000000DF#32 0x08000000#32 [(2#4, 0x12345678#32), (3#4, 0x00000010#32)] [])).map (fun t => t.reg 0) =
      some 0x00000001#32 := by decide

/-- R354. -/
theorem test_exec_armUmlal :
    (runAs 32 0xE0A10392 (start 0x000000DF#32 0x08000000#32 [(0#4, 0x00000001#32), (2#4, 0xFFFFFFFF#32), (3#4, 0x00000001#32)] [])).map (fun t => (t.reg 0, t.reg 1)) =
      some (0x00000000#32, 0x00000001#32) := by decide

/-- R355. -/
theorem test_exec_armSmull :
    (runAs 32 0xE0D10392 (start 0x000000DF#32 0x08000000#32 [(2#4, 0xFFFFFFFE#32), (3#4, 0x00000003#32)] [])).map (fun t => (t.reg 0, t.reg 1, t.cpsr)) =
      some (0xFFFFFFFA#32, 0xFFFFFFFF#32, 0x800000DF#32) := by decide

/-- R356. -/
theorem test_exec_armSmlal :
    (runAs 32 0xE0F10392 (start 0x000000DF#32 0x08000000#32 [(0#4, 0x00000006#32), (2#4, 0xFFFFFFFE#32), (3#4, 0x00000003#32)] [])).map (fun t => (t.reg 0, t.reg 1, t.cpsr)) =
      some (0x00000000#32, 0x00000000#32, 0x400000DF#32) := by decide

/-- 95 section 2.7. -/
theorem test_exec_armB :
    (runAs 32 0xEAFFFFFD (start 0x000000DF#32 0x08000010#32 [] [])).map (fun t => (t.pc, t.cycles)) =
      some (0x0800000C#32, 3) := by decide

/-- R371 (scenario S4). -/
theorem test_exec_armBl :
    (runAs 32 0xEB00003E (start 0x000000DF#32 0x08000100#32 [] [])).map (fun t => (t.reg 14, t.pc, t.cycles)) =
      some (0x08000104#32, 0x08000200#32, 3) := by decide

/-- 95 section 2.7. -/
theorem test_exec_armBx :
    (runAs 32 0xE12FFF10 (start 0x000000DF#32 0x08000000#32 [(0#4, 0x08000103#32)] [])).map (fun t => (t.cpsr, t.pc, t.cycles)) =
      some (0x000000FF#32, 0x08000102#32, 3) := by decide

/-- R475 (scenario S6). -/
theorem test_exec_armSwi :
    (runAs 32 0xEF000001 (start 0x00000010#32 0x08000200#32 [] [])).map (fun t => (t.cpsr, t.spsr.supervisor, t.reg 14, t.pc, t.cycles)) =
      some (0x00000093#32, 0x00000010#32, 0x08000204#32, 0x00000008#32, 3) := by decide

/-- R476. -/
theorem test_exec_armUndefMultiply :
    (runAs 32 0xE1800090 (start 0x000000DF#32 0x08000000#32 [] [])).map (fun t => (t.cpsr, t.pc, t.cycles)) =
      some (0x000000DF#32, 0x08000004#32, 1) := by decide

/-- R476. -/
theorem test_exec_armUndefStoreSh10 :
    (runAs 32 0xE1C000D0 (start 0x000000DF#32 0x08000000#32 [] [])).map (fun t => (t.cpsr, t.pc, t.cycles)) =
      some (0x000000DF#32, 0x08000004#32, 1) := by decide

/-- R476. -/
theorem test_exec_armUndefStoreSh11 :
    (runAs 32 0xE1C000F0 (start 0x000000DF#32 0x08000000#32 [] [])).map (fun t => (t.cpsr, t.pc, t.cycles)) =
      some (0x000000DF#32, 0x08000004#32, 1) := by decide

/-- R476. -/
theorem test_exec_armUndefClass110 :
    (runAs 32 0xEC000000 (start 0x000000DF#32 0x08000000#32 [] [])).map (fun t => (t.cpsr, t.pc, t.cycles)) =
      some (0x000000DF#32, 0x08000004#32, 1) := by decide

/-- R403 (scenario S5). -/
theorem test_exec_armLdr :
    (runAs 32 0xE5910000 (start 0x000000DF#32 0x08000000#32 [(1#4, 0x02000002#32)] [(0x02000000#32, 0xDEADBEEF#32)])).map (fun t => (t.reg 0, t.reg 1, t.cycles)) =
      some (0xBEEFDEAD#32, 0x02000002#32, 3) := by decide

/-- 95 section 2.8: LDR R1, [R1, #4]!. -/
theorem test_exec_armLdr_base_is_rd :
    (runAs 32 0xE5B11004 (start 0x000000DF#32 0x08000000#32 [(1#4, 0x02000000#32)] [(0x02000004#32, 0x00000055#32)])).map (fun t => t.reg 1) =
      some 0x00000055#32 := by decide

/-- 95 section 2.8. -/
theorem test_exec_armLdrb :
    (runAs 32 0xE5D10001 (start 0x000000DF#32 0x08000000#32 [(1#4, 0x02000000#32)] [(0x02000000#32, 0x44332211#32)])).map (fun t => (t.reg 0, t.cycles)) =
      some (0x00000022#32, 3) := by decide

/-- 95 section 2.8: STR R1, [R1, #4]!. -/
theorem test_exec_armStr :
    (runAs 32 0xE5A11004 (start 0x000000DF#32 0x08000000#32 [(1#4, 0x02000000#32)] [])).map (fun t => (t.mem.load .word 0x02000004#32, t.reg 1, t.cycles)) =
      some (0x02000000#32, 0x02000004#32, 2) := by decide

/-- 95 section 2.4: STR PC stores cur + 12. -/
theorem test_exec_armStr_pc :
    (runAs 32 0xE581F000 (start 0x000000DF#32 0x08000000#32 [(1#4, 0x02000000#32)] [])).map (fun t => (t.mem.load .word 0x02000000#32, t.cycles)) =
      some (0x0800000C#32, 2) := by decide

/-- 95 section 2.8. -/
theorem test_exec_armStrb :
    (runAs 32 0xE5C10000 (start 0x000000DF#32 0x08000000#32 [(0#4, 0xAABBCCDD#32), (1#4, 0x02000003#32)] [(0x02000000#32, 0x44332211#32)])).map (fun t => (t.mem.load .word 0x02000000#32, t.cycles)) =
      some (0xDD332211#32, 2) := by decide

/-- 95 section 2.9: an odd address. -/
theorem test_exec_armLdrh :
    (runAs 32 0xE1D100B1 (start 0x000000DF#32 0x08000000#32 [(1#4, 0x02000000#32)] [(0x02000000#32, 0x0000BEEF#32)])).map (fun t => (t.reg 0, t.cycles)) =
      some (0xEF0000BE#32, 3) := by decide

/-- 95 section 2.9: an odd address. -/
theorem test_exec_armStrh :
    (runAs 32 0xE1C100B0 (start 0x000000DF#32 0x08000000#32 [(0#4, 0xAABBCCDD#32), (1#4, 0x02000003#32)] [])).map (fun t => (t.mem.load .word 0x02000000#32, t.cycles)) =
      some (0xCCDD0000#32, 2) := by decide

/-- 95 section 2.9. -/
theorem test_exec_armLdrsb :
    (runAs 32 0xE1D100D0 (start 0x000000DF#32 0x08000000#32 [(1#4, 0x02000000#32)] [(0x02000000#32, 0x00000080#32)])).map (fun t => t.reg 0) =
      some 0xFFFFFF80#32 := by decide

/-- 95 section 2.9. -/
theorem test_exec_armLdrsh :
    (runAs 32 0xE1D100F0 (start 0x000000DF#32 0x08000000#32 [(1#4, 0x02000000#32)] [(0x02000000#32, 0x00008001#32)])).map (fun t => t.reg 0) =
      some 0xFFFF8001#32 := by decide

/-- 95 section 2.9: an odd address. -/
theorem test_exec_armLdrsh_odd :
    (runAs 32 0xE1D100F1 (start 0x000000DF#32 0x08000000#32 [(1#4, 0x02000000#32)] [(0x02000000#32, 0x0000BEEF#32)])).map (fun t => t.reg 0) =
      some 0xFFFFFFBE#32 := by decide

/-- 95 section 2.11. -/
theorem test_exec_armSwp :
    (runAs 32 0xE1014092 (start 0x000000DF#32 0x08000000#32 [(1#4, 0x02000000#32), (2#4, 0x11000000#32)] [(0x02000000#32, 0x00000011#32)])).map (fun t => (t.reg 4, t.mem.load .word 0x02000000#32, t.cycles)) =
      some (0x00000011#32, 0x11000000#32, 4) := by decide

/-- R441. -/
theorem test_exec_armSwpb :
    (runAs 32 0xE1420091 (start 0x000000DF#32 0x08000000#32 [(2#4, 0x02000003#32), (1#4, 0x12345655#32)] [(0x02000000#32, 0xAA000000#32)])).map (fun t => (t.reg 0, t.mem.load .word 0x02000000#32, t.cycles)) =
      some (0x000000AA#32, 0x55000000#32, 4) := by decide

/-- R426: the base is not the lowest register. -/
theorem test_exec_armStm :
    (runAs 32 0xE8A10003 (start 0x000000DF#32 0x08000000#32 [(0#4, 0x00000005#32), (1#4, 0x02000000#32)] [])).map (fun t => (t.mem.load .word 0x02000000#32, t.mem.load .word 0x02000004#32, t.reg 1, t.cycles)) =
      some (0x00000005#32, 0x02000008#32, 0x02000008#32, 4) := by decide

/-- 95 section 2.10: STMDB R0!, with an empty list. -/
theorem test_exec_armStm_empty :
    (runAs 32 0xE9200000 (start 0x000000DF#32 0x08000000#32 [(0#4, 0x02000100#32)] [])).map (fun t => (t.mem.load .word 0x020000C0#32, t.reg 0, t.cycles)) =
      some (0x0800000C#32, 0x020000C0#32, 2) := by decide

/-- 95 section 2.10: LDMIA SP!, {R0, PC}^ in Supervisor mode. -/
theorem test_exec_armLdm_return :
    (runAs 32 0xE8FD8001 (withSpsrSvc 0x30#32 (start 0x00000013#32 0x08000000#32 [(13#4, 0x03007FD0#32)] [(0x03007FD0#32, 0x00000007#32), (0x03007FD4#32, 0x08000101#32)]))).map (fun t => (t.reg 0, t.r13.supervisor, t.cpsr, t.pc, t.cycles)) =
      some (0x00000007#32, 0x03007FD8#32, 0x00000030#32, 0x08000100#32, 6) := by decide

/-- 95 section 2.10: LDMIA R0, {R13, R14}^ in IRQ mode. -/
theorem test_exec_armLdm_user_bank :
    (runAs 32 0xE8D06000 (start 0x00000092#32 0x08000000#32 [(0#4, 0x02000100#32)] [(0x02000100#32, 0x00000555#32), (0x02000104#32, 0x00000666#32)])).map (fun t => (t.r13.user, t.r14.user, t.r13.irq)) =
      some (0x00000555#32, 0x00000666#32, 0x03007FA0#32) := by decide

/-- R470. -/
theorem test_exec_armMrsCpsr :
    (runAs 32 0xE10F0000 (start 0x6000001F#32 0x08000000#32 [] [])).map (fun t => (t.reg 0, t.cycles)) =
      some (0x6000001F#32, 1) := by decide

/-- R470: CPSR in System mode. -/
theorem test_exec_armMrsSpsr :
    (runAs 32 0xE14F0000 (start 0x6000001F#32 0x08000000#32 [] [])).map (fun t => (t.reg 0, t.cycles)) =
      some (0x6000001F#32, 1) := by decide

/-- R470, R42: the SPSR of the current mode. -/
theorem test_exec_armMrsSpsr_supervisor :
    (runAs 32 0xE14F0000 (withSpsrSvc 0x30#32 (start 0x00000013#32 0x08000000#32 [] []))).map (fun t => (t.reg 0, t.cpsr)) =
      some (0x00000030#32, 0x00000013#32) := by decide

/-- R472. -/
theorem test_exec_armMsrCpsrReg :
    (runAs 32 0xE121F000 (start 0x000000DF#32 0x08000000#32 [(0#4, 0x00000012#32)] [])).map (fun t => (t.cpsr, t.reg 13)) =
      some (0x00000012#32, 0x03007FA0#32) := by decide

/-- R473: User mode writes the flags byte alone. -/
theorem test_exec_armMsrCpsrReg_user :
    (runAs 32 0xE129F000 (start 0x00000010#32 0x08000000#32 [(0#4, 0xF000001F#32)] [])).map (fun t => t.cpsr) =
      some 0xF0000010#32 := by decide

/-- R474. -/
theorem test_exec_armMsrSpsrReg :
    (runAs 32 0xE16FF000 (start 0x00000013#32 0x08000000#32 [(0#4, 0x00000030#32)] [])).map (fun t => (t.spsr.supervisor, t.cpsr)) =
      some (0x00000030#32, 0x00000013#32) := by decide

/-- R472. -/
theorem test_exec_armMsrCpsrImm :
    (runAs 32 0xE328F4F0 (start 0x00000010#32 0x08000000#32 [] [])).map (fun t => t.cpsr) =
      some 0xF0000010#32 := by decide

/-- R474: no effect in System mode. -/
theorem test_exec_armMsrSpsrImm :
    (runAs 32 0xE368F4F0 (start 0x000000DF#32 0x08000000#32 [] [])).map (fun t => (t.cpsr, t.spsr.fiq, t.spsr.supervisor, t.cycles)) =
      some (0x000000DF#32, 0x00000000#32, 0x00000000#32, 1) := by decide

/-- R501. -/
theorem test_exec_thumbLslImm :
    (runAs 16 0x0108 (start 0x000000FF#32 0x08000000#32 [(1#4, 0x10000001#32)] [])).map (fun t => (t.reg 0, t.cpsr, t.pc, t.cycles)) =
      some (0x00000010#32, 0x200000FF#32, 0x08000002#32, 1) := by decide

/-- R502. -/
theorem test_exec_thumbLsrImm :
    (runAs 16 0x0808 (start 0x000000FF#32 0x08000000#32 [(1#4, 0x80000000#32)] [])).map (fun t => (t.reg 0, t.cpsr)) =
      some (0x00000000#32, 0x600000FF#32) := by decide

/-- R503. -/
theorem test_exec_thumbAsrImm :
    (runAs 16 0x1048 (start 0x000000FF#32 0x08000000#32 [(1#4, 0x80000001#32)] [])).map (fun t => (t.reg 0, t.cpsr)) =
      some (0xC0000000#32, 0xA00000FF#32) := by decide

/-- R504. -/
theorem test_exec_thumbAddReg :
    (runAs 16 0x1888 (start 0x000000FF#32 0x08000000#32 [(1#4, 0xFFFFFFFF#32), (2#4, 0x00000001#32)] [])).map (fun t => (t.reg 0, t.cpsr)) =
      some (0x00000000#32, 0x600000FF#32) := by decide

/-- R505. -/
theorem test_exec_thumbSubReg :
    (runAs 16 0x1A88 (start 0x000000FF#32 0x08000000#32 [(1#4, 0x00000005#32), (2#4, 0x00000005#32)] [])).map (fun t => (t.reg 0, t.cpsr)) =
      some (0x00000000#32, 0x600000FF#32) := by decide

/-- R506. -/
theorem test_exec_thumbAddImm3 :
    (runAs 16 0x1DC8 (start 0x000000FF#32 0x08000000#32 [(1#4, 0x7FFFFFF9#32)] [])).map (fun t => (t.reg 0, t.cpsr)) =
      some (0x80000000#32, 0x900000FF#32) := by decide

/-- R507. -/
theorem test_exec_thumbSubImm3 :
    (runAs 16 0x1E48 (start 0x000000FF#32 0x08000000#32 [] [])).map (fun t => (t.reg 0, t.cpsr)) =
      some (0xFFFFFFFF#32, 0x800000FF#32) := by decide

/-- R508. -/
theorem test_exec_thumbMovImm8 :
    (runAs 16 0x2080 (start 0xF00000FF#32 0x08000000#32 [] [])).map (fun t => (t.reg 0, t.cpsr)) =
      some (0x00000080#32, 0x300000FF#32) := by decide

/-- R509. -/
theorem test_exec_thumbCmpImm8 :
    (runAs 16 0x2905 (start 0x000000FF#32 0x08000000#32 [(1#4, 0x00000005#32)] [])).map (fun t => (t.reg 1, t.cpsr)) =
      some (0x00000005#32, 0x600000FF#32) := by decide

/-- R510. -/
theorem test_exec_thumbAddImm8 :
    (runAs 16 0x32FF (start 0x000000FF#32 0x08000000#32 [(2#4, 0xFFFFFF01#32)] [])).map (fun t => (t.reg 2, t.cpsr)) =
      some (0x00000000#32, 0x600000FF#32) := by decide

/-- R511. -/
theorem test_exec_thumbSubImm8 :
    (runAs 16 0x3B01 (start 0x000000FF#32 0x08000000#32 [(3#4, 0x80000000#32)] [])).map (fun t => (t.reg 3, t.cpsr)) =
      some (0x7FFFFFFF#32, 0x300000FF#32) := by decide

/-- R512. -/
theorem test_exec_thumbAnd :
    (runAs 16 0x4008 (start 0x000000FF#32 0x08000000#32 [(0#4, 0xFF00FF00#32), (1#4, 0x0FF00FF0#32)] [])).map (fun t => (t.reg 0, t.cpsr)) =
      some (0x0F000F00#32, 0x000000FF#32) := by decide

/-- R513. -/
theorem test_exec_thumbEor :
    (runAs 16 0x4048 (start 0x000000FF#32 0x08000000#32 [(0#4, 0x12345678#32), (1#4, 0x12345678#32)] [])).map (fun t => (t.reg 0, t.cpsr)) =
      some (0x00000000#32, 0x400000FF#32) := by decide

/-- R514. -/
theorem test_exec_thumbLslReg :
    (runAs 16 0x4088 (start 0x000000FF#32 0x08000000#32 [(0#4, 0x00000001#32), (1#4, 0x00000020#32)] [])).map (fun t => (t.reg 0, t.cpsr, t.cycles)) =
      some (0x00000000#32, 0x600000FF#32, 2) := by decide

/-- R515. -/
theorem test_exec_thumbLsrReg :
    (runAs 16 0x40C8 (start 0x000000FF#32 0x08000000#32 [(0#4, 0x80000000#32), (1#4, 0x00000021#32)] [])).map (fun t => (t.reg 0, t.cpsr)) =
      some (0x00000000#32, 0x400000FF#32) := by decide

/-- R516. -/
theorem test_exec_thumbAsrReg :
    (runAs 16 0x4108 (start 0x200000FF#32 0x08000000#32 [(0#4, 0x80000000#32), (1#4, 0x00000100#32)] [])).map (fun t => (t.reg 0, t.cpsr)) =
      some (0x80000000#32, 0xA00000FF#32) := by decide

/-- R517. -/
theorem test_exec_thumbAdc :
    (runAs 16 0x4148 (start 0x200000FF#32 0x08000000#32 [(0#4, 0x00000001#32), (1#4, 0x00000001#32)] [])).map (fun t => (t.reg 0, t.cpsr)) =
      some (0x00000003#32, 0x000000FF#32) := by decide

/-- R518. -/
theorem test_exec_thumbSbc :
    (runAs 16 0x4188 (start 0x200000FF#32 0x08000000#32 [(0#4, 0x00000005#32), (1#4, 0x00000003#32)] [])).map (fun t => (t.reg 0, t.cpsr)) =
      some (0x00000002#32, 0x200000FF#32) := by decide

/-- R519. -/
theorem test_exec_thumbRorReg :
    (runAs 16 0x41C8 (start 0x200000FF#32 0x08000000#32 [(0#4, 0x000000F1#32), (1#4, 0x00000004#32)] [])).map (fun t => (t.reg 0, t.cpsr, t.cycles)) =
      some (0x1000000F#32, 0x000000FF#32, 2) := by decide

/-- R520. -/
theorem test_exec_thumbTst :
    (runAs 16 0x4208 (start 0x000000FF#32 0x08000000#32 [(0#4, 0x0000000F#32), (1#4, 0x000000F0#32)] [])).map (fun t => (t.reg 0, t.cpsr)) =
      some (0x0000000F#32, 0x400000FF#32) := by decide

/-- R521. -/
theorem test_exec_thumbNeg :
    (runAs 16 0x4248 (start 0x000000FF#32 0x08000000#32 [(1#4, 0x00000001#32)] [])).map (fun t => (t.reg 0, t.cpsr)) =
      some (0xFFFFFFFF#32, 0x800000FF#32) := by decide

/-- R522. -/
theorem test_exec_thumbCmpReg :
    (runAs 16 0x4288 (start 0x000000FF#32 0x08000000#32 [(0#4, 0x00000001#32), (1#4, 0x00000002#32)] [])).map (fun t => (t.reg 0, t.cpsr)) =
      some (0x00000001#32, 0x800000FF#32) := by decide

/-- R523. -/
theorem test_exec_thumbCmn :
    (runAs 16 0x42C8 (start 0x000000FF#32 0x08000000#32 [(0#4, 0x7FFFFFFF#32), (1#4, 0x00000001#32)] [])).map (fun t => t.cpsr) =
      some 0x900000FF#32 := by decide

/-- R524. -/
theorem test_exec_thumbOrr :
    (runAs 16 0x4308 (start 0x000000FF#32 0x08000000#32 [(0#4, 0x000000F0#32), (1#4, 0x0000000F#32)] [])).map (fun t => t.reg 0) =
      some 0x000000FF#32 := by decide

/-- R525. -/
theorem test_exec_thumbMul :
    (runAs 16 0x4348 (start 0x000000FF#32 0x08000000#32 [(0#4, 0xFFFFFFFF#32), (1#4, 0x00000002#32)] [])).map (fun t => (t.reg 0, t.cpsr, t.cycles)) =
      some (0xFFFFFFFE#32, 0x800000FF#32, 2) := by decide

/-- R526. -/
theorem test_exec_thumbBic :
    (runAs 16 0x4388 (start 0x000000FF#32 0x08000000#32 [(0#4, 0x000000FF#32), (1#4, 0x0000000F#32)] [])).map (fun t => t.reg 0) =
      some 0x000000F0#32 := by decide

/-- R527. -/
theorem test_exec_thumbMvn :
    (runAs 16 0x43C8 (start 0x000000FF#32 0x08000000#32 [] [])).map (fun t => (t.reg 0, t.cpsr)) =
      some (0xFFFFFFFF#32, 0x800000FF#32) := by decide

/-- R530. -/
theorem test_exec_thumbAddHi :
    (runAs 16 0x4440 (start 0x000000FF#32 0x08000000#32 [(0#4, 0x00000001#32), (8#4, 0x00000002#32)] [])).map (fun t => (t.reg 0, t.cpsr, t.cycles)) =
      some (0x00000003#32, 0x000000FF#32, 1) := by decide

/-- R531. -/
theorem test_exec_thumbCmpHi :
    (runAs 16 0x4580 (start 0x000000FF#32 0x08000000#32 [(0#4, 0x00000003#32), (8#4, 0x00000003#32)] [])).map (fun t => t.cpsr) =
      some 0x600000FF#32 := by decide

/-- R532. -/
theorem test_exec_thumbMovHi :
    (runAs 16 0x46F7 (start 0x000000FF#32 0x08000000#32 [(14#4, 0x08000101#32)] [])).map (fun t => (t.pc, t.cpsr, t.cycles)) =
      some (0x08000100#32, 0x000000FF#32, 3) := by decide

/-- 95 section 2.4: BX PC at cur = 0x08000002. -/
theorem test_exec_thumbBx :
    (runAs 16 0x4778 (start 0x000000FF#32 0x08000002#32 [] [])).map (fun t => (t.pc, t.cpsr, t.cycles)) =
      some (0x08000004#32, 0x000000DF#32, 3) := by decide

/-- R561. -/
theorem test_exec_thumbLdrPc :
    (runAs 16 0x4801 (start 0x000000FF#32 0x08000002#32 [] [(0x08000008#32, 0x12345678#32)])).map (fun t => (t.reg 0, t.cycles)) =
      some (0x12345678#32, 3) := by decide

/-- R562. -/
theorem test_exec_thumbStrReg :
    (runAs 16 0x5088 (start 0x000000FF#32 0x08000000#32 [(0#4, 0x11223344#32), (1#4, 0x02000000#32), (2#4, 0x00000004#32)] [])).map (fun t => (t.mem.load .word 0x02000004#32, t.cycles)) =
      some (0x11223344#32, 2) := by decide

/-- R563. -/
theorem test_exec_thumbStrbReg :
    (runAs 16 0x5488 (start 0x000000FF#32 0x08000000#32 [(0#4, 0x11223344#32), (1#4, 0x02000000#32), (2#4, 0x00000003#32)] [])).map (fun t => t.mem.load .word 0x02000000#32) =
      some 0x44000000#32 := by decide

/-- R564. -/
theorem test_exec_thumbLdrReg :
    (runAs 16 0x5888 (start 0x000000FF#32 0x08000000#32 [(1#4, 0x02000000#32), (2#4, 0x00000006#32)] [(0x02000004#32, 0x11223344#32)])).map (fun t => (t.reg 0, t.cycles)) =
      some (0x33441122#32, 3) := by decide

/-- R565. -/
theorem test_exec_thumbLdrbReg :
    (runAs 16 0x5C88 (start 0x000000FF#32 0x08000000#32 [(1#4, 0x02000000#32), (2#4, 0x00000007#32)] [(0x02000004#32, 0x11223344#32)])).map (fun t => t.reg 0) =
      some 0x00000011#32 := by decide

/-- R566. -/
theorem test_exec_thumbStrhReg :
    (runAs 16 0x5288 (start 0x000000FF#32 0x08000000#32 [(0#4, 0x11223344#32), (1#4, 0x02000000#32), (2#4, 0x00000002#32)] [])).map (fun t => t.mem.load .word 0x02000000#32) =
      some 0x33440000#32 := by decide

/-- R567. -/
theorem test_exec_thumbLdsb :
    (runAs 16 0x5688 (start 0x000000FF#32 0x08000000#32 [(1#4, 0x02000000#32), (2#4, 0x00000001#32)] [(0x02000000#32, 0x00008000#32)])).map (fun t => t.reg 0) =
      some 0xFFFFFF80#32 := by decide

/-- R568. -/
theorem test_exec_thumbLdrhReg :
    (runAs 16 0x5A88 (start 0x000000FF#32 0x08000000#32 [(1#4, 0x02000000#32), (2#4, 0x00000002#32)] [(0x02000000#32, 0x80000000#32)])).map (fun t => t.reg 0) =
      some 0x00008000#32 := by decide

/-- R569. -/
theorem test_exec_thumbLdsh :
    (runAs 16 0x5E88 (start 0x000000FF#32 0x08000000#32 [(1#4, 0x02000000#32), (2#4, 0x00000002#32)] [(0x02000000#32, 0x80000000#32)])).map (fun t => t.reg 0) =
      some 0xFFFF8000#32 := by decide

/-- R570. -/
theorem test_exec_thumbStrImm :
    (runAs 16 0x6048 (start 0x000000FF#32 0x08000000#32 [(0#4, 0x00000007#32), (1#4, 0x02000000#32)] [])).map (fun t => t.mem.load .word 0x02000004#32) =
      some 0x00000007#32 := by decide

/-- R571. -/
theorem test_exec_thumbLdrImm :
    (runAs 16 0x6848 (start 0x000000FF#32 0x08000000#32 [(1#4, 0x02000000#32)] [(0x02000004#32, 0x00000007#32)])).map (fun t => t.reg 0) =
      some 0x00000007#32 := by decide

/-- R572. -/
theorem test_exec_thumbStrbImm :
    (runAs 16 0x7048 (start 0x000000FF#32 0x08000000#32 [(0#4, 0x000001FF#32), (1#4, 0x02000000#32)] [])).map (fun t => t.mem.load .word 0x02000000#32) =
      some 0x0000FF00#32 := by decide

/-- R573. -/
theorem test_exec_thumbLdrbImm :
    (runAs 16 0x7848 (start 0x000000FF#32 0x08000000#32 [(1#4, 0x02000000#32)] [(0x02000000#32, 0x0000FF00#32)])).map (fun t => t.reg 0) =
      some 0x000000FF#32 := by decide

/-- R574. -/
theorem test_exec_thumbStrhImm :
    (runAs 16 0x8048 (start 0x000000FF#32 0x08000000#32 [(0#4, 0x0000ABCD#32), (1#4, 0x02000000#32)] [])).map (fun t => t.mem.load .word 0x02000000#32) =
      some 0xABCD0000#32 := by decide

/-- R575. -/
theorem test_exec_thumbLdrhImm :
    (runAs 16 0x8848 (start 0x000000FF#32 0x08000000#32 [(1#4, 0x02000000#32)] [(0x02000000#32, 0xABCD0000#32)])).map (fun t => t.reg 0) =
      some 0x0000ABCD#32 := by decide

/-- R576. -/
theorem test_exec_thumbStrSp :
    (runAs 16 0x9001 (start 0x000000FF#32 0x08000000#32 [(0#4, 0x00000009#32)] [])).map (fun t => t.mem.load .word 0x03007F04#32) =
      some 0x00000009#32 := by decide

/-- R577. -/
theorem test_exec_thumbLdrSp :
    (runAs 16 0x9801 (start 0x000000FF#32 0x08000000#32 [] [(0x03007F04#32, 0x00000009#32)])).map (fun t => t.reg 0) =
      some 0x00000009#32 := by decide

/-- R578. -/
theorem test_exec_thumbAddRdPc :
    (runAs 16 0xA001 (start 0x000000FF#32 0x08000002#32 [] [])).map (fun t => (t.reg 0, t.cycles)) =
      some (0x08000008#32, 1) := by decide

/-- R579. -/
theorem test_exec_thumbAddRdSp :
    (runAs 16 0xA801 (start 0x000000FF#32 0x08000000#32 [] [])).map (fun t => t.reg 0) =
      some 0x03007F04#32 := by decide

/-- R580. -/
theorem test_exec_thumbAddSpImm :
    (runAs 16 0xB002 (start 0x000000FF#32 0x08000000#32 [] [])).map (fun t => t.reg 13) =
      some 0x03007F08#32 := by decide

/-- R581. -/
theorem test_exec_thumbSubSpImm :
    (runAs 16 0xB082 (start 0x000000FF#32 0x08000000#32 [] [])).map (fun t => t.reg 13) =
      some 0x03007EF8#32 := by decide

/-- R582 (scenario S3). -/
theorem test_exec_thumbPush :
    (runAs 16 0xB503 (start 0x000000FF#32 0x08000000#32 [(0#4, 0x00000011#32), (1#4, 0x00000022#32), (14#4, 0xAAAAAAAA#32)] [])).map (fun t => (t.reg 13, t.mem.load .word 0x03007EF4#32, t.mem.load .word 0x03007EF8#32, t.mem.load .word 0x03007EFC#32, t.cycles)) =
      some (0x03007EF4#32, 0x00000011#32, 0x00000022#32, 0xAAAAAAAA#32, 2) := by decide

/-- R583 (scenario S3). -/
theorem test_exec_thumbPop :
    (runAs 16 0xBD03 (start 0x000000FF#32 0x08000000#32 [(13#4, 0x03007EF4#32)] [(0x03007EF4#32, 0x00000011#32), (0x03007EF8#32, 0x00000022#32), (0x03007EFC#32, 0xAAAAAAAA#32)])).map (fun t => (t.reg 0, t.reg 1, t.reg 13, t.pc, t.cpsr, t.cycles)) =
      some (0x00000011#32, 0x00000022#32, 0x03007F00#32, 0xAAAAAAA8#32, 0x000000DF#32, 3) := by decide

/-- R625. -/
theorem test_exec_thumbUndef1011 :
    (runAs 16 0xB100 (start 0x000000FF#32 0x08000000#32 [] [])).map (fun t => (t.pc, t.cpsr, t.cycles)) =
      some (0x08000002#32, 0x000000FF#32, 1) := by decide

/-- R584. -/
theorem test_exec_thumbStmia :
    (runAs 16 0xC006 (start 0x000000FF#32 0x08000000#32 [(0#4, 0x02000000#32), (1#4, 0x00000001#32), (2#4, 0x00000002#32)] [])).map (fun t => (t.mem.load .word 0x02000000#32, t.mem.load .word 0x02000004#32, t.reg 0, t.cycles)) =
      some (0x00000001#32, 0x00000002#32, 0x02000008#32, 2) := by decide

/-- R585. -/
theorem test_exec_thumbLdmia :
    (runAs 16 0xC806 (start 0x000000FF#32 0x08000000#32 [(0#4, 0x02000000#32)] [(0x02000000#32, 0x00000001#32), (0x02000004#32, 0x00000002#32)])).map (fun t => (t.reg 0, t.reg 1, t.reg 2, t.cycles)) =
      some (0x02000008#32, 0x00000001#32, 0x00000002#32, 3) := by decide

/-- R621. -/
theorem test_exec_thumbSwi :
    (runAs 16 0xDF01 (start 0x00000030#32 0x08000100#32 [] [])).map (fun t => (t.cpsr, t.spsr.supervisor, t.reg 14, t.pc, t.cycles)) =
      some (0x00000093#32, 0x00000030#32, 0x08000102#32, 0x00000008#32, 3) := by decide

/-- R620. -/
theorem test_exec_thumbBCond :
    (runAs 16 0xD1FE (start 0x000000FF#32 0x08000010#32 [] [])).map (fun t => (t.pc, t.cycles)) =
      some (0x08000010#32, 3) := by decide

/-- R620. -/
theorem test_exec_thumbBCond_not_taken :
    (runAs 16 0xD1FE (start 0x400000FF#32 0x08000010#32 [] [])).map (fun t => (t.pc, t.cycles)) =
      some (0x08000012#32, 1) := by decide

/-- R622. -/
theorem test_exec_thumbB :
    (runAs 16 0xE7FE (start 0x000000FF#32 0x08000020#32 [] [])).map (fun t => (t.pc, t.cycles)) =
      some (0x08000020#32, 3) := by decide

/-- R625. -/
theorem test_exec_thumbUndef11101 :
    (runAs 16 0xE800 (start 0x000000FF#32 0x08000000#32 [] [])).map (fun t => (t.pc, t.cpsr, t.cycles)) =
      some (0x08000002#32, 0x000000FF#32, 1) := by decide

/-- R623. -/
theorem test_exec_thumbBlFirst :
    (runAs 16 0xF7FF (start 0x000000FF#32 0x08000000#32 [] [])).map (fun t => (t.reg 14, t.cycles)) =
      some (0x07FFF004#32, 1) := by decide

/-- R624. -/
theorem test_exec_thumbBlSecond :
    (runAs 16 0xFFFE (start 0x000000FF#32 0x08000002#32 [(14#4, 0x08000004#32)] [])).map (fun t => (t.pc, t.reg 14, t.cycles)) =
      some (0x08001000#32, 0x08000005#32, 3) := by decide

/-! ## The machine and its environment -/

/-- R230, R730: a halted step changes nothing and returns 1. -/
theorem test_halted_step :
    nextWith (step (State.reset.setHalted true)) (fun t => t == State.reset.setHalted true) = true ∧
      returnedCount (State.reset.setHalted true) (State.reset.setHalted true) = 1 := by decide

/-- R231: the fetch is one read of the state's width at the PC, aligned. -/
theorem test_fetch_access :
    (start 0x000000FF#32 0x08000002#32 [] [(0x08000000#32, 0x20010000#32)]).fetch.2.accesses =
      [⟨.read, .half, 0x08000002#32, 0x2001#32⟩] := by decide

/-- R711: an IRQ in Thumb state saves the address of the next instruction and clears `halted`. -/
theorem test_irq_taken :
    let t := ((start 0x60000030#32 0x08000102#32 [] []).setHalted true).triggerIrq
    (t.pc, t.cpsr, t.spsr.irq, t.r14.irq, t.halted) =
      (0x00000018#32, 0x60000092#32, 0x60000030#32, 0x08000102#32, false) := by decide

/-- R711: with I = 1 the request is dropped. -/
theorem test_irq_masked : State.reset.triggerIrq = State.reset := by decide

/-- R707: an entry into FIQ mode sets F; through another vector F stays. -/
theorem test_entry_sets_f :
    ((start 0x00000010#32 0#32 [] []).takeException 0x0000001C#32 .fiq).cpsr = 0x000000D1#32 ∧
      ((start 0x00000010#32 0#32 [] []).takeException 0x00000018#32 .irq).cpsr = 0x00000092#32 := by decide

/-- R800: `reset()` gives the reset values and leaves memory. -/
theorem test_reset_keeps_memory :
    ((start 0x00000010#32 0#32 [(0#4, 5#32)] [(0x02000000#32, 1#32)]).resetBlock.reg 0#4,
      (start 0x00000010#32 0#32 [] [(0x02000000#32, 1#32)]).resetBlock.mem) =
      (0#32, [(0x02000000, 0x01#8)]) := by decide

/-- R50: an invalid mode keeps the old one in an external write of CPSR. -/
theorem test_external_cpsr_invalid_mode : (State.reset.setExternalCpsr 0xF0000000#32).cpsr = 0xF000001F#32 := by decide

/-- Writing what an unlisted byte reads as unlists it. -/
theorem test_memory_canonical :
    ((Memory.write [] 5 0x11#8).write 3 0x22#8, ((Memory.write [] 5 0x11#8).write 3 0x22#8).write 5 0x00#8) =
      ([(3, 0x22#8), (5, 0x11#8)], [(3, 0x22#8)]) := by decide

/-- R586: PUSH with an empty list is refused. -/
theorem test_empty_push_refused :
    step ((start 0x000000FF#32 0x08000000#32 [] []).withFetchWord 16 0xB400) = .refused .emptyThumbRegisterList := by rfl

/-- A word placed by `withFetchWord` is the first instruction after reset. -/
theorem test_withFetchWord_after_reset :
    nextWith (step (State.reset.withFetchWord 32 0xE3A00001)) (fun t => t.reg 0#4 == 1#32) = true ∧
      nextWith (step (State.reset.withFetchWord 16 0x2001)) (fun t => t.reg 0#4 == 1#32) = true := by decide

/-- R8, R100, R109: a platform with a mirror of RAM, a ROM and a device. -/
def platform : Bus where
  map := [⟨0x03008000#32, 0x0300FFFF#32, .memory 0x03000000#32⟩, ⟨0x0E000000#32, 0x0E00FFFF#32, .readOnly 0x08000000#32⟩,
    ⟨0x04000000#32, 0x040003FF#32, .device⟩]
  answers := [0x11111111#32, 0x22222222#32, 0x33333333#32]

/-- The registers R1 = `addr` and R2 = `v` on that platform. -/
def onPlatform (addr v : Word) : State :=
  (start 0x0000001F#32 0x02000000#32 [(1#4, addr), (2#4, v)] [(0x03000010#32, 0xCAFEBABE#32), (0x08000004#32, 0x5A5A5A5A#32)]).setBus
    platform

/-- STR R2, [R1] at a mirror (R100, R109): the byte's home has it. -/
theorem test_bus_mirror_write :
    (runAs 32 0xE5812000 (onPlatform 0x03008020#32 0x89ABCDEF#32)).map (fun t => t.mem.load .word 0x03000020#32) =
      some 0x89ABCDEF#32 := by decide

/-- LDR R0, [R1] at a mirror reads what is at home. -/
theorem test_bus_mirror_read :
    (runAs 32 0xE5910000 (onPlatform 0x03008010#32 0#32)).map (fun t => t.reg 0#4) = some 0xCAFEBABE#32 := by decide

/-- STR R2, [R1] at an address that is not writable: recorded on the bus, dropped by memory (R105, R109). -/
theorem test_bus_read_only_write :
    (runAs 32 0xE5812000 (onPlatform 0x0E000004#32 7#32)).map
      (fun t => (t.mem.load .word 0x08000004#32, t.accesses.getLast?)) =
      some (0x5A5A5A5A#32, some ⟨.write, .word, 0x0E000004#32, 7#32⟩) := by decide

/-- LDRB R0, [R1] at a device gives the platform's answer to that read, the fetch being read 0 (R8, R100; log 17). -/
theorem test_bus_device_read :
    (runAs 32 0xE5D10000 (onPlatform 0x04000001#32 0#32)).map (fun t => (t.reg 0#4, t.reads)) = some (0x22#32, 2) := by decide

/-- LDMIA R1, [R3, R4] at a device: each read has its own answer. -/
theorem test_bus_device_block :
    (runAs 32 0xE8910018 (onPlatform 0x04000000#32 0#32)).map (fun t => (t.reg 3#4, t.reg 4#4)) =
      some (0x22222222#32, 0x33333333#32) := by decide

/-- STMIA R3, [R1, R2] over a word and its mirror: the later write is the one that stays. -/
theorem test_bus_block_same_home :
    nextWith (exec (.armStm .al { pre := false, up := true, sbit := false, wback := false, rn := 3#4 } 0x0006#16)
      ((start 0x0000001F#32 0#32 [(1#4, 1#32), (2#4, 2#32), (3#4, 0x03000000#32)] []).setBus
        ⟨[⟨0x03000004#32, 0x03000007#32, .memory 0x03000000#32⟩], []⟩))
      (fun t => t.mem == [(0x03000000, 2#8)]) = true := by decide

/-- A word placed where the fetch would ask a device runs all the same (log 10). -/
theorem test_withFetchWord_over_a_device :
    (runAs 32 0xE3A00001 (State.reset.setBus ⟨[⟨0#32, 0xFFFFFFFF#32, .device⟩], []⟩)).map (fun t => t.reg 0#4) =
      some 1#32 := by decide

/-- DMA at an odd address: the model aligns it down (log 18); DMA is no access of the block (R130). -/
theorem test_dma_unaligned :
    ((State.reset.dmaWrite .half 0x03000001#32 0xABCD#32).mem, (State.reset.dmaWrite .half 0x03000001#32 0xABCD#32).accesses) =
      ([(0x03000000, 0xCD#8), (0x03000001, 0xAB#8)], []) := by decide

/-- ARM SWI fetched from PC = 2 mod 4: LR_svc is the raw PC, here cur + 2 (the model's choice: log 7). -/
theorem test_swi_unaligned_pc :
    (runAs 32 0xEF000000 (start 0x00000010#32 0x08000102#32 [] [])).map (fun t => (t.r14.supervisor, t.currentPc)) =
      some (0x08000104#32, 0x08000102#32) := by decide

/-! ## Witnesses: what meets the hypotheses of the obligations -/

/-- A state of User mode in ARM state. -/
def userState : State := start 0x00000010#32 0x08000000#32 [(0#4, 7#32)] []

/-- A state as a fetch of ARM leaves it. -/
def fetchedArm : State := (start 0x00000010#32 0x08000004#32 [] []).setCurrentPc 0x08000000#32

/-- A state as a fetch of Thumb leaves it. -/
def fetchedThumb : State := (start 0x00000030#32 0x08000002#32 [] []).setCurrentPc 0x08000000#32

/-- The reset state meets the invariant. -/
theorem witness_Inv : State.reset.Inv := ⟨rfl, rfl, rfl⟩

theorem witness_ResetLeavesTheListedValues : Mode.fiq.hasSpsr = true ∧ Mode.undefined.hasSpsr = true := by decide

theorem witness_InvariantHoldsAtReset : Memory.wf [(0, 0x01#8), (0xFFFFFFFF, 0x02#8)] = true := by decide

theorem witness_StepRunsTheDecodedInstruction :
    (State.reset.setHalted true).halted = true ∧
    (let s := State.reset.withFetchWord 32 0xE3A00001;
      s.halted = false ∧ s.cpsr.t = false ∧ decode (.arm (Claims.wordAt s s.pc)) = .armMov .al false 0#4 (.imm 0#4 1#8)) ∧
    (let s := State.reset.withFetchWord 16 0x2001;
      s.halted = false ∧ s.cpsr.t = true ∧
        decode (.thumb ((Claims.halfAt s s.pc).setWidth 16)) = .thumbMovImm8 0#3 1#8) := by decide

theorem witness_RegisterReadsReachTheBankOfTheMode :
    (7#4 : RegNum).toNat < 8 ∧ (8 ≤ (8#4 : RegNum).toNat ∧ (8#4 : RegNum).toNat ≤ 12) ∧
      (8 ≤ (12#4 : RegNum).toNat ∧ (12#4 : RegNum).toNat ≤ 12) := by decide

/-- From User to FIQ, R8 and R13 are different storage, R7 and R15 are not; from User to System nothing is. -/
theorem witness_BankedRegisterLaw :
    (userState.mode.bankKey ≠ Mode.fiq.bankKey ∧ ¬ (userState.mode = .fiq ↔ Mode.fiq = .fiq)) ∧
      (8 ≤ (8#4 : RegNum).toNat ∧ (8#4 : RegNum).toNat ≤ 12) ∧ ¬ (8 ≤ (7#4 : RegNum).toNat) ∧
      ¬ ((15#4 : RegNum) = 13#4 ∨ (15#4 : RegNum) = 14#4) ∧ userState.mode.bankKey = Mode.system.bankKey := by decide

theorem witness_ExternalCpsrRoundTrip :
    (Mode.ofBits? (Psr.m 0x0000001F#32)).isSome = true ∧ (Mode.ofBits? (Psr.m 0x00000000#32)).isSome = false := by decide

theorem witness_FailedConditionOnlyCountsOneCycle :
    (Instr.armMov .eq false 0#4 (.imm 0#4 1#8)).cond? = some .eq ∧ condPassed State.reset.cpsr .eq = false := by decide

theorem witness_ShifterLaws : 32 < 33 ∧ 0 < 1 := by decide

theorem witness_ShiftsMoveBits : (1 ≤ 1 ∧ 1 ≤ 31 ∧ 0 < 32) ∧ (1 ≤ 31 ∧ 31 ≤ 31 ∧ 31 < 32) := by decide

/-- A passed condition with a destination below R15: ArithmeticDataProcessing and LogicalDataProcessing, S set. -/
theorem witness_DataProcessing :
    condPassed State.reset.cpsr .al = true ∧ (14#4 : RegNum) ≠ 15#4 ∧ (0#4 : RegNum) ≠ 15#4 := by decide

/-- A passed condition, the one hypothesis of ComparisonsSetFlagsAlone, DataProcessingWritesThePc, MultiplyAndAccumulate,
ArmBranchAndLink, ArmStores, Swaps, StatusWrites: with a flag condition and without one. -/
theorem witness_condition :
    condPassed State.reset.cpsr .al = true ∧ condPassed State.reset.cpsr .nv = true ∧
      condPassed (start 0x4000001F#32 0#32 [] []).cpsr .eq = true := by decide

theorem witness_LongMultiplies : condPassed State.reset.cpsr .al = true ∧ (0#4 : RegNum) ≠ 1#4 := by decide

theorem witness_BranchAndExchange : condPassed State.reset.cpsr .ne = true := by decide

theorem witness_SoftwareInterruptEntersSupervisor :
    (condPassed fetchedArm.cpsr .al = true ∧ fetchedArm.pc = fetchedArm.currentPc + 4) ∧
      fetchedThumb.pc = fetchedThumb.currentPc + 2 ∧ (onPlatform 0#32 0#32).pc ≠ (onPlatform 0#32 0#32).currentPc + 4 := by decide

/-- A written-back base that is not Rd. -/
theorem witness_ArmLoads :
    condPassed State.reset.cpsr .al = true ∧
      writesBack { pre := true, up := true, wback := true, rn := 1#4 } = true ∧ (1#4 : RegNum) ≠ 0#4 ∧
      writesBack { pre := false, up := true, wback := false, rn := 14#4 } = true := by decide

theorem witness_BlockAddressesAndRegisterLists :
    (0#16 : BitVec 16) = 0#16 ∧ (0x8001#16 : BitVec 16) ≠ 0#16 := by decide

/-- LDM: R15 listed, R15 not listed, the base written back. -/
theorem witness_LoadMultiple :
    condPassed State.reset.cpsr .al = true ∧ 15#4 ∈ blockRegs 0x8001#16 ∧ 15#4 ∈ blockRegs 0#16 ∧ 15#4 ∉ blockRegs 0x0001#16 ∧
      (0#4 ∈ blockRegs 0x8001#16 ∧ (0#4 : RegNum) ≠ 15#4) ∧
      ((0x8001#16).getLsbD (13#4 : RegNum).toNat = false ∧ (13#4 : RegNum) ≠ 15#4) := by decide

/-- STM: the base written back. -/
theorem witness_StoreMultiple : condPassed State.reset.cpsr .al = true ∧ (13#4 : RegNum) ≠ 15#4 := by decide

theorem witness_StatusReads :
    condPassed State.reset.cpsr .al = true ∧ State.reset.mode.hasSpsr = false ∧
      (start 0x00000013#32 0#32 [] []).spsr.get? (start 0x00000013#32 0#32 [] []).mode = some 0#32 := by decide

/-- The boundary bits of the two ranges of `MsrCpsr`. -/
theorem witness_MsrCpsr : (8 ≤ 8 ∧ 8 < 32) ∧ (8 ≤ 31 ∧ 31 < 32) ∧ (5 ≤ 5 ∧ 5 < 8) ∧ (5 ≤ 7 ∧ 7 < 8) := by decide

theorem witness_SavedStatusWrites :
    (let s := start 0x00000013#32 0#32 [] [];
      condPassed s.cpsr .al = true ∧ s.mode.hasSpsr = true ∧ s.spsr.get? s.mode = some 0#32 ∧ Mode.irq ≠ s.mode) ∧
    State.reset.mode.hasSpsr = false := by decide

theorem witness_PushStoresBelowSp :
    (true = true ∨ (0#8 : BitVec 8) ≠ 0#8) ∧ (false = true ∨ (0x80#8 : BitVec 8) ≠ 0#8) ∧ 7#4 ∈ listRegs 0x80#8 := by decide

theorem witness_PopLoadsFromSp : (true = true ∨ (0#8 : BitVec 8) ≠ 0#8) ∧ (false = true ∨ (1#8 : BitVec 8) ≠ 0#8) := by decide

theorem witness_StmiaStoresAndAdvances :
    (0xFF#8 : BitVec 8) ≠ 0#8 ∧ lowReg 1#3 ∈ listRegs 0xFF#8 ∧ 0#4 ∈ listRegs 0xFF#8 := by decide

theorem witness_LdmiaLoadsAndAdvances :
    (0x06#8 : BitVec 8) ≠ 0#8 ∧ lowReg 0#3 ∉ listRegs 0x06#8 ∧ lowReg 1#3 ∈ listRegs 0x06#8 := by decide

theorem witness_ThumbBranches :
    condPassed State.reset.cpsr .ne = true ∧ condPassed State.reset.cpsr .eq = false := by decide

theorem witness_EveryOtherInstructionCompletes :
    (Instr.thumbPush false 1#8).emptyThumbList = false ∧ (Instr.thumbPush true 0#8).emptyThumbList = false ∧
      (Instr.armSwi .al 0#25).emptyThumbList = false := by decide

theorem witness_DataAccessesOfEveryInstruction :
    nextWith (exec (.armSwp .al 1#4 4#4 2#4) State.reset) (fun t => t.accesses.length == 2) = true ∧
      State.reset.bus.map = [] ∧ platform.map.length = 3 ∧ platform.writeHome 0x0300FFFF#32 = some 0x03007FFF#32 ∧
      platform.writeHome 0x03010000#32 = some 0x03010000#32 ∧ platform.writeHome 0x0E000000#32 = none ∧
      platform.readHome 0x0E00FFFF#32 = some 0x0800FFFF#32 ∧ platform.readHome 0x040003FF#32 = none ∧
      platform.answers[(onPlatform 0#32 0#32).reads]? = some 0x11111111#32 := by decide

/-- A word of a block whose bytes no later word touches. -/
theorem witness_StoredBlock :
    State.reset.bus.writeHome (align .word (Claims.slotAddress [0#4, 1#4] 0x03000000#32 0#4)) = some 0x03000000#32 ∧
      ∀ j, j ∈ [0#4, 1#4] → Claims.slot [0#4, 1#4] 0#4 < Claims.slot [0#4, 1#4] j →
        ¬ touches State.reset .word (Claims.slotAddress [0#4, 1#4] 0x03000000#32 j) (0x03000000#32 + BitVec.ofNat 32 3).toNat := by
  refine ⟨by decide, fun j hj h => ?_⟩
  simp only [List.mem_cons, List.not_mem_nil, or_false] at hj
  rcases hj with rfl | rfl
  · exact absurd h (by decide)
  · exact block_apart (s := State.reset) rfl (a := 0x03000000#32) (j := 0) (j' := 1) (by decide) (by decide) (by decide)

theorem witness_TakeExceptionLaw : Mode.supervisor.hasSpsr = true ∧ Mode.irq.hasSpsr = true := by decide

theorem witness_RestoreUndoesTheEntry :
    userState.modeValid = true ∧ Mode.supervisor.hasSpsr = true ∧ (14#4 : RegNum) ≠ 15#4 ∧
      route userState.mode 14#4 ≠ .lr Mode.supervisor.bankKey := by decide

theorem witness_IrqInput : State.reset.cpsr.i = true ∧ userState.cpsr.i = false := by decide

theorem witness_DecodeOfEncode :
    (Instr.armUndefMultiply .al 0b11000#5 0xABC#12 5#4).wellFormed = true ∧
      (Instr.thumbUndef1011 0xFFF#12).wellFormed = true ∧ (Instr.thumbBCond .al 0xFF#8).wellFormed = true := by decide

theorem witness_StepKeepsTheInvariant : State.reset.Inv ∧ nextWith (step State.reset) (fun _ => true) = true :=
  ⟨witness_Inv, by decide⟩

theorem witness_SchedulesKeepTheInvariant :
    State.reset.EventInv ∧
      nextWith
        (runSchedule [.step, .setCpsr 0x00000010#32, .irq, .setHalted true, .step, .dma .half 0x03000001#32 0xABCD#32, .bus platform, .reset]
          State.reset)
        (fun t => t.mem == [(0x03000000, 0xCD#8), (0x03000001, 0xAB#8)] && t.pc == 0x08000000#32) = true :=
  ⟨⟨rfl, rfl, rfl⟩, by decide⟩

theorem witness_UserModeIsLeftOnlyBySwi :
    fetchedThumb.cpsr.m = 0x10#5 ∧
      nextWith (exec (.thumbSwi 0#8) fetchedThumb) (fun t => t.cpsr.m != 0x10#5) = true := by decide

theorem witness_UserModeCannotReachOtherModes :
    userState.cpsr.m = 0x10#5 ∧
      nextWith (exec (.armMsrCpsrReg .al 0xF#4 0#4) userState) (fun t => t.cpsr.m == 0x10#5) = true ∧
      (8 ≤ 8 ∧ 8 < 24) ∧ (8 ≤ 23 ∧ 23 < 24) ∧ BankKey.fiq ≠ .user := by decide

theorem witness_CanonicalMemoriesAreDeterminedByTheirBytes :
    Memory.wf ((Memory.write [] 1 0x01#8).write 2 0x02#8) = true ∧ Memory.wf ((Memory.write [] 2 0x02#8).write 1 0x01#8) = true ∧
      (Memory.write [] 1 0x01#8).write 2 0x02#8 = (Memory.write [] 2 0x02#8).write 1 0x01#8 := by decide

end Sys2Proof.Tests
end

section
/-! PROOFS. Reset, the register file and the status registers (10_state.md R36, R37, R50, R58 to R60). -/

namespace Sys2Proof.Machine

/-! ## Reset -/

theorem State.reset_readPhys (p : PhysReg) :
    State.reset.readPhys p =
      if p = .sp .user then 0x03007F00#32 else if p = .sp .irq then 0x03007FA0#32
      else if p = .sp .supervisor then 0x03007FE0#32 else if p = .pc then 0x08000000#32 else 0#32 := by
  cases p with
  | common i | usr8 i | fiq8 i => simp [State.readPhys, State.reset]
  | sp k | lr k => cases k <;> rfl
  | pc => rfl

theorem State.reset_spsr {m : Mode} (h : m.hasSpsr = true) : State.reset.spsr.get? m = some 0#32 := by
  cases m with
  | user | system => cases h
  | fiq | irq | supervisor | abort | undefined => rfl

/-- Settles O1: the reset state field by field; `reset()` differs from it in memory, platform and count of reads. -/
theorem resetLeavesTheListedValues : Obligations.ResetLeavesTheListedValues := by
  unfold Obligations.ResetLeavesTheListedValues
  exact ⟨State.reset_readPhys, rfl, fun _ => State.reset_spsr, rfl, rfl, rfl, rfl, rfl,
    fun _ => ⟨rfl, rfl, rfl, rfl⟩⟩

/-! ## Routes -/

theorem route_low (m : Mode) {i : RegNum} (h : i.toNat < 8) : route m i = .common ⟨i.toNat, h⟩ := by
  simp [route, h]

theorem route_mid (m : Mode) {i : RegNum} (h : 8 ≤ i.toNat ∧ i.toNat ≤ 12) :
    route m i = if m = .fiq then .fiq8 ⟨i.toNat - 8, by omega⟩ else .usr8 ⟨i.toNat - 8, by omega⟩ := by
  simp [route, show ¬ i.toNat < 8 by omega, show i.toNat < 13 by omega]

/-- The five cases of R36. -/
theorem regNum_cases (i : RegNum) :
    i.toNat < 8 ∨ (8 ≤ i.toNat ∧ i.toNat ≤ 12) ∨ i = 13#4 ∨ i = 14#4 ∨ i = 15#4 := by
  revert i; decide

theorem ne_sp_lr_of_lt {i : RegNum} (h : i.toNat < 13) : i ≠ 13#4 ∧ i ≠ 14#4 := by
  constructor <;> rintro rfl <;> exact absurd h (by decide)

/-- Whether a register number reaches different storage in two modes: R13 and R14 with different bank keys, R8 to R12
where one mode alone is FIQ. -/
def BanksDiffer (m n : Mode) (i : RegNum) : Prop :=
  (i = 13#4 ∨ i = 14#4) ∧ m.bankKey ≠ n.bankKey ∨ (8 ≤ i.toNat ∧ i.toNat ≤ 12) ∧ ¬ (m = .fiq ↔ n = .fiq)

theorem route_ne_iff (m n : Mode) (i : RegNum) : route m i ≠ route n i ↔ BanksDiffer m n i := by
  unfold BanksDiffer
  rcases regNum_cases i with h | h | rfl | rfl | rfl
  · obtain ⟨h13, h14⟩ := ne_sp_lr_of_lt (show i.toNat < 13 by omega)
    simp [route_low _ h, h13, h14, show ¬ 8 ≤ i.toNat by omega]
  · obtain ⟨h13, h14⟩ := ne_sp_lr_of_lt (show i.toNat < 13 by omega)
    by_cases hm : m = .fiq <;> by_cases hn : n = .fiq <;> simp [route_mid _ h, h, hm, hn, h13, h14]
  · simp [route_13]
  · simp [route_14]
  · simp [route_15]

/-- Settles O5, by the cases of R36. -/
theorem registerReadsReachTheBankOfTheMode : Obligations.RegisterReadsReachTheBankOfTheMode := by
  unfold Obligations.RegisterReadsReachTheBankOfTheMode
  intro s i
  refine ⟨fun h => ?_, fun h => ?_, ?_, ?_, ?_⟩
  · rw [State.reg, route_low _ h]
    rfl
  · rw [State.reg, route_mid _ h]
    split <;> rfl
  · rw [State.reg, route_13]
    rfl
  · rw [State.reg, route_14]
    rfl
  · rw [State.reg, route_15]
    rfl

/-! ## Register writes -/

theorem Frame.setReg (s : State) (i : RegNum) (v : Word) : Frame [route s.mode i] [] s (s.setReg i v) := by
  have h := Frame.reg s i v 0
  exact ⟨h.regs, h.cpsr, h.spsr, h.halted, h.stopped, h.currentPc, h.currentInstruction, h.bus⟩

/-- Settles O6: a register write is a write of the one storage its number reaches, of the value R37 stores. -/
theorem registerWriteReachesOneRegister : Obligations.RegisterWriteReachesOneRegister := by
  unfold Obligations.RegisterWriteReachesOneRegister
  intro s i v
  refine ⟨?_, Frame.setReg s i v, fun a => by simp, ⟨by simp, by simp⟩, by simp⟩
  rw [State.reg_setReg, if_pos rfl]
  rfl

/-- A register read after a switch to mode `m` is a read of the storage it reaches in `m` (R47). -/
theorem State.reg_switchMode (s : State) (m : Mode) (save : Bool) (i : RegNum) :
    (s.switchMode m.toBits save).reg i = s.readPhys (route m i) := by
  rw [State.switchMode_toBits, State.reg]
  cases save <;> simp

theorem State.mode_switchMode (s : State) (m : Mode) (save : Bool) : (s.switchMode m.toBits save).mode = m := by
  simp [State.switchMode_toBits]

/-- Settles O7: the read in mode `m` reaches the storage written exactly when the two modes share the register. -/
theorem bankedRegisterLaw : Obligations.BankedRegisterLaw := by
  unfold Obligations.BankedRegisterLaw
  intro s m i v
  have hdiffer := route_ne_iff s.mode m i
  refine ⟨State.mode_switchMode _ m false, fun hd => ?_, fun hs => ?_⟩
  · rw [State.reg_switchMode, State.reg_switchMode, State.readPhys_setReg, if_neg (hdiffer.2 hd).symm]
  · rw [State.reg_switchMode, State.readPhys_setReg, if_pos (not_not.1 fun h => hs (hdiffer.1 fun e => h e.symm))]
    rfl

/-! ## Status registers -/

/-- The mode field after a switch: the target where it is valid (R47). -/
theorem State.m_switchMode (s : State) (target : BitVec 5) (save : Bool) :
    (s.switchMode target save).cpsr.m = if (Mode.ofBits? target).isSome then target else s.cpsr.m := by
  cases h : Mode.ofBits? target with
  | none =>
    rw [State.switchMode_invalid s save (by simp [h])]
    rfl
  | some m =>
    obtain rfl := Mode.toBits_of_ofBits? h
    simp [State.switchMode_toBits]

/-- Settles O8: an external write of CPSR is `mergeMode`, and a switch writes the mode field where it is valid. -/
theorem externalCpsrRoundTrip : Obligations.ExternalCpsrRoundTrip := by
  unfold Obligations.ExternalCpsrRoundTrip
  intro s v
  refine ⟨fun hv => mergeMode_of_valid hv, fun hv => ?_, fun p => State.setCpsr_readPhys s _ p, rfl,
    fun target save => ⟨State.m_switchMode s target save, State.switchMode_invalid s save⟩⟩
  have he : (s.setExternalCpsr v).externalCpsr = v.setM s.cpsr.m := mergeMode_of_invalid hv
  rw [he]
  exact ⟨Psr.m_setM v s.cpsr.m, fun k hk => by rw [Psr.getLsbD_setM, if_neg (by omega)]⟩

end Sys2Proof.Machine
end

section
/-! PROOFS. The invariant of the block (10_state.md R37, R41): what one instruction keeps of it. The case analysis over the
instructions is done once, in `exec_cases`. -/

namespace Sys2Proof.Machine

/-! ## The aligned PC -/

@[simp] theorem State.writePhys_pc (s : State) (p : PhysReg) (v : Word) :
    (s.writePhys p v).pc = if p = .pc then v else s.pc := by cases p <;> rfl

theorem State.setUserReg_pc (s : State) (i : RegNum) (v : Word) :
    (s.setUserReg i v).pc = if i = 15#4 then maskPc s.cpsr.t v else s.pc := by
  rw [State.setUserReg_eq, State.writePhys_pc]
  by_cases h : i = 15#4
  · simp [h]
  · simp [h, route_eq_pc]

/-- Whatever is written to the PC, it is aligned for T as T stands. -/
theorem State.pcAligned_setPc (s : State) (v : Word) : (s.setPc v).pcAligned := by simp [State.pcAligned]

/-- The same PC is aligned for the same T. -/
theorem State.pcAligned_congr {s t : State} (hpc : t.pc = s.pc) (ht : t.cpsr.t = s.cpsr.t) (h : s.pcAligned) :
    t.pcAligned := by
  unfold State.pcAligned at *
  rw [hpc, ht, h]

/-- A PC aligned for ARM is aligned whatever T becomes. -/
theorem State.pcAligned_of_arm {s t : State} (hpc : t.pc = s.pc) (ht : s.cpsr.t = false) (h : s.pcAligned) :
    t.pcAligned := by
  unfold State.pcAligned at *
  rw [ht] at h
  rw [hpc]
  cases t.cpsr.t
  · exact h
  · rw [← h, maskPc_true_false]

/-- An aligned PC has bit 0 clear. -/
theorem State.pc_bit0_of_aligned {s : State} (h : s.pcAligned) : s.pc.getLsbD 0 = false := by
  rw [← h, maskPc_bit0]

/-! ## Writes of the status registers -/

/-- A write of the current SPSR, which User mode does not have (R43). -/
theorem Kept.setCurrentSpsr (s : State) (v : Psr) : Kept s (s.setCurrentSpsr v) := by
  refine ⟨rfl, rfl, rfl, rfl, rfl, Nat.le_refl _, id, id, fun h => ?_⟩
  rw [State.setCurrentSpsr, State.mode_user h]
  exact UserKept.refl s

/-- A write of CPSR outside User mode that leaves a valid mode valid. -/
theorem Kept.setCpsr_privileged (s : State) {p : Psr} (hu : s.cpsr.m ≠ 0x10#5)
    (hm : s.modeValid = true → (Mode.ofBits? p.m).isSome = true) : Kept s (s.setCpsr p) :=
  ⟨rfl, rfl, rfl, rfl, rfl, Nat.le_refl _, id, hm, fun h => absurd h hu⟩

/-- In User mode MSR reaches the flags byte alone (R473). -/
theorem getLsbD_cpsrBytes_user {s : State} (h : s.cpsr.m = 0x10#5) (mask : BitVec 4) {k : Nat} (hk : k < 24) :
    (cpsrBytes s mask).getLsbD k = false := by
  have hflags : ∀ j : Fin 24, (0xFF000000#32).getLsbD j = false := by decide
  rw [cpsrBytes, if_pos (State.mode_user h), BitVec.getLsbD_and, hflags ⟨k, hk⟩, Bool.and_false]

/-- The upper three bytes of one status word over the control byte of another: each bit. -/
theorem getLsbD_upperBytes (new old : Psr) {k : Nat} (hk : k < 32) :
    (pack (bits new 8 24 ++ bits old 0 8) : Psr).getLsbD k = if k < 8 then old.getLsbD k else new.getLsbD k := by
  rw [bit_pack]
  split
  · next h => simp [bit_append_low _ _ _ h, h]
  · next h => simp [bit_append_high _ _ _ (Nat.le_of_not_lt h), show k - 8 < 24 by omega, show 8 + (k - 8) = k by omega]

theorem m_upperBytes (new old : Psr) : Psr.m (pack (bits new 8 24 ++ bits old 0 8)) = old.m := by
  rw [Psr.m, bits_pack, bits_append_low _ _ _ _ (by decide), bits_bits _ _ _ _ _ (by decide), Psr.m]

/-- MSR to CPSR writes CPSR alone (R472). -/
theorem msrCpsr_eq_setCpsr (mask : BitVec 4) (op : Word) (s : State) : ∃ p, msrCpsr mask op s = s.setCpsr p := by
  unfold msrCpsr
  dsimp only
  split
  · exact ⟨_, by rw [State.switchMode_false]; rfl⟩
  · exact ⟨_, rfl⟩

theorem Kept.msrCpsr (mask : BitVec 4) (op : Word) (s : State) : Kept s (msrCpsr mask op s) := by
  unfold Machine.msrCpsr
  dsimp only
  split
  · next hbytes =>
    have hu : s.cpsr.m ≠ 0x10#5 := fun h => by
      have hbit := bit_of_bits hbytes 0 (by decide)
      rw [getLsbD_cpsrBytes_user h mask (by decide)] at hbit
      exact absurd hbit (by decide)
    rw [State.switchMode_false]
    refine Kept.setCpsr_privileged s hu fun hs => ?_
    split
    · next hnew => simpa using hnew
    · simpa [m_upperBytes, State.modeValid] using hs
  · refine Kept.setCpsr s (m_upperBytes _ _) fun hu => ⟨?_, ?_, fun k h8 h24 => ?_⟩
    · exact getLsbD_upperBytes _ _ (by decide)
    · exact getLsbD_upperBytes _ _ (by decide)
    · rw [getLsbD_upperBytes _ _ (by omega), if_neg (by omega), getLsbD_mergeBytes _ _ _ _ (by omega),
        getLsbD_cpsrBytes_user hu mask h24, if_neg Bool.false_ne_true]

/-! ## What keeps the invariant -/

/-- A completed ARM instruction had its effect or was skipped (R230). -/
theorem armInstr_next {c : Cond} {f : State → State} {s t : State} (h : armInstr c f s = .next t) :
    t = f s ∨ t = s.addCycles 1 := by
  rcases armInstr_cases c f s with ⟨_, he⟩ | ⟨_, he⟩ <;> cases he.symm.trans h
  · exact .inl rfl
  · exact .inr rfl

/-- What `Kept` says, and the alignment of the PC. -/
structure InvKept (s t : State) : Prop where
  kept : Kept s t
  aligned : s.pcAligned → t.pcAligned

namespace InvKept

variable {s t u : State}

theorem inv (h : InvKept s t) (hs : s.Inv) : t.Inv :=
  ⟨h.kept.mode hs.mode, h.aligned hs.pc, h.kept.mem hs.mem⟩

theorem refl (s : State) : InvKept s s := ⟨Kept.refl s, id⟩

theorem trans (h1 : InvKept s t) (h2 : InvKept t u) : InvKept s u :=
  ⟨h1.kept.trans h2.kept, fun h => h2.aligned (h1.aligned h)⟩

/-- An operation that leaves the PC and T alone. -/
theorem of_same_pc (h : Kept s t) (hpc : t.pc = s.pc) (ht : t.cpsr.t = s.cpsr.t) : InvKept s t :=
  ⟨h, State.pcAligned_congr hpc ht⟩

/-- Operations that end with a write of the PC, whatever they did to T before (R238). -/
theorem then_setPc (h : Kept s t) (v : Word) : InvKept s (t.setPc v) :=
  ⟨h.trans (Kept.setPc t v), fun _ => State.pcAligned_setPc t v⟩

theorem ite {c : Prop} [Decidable c] (ht : InvKept s t) (hu : InvKept s u) : InvKept s (if c then t else u) := by
  split
  · exact ht
  · exact hu

/-! ### The operations -/

theorem addCycles (h : InvKept s t) (n : Nat) : InvKept s (t.addCycles n) :=
  h.trans (of_same_pc (Kept.addCycles t n) rfl rfl)

theorem setReg (h : InvKept s t) (i : RegNum) (v : Word) : InvKept s (t.setReg i v) := by
  by_cases hi : i = 15#4
  · subst hi
    exact then_setPc h.kept v
  · exact h.trans (of_same_pc (Kept.setReg t i v) (by simp [State.setReg_pc, hi]) (by simp))

theorem setUserReg (s : State) (i : RegNum) (v : Word) : InvKept s (s.setUserReg i v) := by
  by_cases hi : i = 15#4
  · subst hi
    exact then_setPc (Kept.refl s) v
  · exact of_same_pc (Kept.setUserReg s i v) (by simp [State.setUserReg_pc, hi]) (by simp)

theorem memRead (s : State) (w : Width) (a : Word) : InvKept s (s.memRead w a).2 :=
  of_same_pc (Kept.memRead s w a) rfl rfl

theorem memWrite (h : InvKept s t) (w : Width) (a v : Word) : InvKept s (t.memWrite w a v) :=
  h.trans (of_same_pc (Kept.memWrite t w a v) rfl rfl)

theorem loadValue (s : State) (k : LoadKind) (a : Word) : InvKept s (s.loadValue k a).2 := by
  rw [State.loadValue_eq]
  exact of_same_pc (Kept.afterReads s _) rfl rfl

theorem branchExchange (h : InvKept s t) (v : Word) : InvKept s (t.branchExchange v) :=
  then_setPc (h.kept.trans (Kept.setT t _)) v

end InvKept

/-! ## Flag writes -/

/-- Two status words that differ in N, Z, C and V at most. -/
structure SameButFlags (p q : Psr) : Prop where
  bit : ∀ k, k ∉ [31, 30, 29, 28] → p.getLsbD k = q.getLsbD k

namespace SameButFlags

theorem refl (p : Psr) : SameButFlags p p := ⟨fun _ _ => rfl⟩

theorem setNZ {w : Nat} (p : Psr) (r : BitVec w) : SameButFlags (p.setNZ r) p :=
  ⟨fun k hk => Psr.setNZ_other p r k fun h => hk (List.mem_append_left [29, 28] h)⟩

theorem setNZC (p : Psr) (r : Word) (c : Bool) : SameButFlags (p.setNZC r c) p :=
  ⟨fun k hk => Psr.setNZC_other p r c k fun h => hk (List.mem_append_left [28] h)⟩

theorem setNZCV (p : Psr) (r : Word) (c v : Bool) : SameButFlags (p.setNZCV r c v) p :=
  ⟨Psr.setNZCV_other p r c v⟩

theorem logical (s : State) (v : Word) (c : Bool) : SameButFlags (logical s v c).psr s.cpsr := setNZC ..

theorem arithmetic (s : State) (r : AluResult) : SameButFlags (arithmetic s r).psr s.cpsr := setNZCV ..

theorem ite {p q : Psr} (h : SameButFlags p q) (b : Bool) : SameButFlags (if b then p else q) q := by
  cases b
  · exact refl q
  · exact h

end SameButFlags

namespace InvKept

variable {s t : State}

theorem setCpsr (h : InvKept s t) {p : Psr} (hp : SameButFlags p t.cpsr) : InvKept s (t.setCpsr p) :=
  have hflags : ∀ k, k < 28 → k ≠ 5 → k ∉ [31, 30, 29, 28] := fun k hk _ => by
    simp only [List.mem_cons, List.not_mem_nil, or_false]
    omega
  h.trans (of_same_pc (Kept.flags t hp.bit hflags) rfl (hp.bit 5 (by decide)))

/-! ### The shared ends of instructions -/

theorem dpWrite (sf : Bool) (rd : RegNum) {o : DpOutcome} (s : State) (ho : SameButFlags o.psr s.cpsr) :
    InvKept s (dpWrite sf rd o s) := by
  by_cases hrd : rd = 15#4
  · subst hrd
    rw [dpWrite_15]
    have hk : Kept s (if sf then s.restoreCpsr else s) := by
      cases sf
      · exact Kept.refl s
      · exact Kept.restoreCpsr s
    exact (then_setPc hk o.value).addCycles 3
  · rw [dpWrite_of_ne sf o s hrd]
    exact (((refl s).setReg rd o.value).setCpsr (by simpa using ho.ite sf)).addCycles 1

theorem dpCompare {o : DpOutcome} (s : State) (ho : SameButFlags o.psr s.cpsr) : InvKept s (dpCompare o s) :=
  ((refl s).setCpsr ho).addCycles 1

theorem mulWrite (sf : Bool) (rd : RegNum) (v : Word) (s : State) : InvKept s (mulWrite sf rd v s) :=
  (((refl s).setReg rd v).setCpsr (by simpa using (SameButFlags.setNZ s.cpsr v).ite sf)).addCycles 2

theorem mulLongWrite (sf : Bool) (hi lo : RegNum) (v : BitVec 64) (s : State) :
    InvKept s (mulLongWrite sf hi lo v s) :=
  ((((refl s).setReg lo _).setReg hi _).setCpsr (by simpa using (SameButFlags.setNZ s.cpsr v).ite sf)).addCycles 3

theorem baseWriteBack (h : InvKept s t) (a : Addressing) (v : Word) : InvKept s (baseWriteBack a v t) := by
  unfold Machine.baseWriteBack
  exact ite (h.setReg a.rn v) h

theorem armLoad (k : LoadKind) (a : Addressing) (o : Word) (rd : RegNum) (s : State) :
    InvKept s (armLoad k a o rd s) :=
  (((loadValue s k _).baseWriteBack a _).setReg rd _).addCycles _

theorem armStore (w : Width) (a : Addressing) (o : Word) (rd : RegNum) (s : State) :
    InvKept s (armStore w a o rd s) :=
  (((refl s).memWrite w _ _).baseWriteBack a _).addCycles 2

theorem armSwap (w : Width) (k : LoadKind) (rn rd rm : RegNum) (s : State) : InvKept s (armSwap w k rn rd rm s) :=
  (((loadValue s k _).memWrite w _ _).setReg rd _).addCycles 4

theorem thumbLoad (k : LoadKind) (a : Word) (rd : LowReg) (s : State) : InvKept s (thumbLoad k a rd s) :=
  ((loadValue s k a).setReg (lowReg rd) _).addCycles 3

theorem thumbStore (w : Width) (a : Word) (rd : LowReg) (s : State) : InvKept s (thumbStore w a rd s) :=
  ((refl s).memWrite w a _).addCycles 2

theorem thumbWrite (rd : LowReg) (v : Word) {p : Psr} (n : Nat) (s : State) (hp : SameButFlags p s.cpsr) :
    InvKept s (thumbWrite rd v p n s) :=
  (((refl s).setReg (lowReg rd) v).setCpsr (by simpa using hp)).addCycles n

theorem thumbCompare {p : Psr} (s : State) (hp : SameButFlags p s.cpsr) : InvKept s (thumbCompare p s) :=
  ((refl s).setCpsr hp).addCycles 1

theorem thumbLogical (rd : LowReg) (v : Word) (s : State) : InvKept s (thumbLogical rd v s) :=
  thumbWrite rd v 1 s (.setNZ s.cpsr v)

theorem thumbArithmetic (rd : LowReg) (r : AluResult) (s : State) : InvKept s (thumbArithmetic rd r s) :=
  thumbWrite rd r.value 1 s (.setNZCV ..)

theorem thumbShift (rd : LowReg) (r : ShiftResult) (n : Nat) (s : State) : InvKept s (thumbShift rd r n s) :=
  thumbWrite rd r.value n s (.setNZC ..)

/-! ### Blocks of words -/

theorem readBlock (l : List RegNum) (a : Word) (s : State) : InvKept s (readBlock l a s).2 := by
  induction l generalizing a s with
  | nil => exact refl s
  | cons i is ih => exact (memRead s .word a).trans (ih _ _)

theorem writeBlock (v : RegNum → Word) (l : List RegNum) (a : Word) (s : State) : InvKept s (writeBlock v l a s) := by
  induction l generalizing a s with
  | nil => exact refl s
  | cons i is ih => exact ((refl s).memWrite .word a _).trans (ih _ _)

theorem loadRegs (l : List RegNum) (a : Word) (s : State) : InvKept s (loadRegs l a s) := by
  induction l generalizing a s with
  | nil => exact refl s
  | cons i is ih => exact ((memRead s .word a).setReg i _).trans (ih _ _)

theorem writeRegs {w : State → RegNum → Word → State} (hw : ∀ s i v, InvKept s (w s i v)) (l : List (RegNum × Word))
    (s : State) : InvKept s (writeRegs w l s) := by
  induction l generalizing s with
  | nil => exact refl s
  | cons x xs ih => exact (hw s x.1 x.2).trans (ih _)

theorem ldmWrite (a : BlockAddressing) (list : BitVec 16) (s : State) (i : RegNum) (v : Word) :
    InvKept s (ldmWrite a list s i v) := by
  unfold Machine.ldmWrite
  exact ite (setUserReg s i v) ((refl s).setReg i v)

theorem ldmLoadPc (h : InvKept s t) (a : BlockAddressing) (loaded : List (RegNum × Word)) :
    InvKept s (ldmLoadPc a loaded t) := by
  unfold Machine.ldmLoadPc
  split
  · exact h
  · refine then_setPc (h.kept.trans ?_) _
    cases a.sbit
    · exact Kept.refl t
    · exact Kept.restoreCpsr t

theorem ldmWriteBack (h : InvKept s t) (a : BlockAddressing) (list : BitVec 16) (final : Word) :
    InvKept s (ldmWriteBack a list final t) := by
  unfold Machine.ldmWriteBack
  exact ite (h.setReg a.rn final) h

theorem ldmEffect (a : BlockAddressing) (list : BitVec 16) (s : State) : InvKept s (ldmEffect a list s) :=
  have hback := (readBlock (blockRegs list) (blockStart s a list) s).ldmWriteBack a list (blockFinal s a list)
  ((hback.trans (writeRegs (ldmWrite a list) _ _)).ldmLoadPc a _).addCycles _

theorem stmEffect (a : BlockAddressing) (list : BitVec 16) (s : State) : InvKept s (stmEffect a list s) :=
  have hwrite := writeBlock (stmValue s a list) (blockRegs list) (blockStart s a list) s
  (ite (hwrite.setReg a.rn _) hwrite).addCycles _

theorem pushEffect (lr : Bool) (list : BitVec 8) (s : State) : InvKept s (pushEffect lr list s) :=
  ((writeBlock s.reg (pushRegs lr list) _ s).setReg 13#4 _).addCycles 2

theorem popEffect (pc : Bool) (list : BitVec 8) (s : State) : InvKept s (popEffect pc list s) :=
  have hload := loadRegs (listRegs list) (s.reg 13#4) s
  ((ite ((hload.trans (memRead _ .word _)).branchExchange _) hload).setReg 13#4 _).addCycles 3

theorem stmiaEffect (rb : LowReg) (list : BitVec 8) (s : State) : InvKept s (stmiaEffect rb list s) :=
  ((writeBlock (stmiaValue s rb list) (listRegs list) _ s).setReg (lowReg rb) _).addCycles 2

theorem ldmiaEffect (rb : LowReg) (list : BitVec 8) (s : State) : InvKept s (ldmiaEffect rb list s) :=
  have hload := loadRegs (listRegs list) (s.reg (lowReg rb)) s
  (ite hload (hload.setReg (lowReg rb) _)).addCycles 3

theorem msrSpsr (mask : BitVec 4) (op : Word) (s : State) : InvKept s (msrSpsr mask op s) :=
  of_same_pc (Kept.setCurrentSpsr s _) rfl rfl

/-! ### How a meaning answers -/

theorem of_next (h : (.next u : Result State) = .next t) (hu : InvKept s u) : InvKept s t := by
  cases h
  exact hu

theorem of_armInstr {c : Cond} {f : State → State} (h : armInstr c f s = .next t) (hf : InvKept s (f s)) :
    InvKept s t := by
  rcases armInstr_next h with rfl | rfl
  · exact hf
  · exact (refl s).addCycles 1

theorem of_unless_refused {c : Prop} [Decidable c] {r : Refusal}
    (h : (if c then .refused r else .next u : Result State) = .next t) (hu : InvKept s u) : InvKept s t := by
  split at h
  · cases h
  · exact of_next h hu

end InvKept

/-! ## One instruction -/

/-- What a completed instruction did: something that keeps the invariant, MSR to CPSR, or a software interrupt. -/
theorem exec_cases {i : Instr} {s t : State} (h : exec i s = .next t) :
    InvKept s t ∨
      (i.cond?.isSome = true ∧ ∃ mask op, t = (msrCpsr mask op s).addCycles 1) ∨
      (((∃ c comment, i = .armSwi c comment) ∨ ∃ value8, i = .thumbSwi value8) ∧ t = s.raiseSwi.addCycles 3) := by
  cases i <;> dsimp only [exec] at h
  case armB => exact .inl (.of_armInstr h (((InvKept.refl s).setReg _ _).addCycles _))
  case armBl => exact .inl (.of_armInstr h ((((InvKept.refl s).setReg _ _).setReg _ _).addCycles _))
  case armBx => exact .inl (.of_armInstr h (((InvKept.refl s).branchExchange _).addCycles _))
  case armUndefMultiply | armUndefStoreSh10 | armUndefStoreSh11 | armUndefClass110 =>
    exact .inl (.of_armInstr h ((InvKept.refl s).addCycles _))
  case armAnd | armEor | armOrr | armMov | armBic | armMvn =>
    exact .inl (.of_armInstr h (.dpWrite _ _ _ (.logical ..)))
  case armSub | armRsb | armAdd | armAdc | armSbc | armRsc =>
    exact .inl (.of_armInstr h (.dpWrite _ _ _ (.arithmetic ..)))
  case armTst | armTeq => exact .inl (.of_armInstr h (.dpCompare _ (.logical ..)))
  case armCmp | armCmn => exact .inl (.of_armInstr h (.dpCompare _ (.arithmetic ..)))
  case armMul | armMla => exact .inl (.of_armInstr h (.mulWrite ..))
  case armUmull | armUmlal | armSmull | armSmlal => exact .inl (.of_armInstr h (.mulLongWrite ..))
  case armLdr | armLdrb | armLdrh | armLdrsb | armLdrsh => exact .inl (.of_armInstr h (.armLoad ..))
  case armStr | armStrb | armStrh => exact .inl (.of_armInstr h (.armStore ..))
  case armSwp | armSwpb => exact .inl (.of_armInstr h (.armSwap ..))
  case armLdm => exact .inl (.of_armInstr h (.ldmEffect ..))
  case armStm => exact .inl (.of_armInstr h (.stmEffect ..))
  case armMrsCpsr | armMrsSpsr => exact .inl (.of_armInstr h (((InvKept.refl s).setReg _ _).addCycles _))
  case armMsrSpsrReg | armMsrSpsrImm => exact .inl (.of_armInstr h ((InvKept.msrSpsr ..).addCycles _))
  case armMsrCpsrReg | armMsrCpsrImm =>
    rcases armInstr_next h with rfl | rfl
    · exact .inr (.inl ⟨rfl, _, _, rfl⟩)
    · exact .inl ((InvKept.refl s).addCycles 1)
  case armSwi =>
    rcases armInstr_next h with rfl | rfl
    · exact .inr (.inr ⟨.inl ⟨_, _, rfl⟩, rfl⟩)
    · exact .inl ((InvKept.refl s).addCycles 1)
  case thumbSwi =>
    cases h
    exact .inr (.inr ⟨.inr ⟨_, rfl⟩, rfl⟩)
  case thumbLslImm | thumbLsrImm | thumbAsrImm | thumbLslReg | thumbLsrReg | thumbAsrReg | thumbRorReg =>
    exact .inl (.of_next h (.thumbShift ..))
  case thumbAddReg | thumbSubReg | thumbAddImm3 | thumbSubImm3 | thumbAddImm8 | thumbSubImm8 | thumbAdc | thumbSbc |
      thumbNeg =>
    exact .inl (.of_next h (.thumbArithmetic ..))
  case thumbMovImm8 | thumbAnd | thumbEor | thumbOrr | thumbBic | thumbMvn => exact .inl (.of_next h (.thumbLogical ..))
  case thumbMul => exact .inl (.of_next h (.thumbWrite _ _ _ _ (.setNZ ..)))
  case thumbTst => exact .inl (.of_next h (.thumbCompare _ (.setNZ ..)))
  case thumbCmpImm8 | thumbCmpReg | thumbCmn | thumbCmpHi => exact .inl (.of_next h (.thumbCompare _ (.arithmetic ..)))
  case thumbAddHi | thumbMovHi | thumbAddRdPc | thumbAddRdSp | thumbAddSpImm | thumbSubSpImm | thumbB | thumbBlFirst =>
    exact .inl (.of_next h (((InvKept.refl s).setReg _ _).addCycles _))
  case thumbBlSecond => exact .inl (.of_next h ((((InvKept.refl s).setReg _ _).setReg _ _).addCycles _))
  case thumbBx => exact .inl (.of_next h (((InvKept.refl s).branchExchange _).addCycles _))
  case thumbBCond =>
    exact .inl (.of_next h (.ite (((InvKept.refl s).setReg _ _).addCycles _) ((InvKept.refl s).addCycles _)))
  case thumbUndef1011 | thumbUndef11101 => exact .inl (.of_next h ((InvKept.refl s).addCycles _))
  case thumbLdrPc | thumbLdrReg | thumbLdrbReg | thumbLdsb | thumbLdrhReg | thumbLdsh | thumbLdrImm | thumbLdrbImm |
      thumbLdrhImm | thumbLdrSp =>
    exact .inl (.of_next h (.thumbLoad ..))
  case thumbStrReg | thumbStrbReg | thumbStrhReg | thumbStrImm | thumbStrbImm | thumbStrhImm | thumbStrSp =>
    exact .inl (.of_next h (.thumbStore ..))
  case thumbPush => exact .inl (.of_unless_refused h (.pushEffect ..))
  case thumbPop => exact .inl (.of_unless_refused h (.popEffect ..))
  case thumbStmia => exact .inl (.of_unless_refused h (.stmiaEffect ..))
  case thumbLdmia => exact .inl (.of_unless_refused h (.ldmiaEffect ..))

/-- MSR to CPSR may set T and leave the PC: in ARM state that PC is aligned for either T. -/
theorem InvKept.msrCpsr (mask : BitVec 4) (op : Word) {s : State} (ht : s.cpsr.t = false) :
    InvKept s (msrCpsr mask op s) := by
  refine ⟨Kept.msrCpsr mask op s, ?_⟩
  obtain ⟨p, hp⟩ := msrCpsr_eq_setCpsr mask op s
  rw [hp]
  exact State.pcAligned_of_arm rfl ht

/-- An entry sets the mode, T and the PC itself; of the state before it only memory matters (R706). -/
theorem State.takeException_inv {s : State} (hmem : s.mem.wf = true) (vector : Word) (m : Mode) :
    (s.takeException vector m).Inv := by
  rw [State.takeException_eq]
  constructor
  · simp [State.modeValid]
  · simp [State.pcAligned]
  · simpa using hmem

theorem State.raiseSwi_inv {s : State} (hmem : s.mem.wf = true) : s.raiseSwi.Inv := by
  unfold State.raiseSwi
  exact State.takeException_inv (by simpa using hmem) _ _

/-- An instruction keeps the invariant, a conditional one in the state whose decoder gives it: ARM state. -/
theorem exec_inv {i : Instr} {s t : State} (harm : i.cond?.isSome = true → s.cpsr.t = false) (hs : s.Inv)
    (h : exec i s = .next t) : t.Inv := by
  rcases exec_cases h with hk | ⟨hi, mask, op, rfl⟩ | ⟨_, rfl⟩
  · exact hk.inv hs
  · exact ((InvKept.msrCpsr mask op (harm hi)).addCycles 1).inv hs
  · exact ((InvKept.refl _).addCycles 3).inv (State.raiseSwi_inv hs.mem)

/-! ## One step -/

/-- A Thumb instruction has no condition field (R500). -/
theorem cond?_decodeThumb (h : Half) : (decodeThumb h).cond? = none := by
  unfold decodeThumb decodeThumbHi decodeThumbAlu decodeThumbRegOffset decodeThumb1011
  dsimp only
  repeat' split
  all_goals rfl

/-- What is fetched with T set has no condition. -/
theorem arm_of_cond?_decodeFetched {thumb : Bool} {w : Word} (h : (decodeFetched thumb w).cond?.isSome = true) :
    thumb = false := by
  cases thumb
  · rfl
  · simp [decodeFetched, cond?_decodeThumb] at h

/-- The fetch aligns the PC, whatever it was. -/
theorem State.fetch_inv {s : State} (hmode : s.modeValid = true) (hmem : s.mem.wf = true) : s.fetch.2.Inv :=
  ⟨by simpa [State.modeValid] using hmode, s.fetch_pcAligned, by simpa using hmem⟩

/-- A step that is not halted ends in the invariant even from a PC that is not aligned for T. -/
theorem step_running_inv {s t : State} (hrun : s.halted = false) (hmode : s.modeValid = true)
    (hmem : s.mem.wf = true) (h : step s = .next t) : t.Inv := by
  rw [step_running hrun] at h
  refine exec_inv (fun hc => ?_) (State.fetch_inv hmode hmem) h
  rw [State.fetch_cpsr]
  exact arm_of_cond?_decodeFetched hc

/-- Settles O56: a halted step changes nothing; any other fetches, which aligns the PC, and runs one instruction. -/
theorem stepKeepsTheInvariant : Obligations.StepKeepsTheInvariant := by
  unfold Obligations.StepKeepsTheInvariant
  intro s t hs h
  cases hrun : s.halted with
  | false => exact step_running_inv hrun hs.mode hs.mem h
  | true =>
    rw [step_halted hrun] at h
    cases h
    exact hs

/-! ## Reset -/

theorem State.reset_setMem_inv {m : Memory} (hm : m.wf = true) : (State.reset.setMem m).Inv :=
  have hreset : State.reset.Inv := ⟨rfl, rfl, rfl⟩
  ⟨hreset.mode, hreset.pc, hm⟩

/-- Settles O2: the reset mode is System, the reset PC is a multiple of four, and memory is the one given. -/
theorem invariantHoldsAtReset : Obligations.InvariantHoldsAtReset := by
  unfold Obligations.InvariantHoldsAtReset
  exact fun m hm => State.reset_setMem_inv hm

/-! ## Events between steps -/

theorem State.Inv.eventInv {s : State} (h : s.Inv) : s.EventInv := ⟨h.mode, State.pc_bit0_of_aligned h.pc, h.mem⟩

theorem State.resetBlock_inv {s : State} (hmem : s.mem.wf = true) : s.resetBlock.Inv :=
  have hreset := State.reset_setMem_inv hmem
  ⟨hreset.mode, hreset.pc, hmem⟩

theorem State.triggerIrq_eventInv {s : State} (hs : s.EventInv) : s.triggerIrq.EventInv := by
  unfold State.triggerIrq
  split
  · exact hs
  · obtain ⟨hmode, hpc, hmem⟩ :=
      (State.takeException_inv (s := s.writePhys (.lr .irq) s.pc) hs.mem Config.vectorIrq .irq).eventInv
    exact ⟨hmode, hpc, hmem⟩

theorem envStep_eventInv {e : EnvEvent} {s t : State} (hs : s.EventInv) (h : envStep e s = .next t) :
    t.EventInv := by
  cases e with
  | step =>
    cases hrun : s.halted with
    | false => exact (step_running_inv hrun hs.mode hs.mem h).eventInv
    | true => cases (step_halted hrun).symm.trans h; exact hs
  | irq => cases h; exact State.triggerIrq_eventInv hs
  | setHalted b => cases h; exact ⟨hs.mode, hs.pc, hs.mem⟩
  | setStopped b => cases h; exact ⟨hs.mode, hs.pc, hs.mem⟩
  | reset => cases h; exact (State.resetBlock_inv hs.mem).eventInv
  | setCpsr v => cases h; exact ⟨mergeMode_valid v hs.mode, hs.pc, hs.mem⟩
  | setSpsr v => cases h; exact ⟨hs.mode, hs.pc, hs.mem⟩
  | dma w a v => cases h; exact ⟨hs.mode, hs.pc, Bus.wf_store _ hs.mem _ _ _⟩
  | bus b => cases h; exact ⟨hs.mode, hs.pc, hs.mem⟩

/-- Settles O57, by induction on the list of events. -/
theorem schedulesKeepTheInvariant : Obligations.SchedulesKeepTheInvariant := by
  unfold Obligations.SchedulesKeepTheInvariant
  intro events
  induction events with
  | nil => intro s t hs h; cases h; exact hs
  | cons e es ih =>
    intro s t hs h
    rw [runSchedule] at h
    split at h
    · next u hu => exact ih u t (envStep_eventInv hs hu) h
    · cases h
    · cases h

end Sys2Proof.Machine
end

section
/-! PROOFS. Memories in canonical form are determined by what they read as (20_memory.md R101). -/

namespace Sys2Proof.Machine

/-- What a canonical list lists first differs from what an unlisted address reads as. -/
theorem Memory.read_head_ne {lo k : Nat} {b : Byte} {m : Memory} (hm : Memory.wfFrom lo ((k, b) :: m) = true) :
    Memory.read ((k, b) :: m) k ≠ unlistedByte := by
  obtain ⟨_, _, hb, _⟩ := (Memory.wfFrom_cons ..).1 hm
  rwa [Memory.read_cons, if_pos rfl]

/-- A canonical list that lists something at `k` has its first key at `k` or below. -/
theorem Memory.head_le_of_read_ne {lo k a : Nat} {b : Byte} {m : Memory} (hm : Memory.wfFrom lo ((k, b) :: m) = true)
    (ha : Memory.read ((k, b) :: m) a ≠ unlistedByte) : k ≤ a := by
  by_contra hlt
  have hfrom : Memory.wfFrom k ((k, b) :: m) = true :=
    (Memory.wfFrom_cons ..).2 ⟨Nat.le_refl k, ((Memory.wfFrom_cons ..).1 hm).2⟩
  exact ha (Memory.read_below hfrom (Nat.not_le.1 hlt))

/-- The tail of a canonical list reads as the list, but at the first key, where it lists nothing. -/
theorem Memory.read_tail {lo k : Nat} {b : Byte} {m : Memory} (hm : Memory.wfFrom lo ((k, b) :: m) = true) (a : Nat) :
    m.read a = if k = a then unlistedByte else Memory.read ((k, b) :: m) a := by
  obtain ⟨_, _, _, htail⟩ := (Memory.wfFrom_cons ..).1 hm
  split
  · next h => exact Memory.read_below htail (by omega)
  · next h => rw [Memory.read_cons, if_neg h]

theorem Memory.eq_of_read_eq {lo : Nat} {m n : Memory} (hm : Memory.wfFrom lo m = true)
    (hn : Memory.wfFrom lo n = true) (h : ∀ a, m.read a = n.read a) : m = n := by
  induction m generalizing lo n with
  | nil =>
    cases n with
    | nil => rfl
    | cons c n => exact absurd (h c.1).symm (Memory.read_head_ne hn)
  | cons c m ih =>
    obtain ⟨k, b⟩ := c
    cases n with
    | nil => exact absurd (h k) (Memory.read_head_ne hm)
    | cons d n =>
      obtain ⟨k', b'⟩ := d
      obtain rfl : k = k' :=
        Nat.le_antisymm (Memory.head_le_of_read_ne hm (h k' ▸ Memory.read_head_ne hn))
          (Memory.head_le_of_read_ne hn (h k ▸ Memory.read_head_ne hm))
      obtain rfl : b = b' := by simpa [Memory.read_cons] using h k
      have htails : ∀ a, Memory.read m a = Memory.read n a := fun a => by
        rw [Memory.read_tail hm, Memory.read_tail hn, h a]
      obtain ⟨_, _, _, hm'⟩ := (Memory.wfFrom_cons ..).1 hm
      obtain ⟨_, _, _, hn'⟩ := (Memory.wfFrom_cons ..).1 hn
      rw [ih hm' hn' htails]

/-- Settles O60, by induction on the lists: their first keys agree, for neither lists anything below its own. -/
theorem canonicalMemoriesAreDeterminedByTheirBytes : Obligations.CanonicalMemoriesAreDeterminedByTheirBytes := by
  unfold Obligations.CanonicalMemoriesAreDeterminedByTheirBytes
  exact fun _ _ hm hn h => Memory.eq_of_read_eq hm hn h

end Sys2Proof.Machine
end

section
/-! PROOFS. The data accesses of every instruction (20_memory.md R103 to R106) and what the bus gives (R100, R109,
R111). The case analysis over the instructions is done once, in `exec_dataTrace`. -/

namespace Sys2Proof.Machine

open Claims

/-! ## What the bus gives -/

/-- The first range that holds an address decides where reads and writes of it go (R109). -/
theorem Bus.homes_of_first_range {b : Bus} {r : Region} {rest : List Region} {addr : Word} (hb : b.map = r :: rest)
    (h : r.first.toNat ≤ addr.toNat ∧ addr.toNat ≤ r.last.toNat) :
    match r.kind with
    | .memory home =>
      b.readHome addr = some (home + (addr - r.first)) ∧ b.writeHome addr = some (home + (addr - r.first))
    | .readOnly home => b.readHome addr = some (home + (addr - r.first)) ∧ b.writeHome addr = none
    | .device => b.readHome addr = none ∧ b.writeHome addr = none := by
  have hp : placeIn b.map addr = r.place addr := by rw [hb, placeIn, if_pos h]
  cases hk : r.kind <;> simp [Bus.readHome, Bus.writeHome, hp, Region.place, hk]

/-- A range that does not hold the address leaves it to the ranges after it. -/
theorem Bus.homes_of_later_range {b : Bus} {r : Region} {rest : List Region} {addr : Word} (hb : b.map = r :: rest)
    (h : ¬ (r.first.toNat ≤ addr.toNat ∧ addr.toNat ≤ r.last.toNat)) :
    b.readHome addr = Bus.readHome ⟨rest, b.answers⟩ addr ∧
      b.writeHome addr = Bus.writeHome ⟨rest, b.answers⟩ addr := by
  have hp : placeIn b.map addr = placeIn rest addr := by rw [hb, placeIn, if_neg h]
  simp [Bus.readHome, Bus.writeHome, hp]

theorem writeOf_value (w : Width) (addr v : Word) : (writeOf w addr v).value = busValue w v := (busValue_eq w v).symm

/-- A read of a device gives the listed answer of its number. -/
theorem State.busRead_device {s : State} {addr a : Word} (w : Width) (h : s.bus.readHome addr = none)
    (ha : s.bus.answers[s.reads]? = some a) : s.busRead w addr = busValue w a := by
  simp [State.busRead, h, Bus.answer, List.getD, ha]

/-! ## A record of accesses -/

theorem align_align (w : Width) (a : Word) : align w (align w a) = align w a := by
  cases w with
  | byte => rfl
  | half => exact maskPc_idem true a
  | word => exact maskPc_idem false a

/-- The accesses `l`, of the kinds and widths `as`, each at an aligned address and each read with what the bus gives
after as many reads as accesses stand before it. -/
inductive BusLog : State → List Access → List BusAccess → Prop where
  | nil (s : State) : BusLog s [] []
  | read {s : State} {as : List Access} {l : List BusAccess} (w : Width) (addr : Word)
      (h : BusLog (later s 1) as l) : BusLog s ((.read, w) :: as) (readRecord s w addr :: l)
  | write {s : State} {as : List Access} {l : List BusAccess} (w : Width) (addr v : Word)
      (h : BusLog (later s 1) as l) : BusLog s ((.write, w) :: as) (⟨.write, w, align w addr, v⟩ :: l)

theorem later_later (s : State) (m n : Nat) : later (later s m) n = later s (m + n) := by
  simp [later, Nat.add_assoc]

namespace BusLog

variable {s : State} {as bs : List Access} {l m : List BusAccess}

theorem map_eq (h : BusLog s as l) : l.map (fun a => (a.kind, a.width)) = as := by
  induction h with
  | nil => rfl
  | read w addr _ ih => rw [List.map_cons, ih]; rfl
  | write w addr v _ ih => rw [List.map_cons, ih]

theorem aligned (h : BusLog s as l) : ∀ a, a ∈ l → align a.width a.addr = a.addr := by
  induction h with
  | nil => simp
  | read w addr _ ih => exact List.forall_mem_cons.2 ⟨align_align w addr, ih⟩
  | write w addr v _ ih => exact List.forall_mem_cons.2 ⟨align_align w addr, ih⟩

theorem value (h : BusLog s as l) {n : Nat} {a : BusAccess} (hn : l[n]? = some a) (ha : a.kind = .read) :
    a.value = (later s n).busRead a.width a.addr := by
  induction h generalizing n with
  | nil => simp at hn
  | read w addr _ ih =>
    cases n with
    | zero => obtain rfl := Option.some.inj hn; rfl
    | succ n => rw [Nat.add_comm, ← later_later]; exact ih hn
  | write w addr v _ ih =>
    cases n with
    | zero => obtain rfl := Option.some.inj hn; cases ha
    | succ n => rw [Nat.add_comm, ← later_later]; exact ih hn

theorem length_eq (h : BusLog s as l) : l.length = as.length := by rw [← h.map_eq, List.length_map]

theorem kind_eq (h : BusLog s as l) {k : BusKind} (hk : ∀ p, p ∈ as → p.1 = k) (a : BusAccess) (ha : a ∈ l) :
    a.kind = k :=
  hk (a.kind, a.width) (h.map_eq ▸ List.mem_map.2 ⟨a, ha, rfl⟩)

theorem append (h : BusLog s as l) (hm : BusLog (later s l.length) bs m) : BusLog s (as ++ bs) (l ++ m) := by
  induction h with
  | nil => exact hm
  | read w addr _ ih => exact .read w addr (ih (by rwa [later_later, Nat.add_comm]))
  | write w addr v _ ih => exact .write w addr v (ih (by rwa [later_later, Nat.add_comm]))

/-- The reads of a block of loads. -/
theorem blockReads (s : State) (regs : List RegNum) (a : Word) :
    BusLog s (regs.map fun _ => (.read, .word)) (blockReads s regs a) := by
  induction regs generalizing s a with
  | nil => exact .nil s
  | cons i is ih => exact .read .word a (ih (later s 1) (a + 4))

/-- The writes of a block of stores. -/
theorem blockWrites (s : State) (value : RegNum → Word) (regs : List RegNum) (a : Word) :
    BusLog s (regs.map fun _ => (.write, .word)) (blockWrites value regs a) := by
  induction regs generalizing s a with
  | nil => exact .nil s
  | cons i is ih => exact .write .word a (value i) (ih (later s 1) (a + 4))

end BusLog

/-! ## No access -/

namespace NoAccess

variable {s t : State}

theorem refl (s : State) : NoAccess s s := ⟨rfl, rfl⟩

theorem ite {u : State} {c : Prop} [Decidable c] (ht : NoAccess s t) (hu : NoAccess s u) :
    NoAccess s (if c then t else u) := by
  split
  · exact ht
  · exact hu

theorem addCycles (h : NoAccess s t) (n : Nat) : NoAccess s (t.addCycles n) := h

theorem setCpsr (h : NoAccess s t) (p : Psr) : NoAccess s (t.setCpsr p) := h

theorem setReg (h : NoAccess s t) (i : RegNum) (v : Word) : NoAccess s (t.setReg i v) := by
  simpa [NoAccess] using h

theorem setPc (h : NoAccess s t) (v : Word) : NoAccess s (t.setPc v) := h.setReg 15#4 v

theorem setUserReg (h : NoAccess s t) (i : RegNum) (v : Word) : NoAccess s (t.setUserReg i v) := by
  simpa [NoAccess] using h

theorem restoreCpsr (h : NoAccess s t) : NoAccess s t.restoreCpsr := by
  rw [State.restoreCpsr_eq]
  exact h.setCpsr _

theorem branchExchange (h : NoAccess s t) (v : Word) : NoAccess s (t.branchExchange v) := (h.setCpsr _).setPc v

theorem raiseSwi (s : State) : NoAccess s s.raiseSwi := by
  simp [NoAccess, State.raiseSwi, State.takeException_eq]

theorem msrCpsr (mask : BitVec 4) (op : Word) (s : State) : NoAccess s (msrCpsr mask op s) := by
  obtain ⟨p, hp⟩ := msrCpsr_eq_setCpsr mask op s
  rw [hp]
  exact (refl s).setCpsr p

theorem msrSpsr (mask : BitVec 4) (op : Word) (s : State) : NoAccess s (msrSpsr mask op s) := ⟨rfl, rfl⟩

theorem dpWrite (sf : Bool) (rd : RegNum) (o : DpOutcome) (s : State) : NoAccess s (dpWrite sf rd o s) := by
  by_cases hrd : rd = 15#4
  · subst hrd
    rw [dpWrite_15]
    exact ((ite (refl s).restoreCpsr (refl s)).setPc _).addCycles 3
  · rw [dpWrite_of_ne sf o s hrd]
    exact (((refl s).setReg rd _).setCpsr _).addCycles 1

theorem dpCompare (o : DpOutcome) (s : State) : NoAccess s (dpCompare o s) := ((refl s).setCpsr _).addCycles 1

theorem mulWrite (sf : Bool) (rd : RegNum) (v : Word) (s : State) : NoAccess s (mulWrite sf rd v s) :=
  (((refl s).setReg rd v).setCpsr _).addCycles 2

theorem mulLongWrite (sf : Bool) (hi lo : RegNum) (v : BitVec 64) (s : State) :
    NoAccess s (mulLongWrite sf hi lo v s) :=
  ((((refl s).setReg lo _).setReg hi _).setCpsr _).addCycles 3

theorem thumbWrite (rd : LowReg) (v : Word) (p : Psr) (n : Nat) (s : State) : NoAccess s (thumbWrite rd v p n s) :=
  (((refl s).setReg (lowReg rd) v).setCpsr p).addCycles n

theorem thumbCompare (p : Psr) (s : State) : NoAccess s (thumbCompare p s) := ((refl s).setCpsr p).addCycles 1

theorem baseWriteBack (h : NoAccess s t) (a : Addressing) (v : Word) : NoAccess s (baseWriteBack a v t) :=
  ite (h.setReg a.rn v) h

theorem ldmWriteBack (h : NoAccess s t) (a : BlockAddressing) (list : BitVec 16) (v : Word) :
    NoAccess s (ldmWriteBack a list v t) :=
  ite (h.setReg a.rn v) h

theorem writeRegs_ldmWrite (h : NoAccess s t) (a : BlockAddressing) (list : BitVec 16) (l : List (RegNum × Word)) :
    NoAccess s (writeRegs (ldmWrite a list) l t) := by
  induction l generalizing t with
  | nil => exact h
  | cons x xs ih => exact ih (ite (h.setUserReg x.1 x.2) (h.setReg x.1 x.2))

theorem ldmLoadPc (h : NoAccess s t) (a : BlockAddressing) (loaded : List (RegNum × Word)) :
    NoAccess s (ldmLoadPc a loaded t) := by
  unfold Machine.ldmLoadPc
  split
  · exact h
  · exact (ite h.restoreCpsr h).setPc _

end NoAccess

/-! ## Thumb register lists -/

theorem pushRegs_length (lr : Bool) (list : BitVec 8) : (pushRegs lr list).length = stackCount lr list := by
  cases lr <;> simp [pushRegs, stackCount, listRegs_length]

/-- A list of eight registers does not hold R15. -/
theorem ne_15_of_mem_listRegs {list : BitVec 8} {i : RegNum} (h : i ∈ listRegs list) : i ≠ 15#4 := by
  rintro rfl
  simpa using (mem_listRegs (by decide) list _).1 h

theorem listRegs_loaded (list : BitVec 8) (a : Word) (s : State) :
    LoadedRegs (listRegs list) a s (loadRegs (listRegs list) a s) :=
  loadRegs_loaded (nodup_of_ascending (listRegs_ascending (by decide) list)) (fun _ => ne_15_of_mem_listRegs) a s

/-! ## The accesses from one state to another -/

theorem Accessed.trans {s t u : State} {l m : List BusAccess} (h : Accessed l s t) (hm : Accessed m t u) :
    Accessed (l ++ m) s u := by
  obtain ⟨ha, hr⟩ := h
  obtain ⟨ha', hr'⟩ := hm
  exact ⟨by rw [ha', ha, List.append_assoc], by rw [hr', hr, List.countP_append, Nat.add_assoc]⟩

/-- From `s` to `t` the bus saw accesses of the kinds and widths `as`. -/
def DataTrace (as : List Access) (s t : State) : Prop := ∃ l, Accessed l s t ∧ BusLog s as l

namespace DataTrace

variable {s t u : State} {as : List Access}

theorem of_noAccess (h : NoAccess s t) : DataTrace [] s t := by
  obtain ⟨ha, hr⟩ := h
  exact ⟨[], ⟨by simp [ha], by simp [hr]⟩, .nil s⟩

theorem then_noAccess (h : DataTrace as s t) (hq : NoAccess t u) : DataTrace as s u := by
  obtain ⟨l, ⟨ha, hr⟩, hlog⟩ := h
  obtain ⟨ha', hr'⟩ := hq
  exact ⟨l, ⟨ha'.trans ha, hr'.trans hr⟩, hlog⟩

theorem then_memWrite (h : DataTrace as s t) (w : Width) (addr v : Word) :
    DataTrace (as ++ [(.write, w)]) s (t.memWrite w addr v) := by
  obtain ⟨l, hl, hlog⟩ := h
  have hw : Accessed [⟨.write, w, align w addr, busValue w v⟩] t (t.memWrite w addr v) :=
    .writes (by simp) (by simp) (by simp)
  exact ⟨_, hl.trans hw, hlog.append (.write w addr _ (.nil _))⟩

theorem memWrite (s : State) (w : Width) (addr v : Word) : DataTrace [(.write, w)] s (s.memWrite w addr v) :=
  (of_noAccess (.refl s)).then_memWrite w addr v

theorem loadValue (s : State) (k : LoadKind) (addr : Word) :
    DataTrace [(.read, loadWidth k addr)] s (s.loadValue k addr).2 := by
  rw [State.loadValue_eq]
  exact ⟨[readRecord s (loadWidth k addr) addr], .afterReads (by simp [readRecord]) (by simp) (by simp),
    .read (loadWidth k addr) addr (.nil _)⟩

/-- A read after reads that left memory and the platform alone. -/
theorem then_memRead (h : DataTrace as s t) (hb : t.bus = s.bus) (hm : t.mem = s.mem)
    (hn : t.reads = s.reads + as.length) (w : Width) (addr : Word) :
    DataTrace (as ++ [(.read, w)]) s (t.memRead w addr).2 := by
  obtain ⟨l, hl, hlog⟩ := h
  have hread : Accessed [readRecord t w addr] t (t.memRead w addr).2 := .afterReads (by simp [readRecord]) rfl rfl
  have hrecord : readRecord t w addr = readRecord (later s l.length) w addr :=
    readRecord_congr (by rw [hb]; rfl) (by rw [hm]; rfl) (by rw [hn, hlog.length_eq]; rfl) w addr
  exact ⟨_, hl.trans hread, hlog.append (hrecord ▸ .read w addr (.nil _))⟩

/-! ### Loads and stores -/

theorem armLoad (k : LoadKind) (a : Addressing) (o : Word) (rd : RegNum) (s : State) :
    DataTrace [(.read, loadWidth k (transferAddress s a o))] s (armLoad k a o rd s) :=
  (loadValue s k _).then_noAccess ((((NoAccess.refl _).baseWriteBack a _).setReg rd _).addCycles _)

theorem armStore (w : Width) (a : Addressing) (o : Word) (rd : RegNum) (s : State) :
    DataTrace [(.write, w)] s (armStore w a o rd s) :=
  (memWrite s w _ _).then_noAccess (((NoAccess.refl _).baseWriteBack a _).addCycles 2)

theorem armSwap (w : Width) (k : LoadKind) (rn rd rm : RegNum) (s : State) :
    DataTrace [(.read, loadWidth k (s.armOp rn)), (.write, w)] s (armSwap w k rn rd rm s) :=
  ((loadValue s k _).then_memWrite w _ _).then_noAccess (((NoAccess.refl _).setReg rd _).addCycles 4)

theorem thumbLoad (k : LoadKind) (addr : Word) (rd : LowReg) (s : State) :
    DataTrace [(.read, loadWidth k addr)] s (thumbLoad k addr rd s) :=
  (loadValue s k addr).then_noAccess (((NoAccess.refl _).setReg (lowReg rd) _).addCycles 3)

theorem thumbStore (w : Width) (addr : Word) (rd : LowReg) (s : State) :
    DataTrace [(.write, w)] s (thumbStore w addr rd s) :=
  (memWrite s w addr _).then_noAccess ((NoAccess.refl _).addCycles 2)

/-! ### Blocks of words -/

theorem writeBlock (value : RegNum → Word) (regs : List RegNum) (a : Word) (s : State) :
    DataTrace (regs.map fun _ => (.write, .word)) s (writeBlock value regs a s) := by
  have hlog := BusLog.blockWrites s value regs a
  rw [writeBlock_eq]
  exact ⟨_, .writes (hlog.kind_eq (by simp)) rfl rfl, hlog⟩

theorem of_blockReads {regs : List RegNum} {a : Word} (ha : t.accesses = s.accesses ++ blockReads s regs a)
    (hr : t.reads = s.reads + regs.length) : DataTrace (regs.map fun _ => (.read, .word)) s t :=
  ⟨_, .afterReads (blockReads_kind s regs a) ha (by rw [hr, blockReads_length]), .blockReads s regs a⟩

theorem ldmEffect (a : BlockAddressing) (list : BitVec 16) (s : State) :
    DataTrace ((blockRegs list).map fun _ => (.read, .word)) s (ldmEffect a list s) := by
  have hread := readBlock_eq (nodup_of_ascending (blockRegs_ascending list)) (blockStart s a list) s
  refine then_noAccess (t := (readBlock (blockRegs list) (blockStart s a list) s).2) ?_
    (((((NoAccess.refl _).ldmWriteBack a list _).writeRegs_ldmWrite a list _).ldmLoadPc a _).addCycles _)
  rw [hread]
  exact of_blockReads (a := blockStart s a list) rfl (by simp [blockReads_length])

theorem stmEffect (a : BlockAddressing) (list : BitVec 16) (s : State) :
    DataTrace ((blockRegs list).map fun _ => (.write, .word)) s (stmEffect a list s) :=
  (writeBlock (stmValue s a list) (blockRegs list) (blockStart s a list) s).then_noAccess
    ((NoAccess.ite ((NoAccess.refl _).setReg a.rn _) (.refl _)).addCycles _)

theorem stmiaEffect (rb : LowReg) (list : BitVec 8) (s : State) :
    DataTrace (List.replicate (listCount list) (.write, .word)) s (stmiaEffect rb list s) := by
  rw [← listRegs_length, ← List.map_const']
  exact (writeBlock (stmiaValue s rb list) (listRegs list) _ s).then_noAccess
    (((NoAccess.refl _).setReg (lowReg rb) _).addCycles 2)

theorem pushEffect (lr : Bool) (list : BitVec 8) (s : State) :
    DataTrace (List.replicate (stackCount lr list) (.write, .word)) s (pushEffect lr list s) := by
  rw [← pushRegs_length, ← List.map_const']
  exact (writeBlock s.reg (pushRegs lr list) _ s).then_noAccess (((NoAccess.refl _).setReg 13#4 _).addCycles 2)

theorem loadRegs (list : BitVec 8) (a : Word) (s : State) :
    DataTrace (List.replicate (listCount list) (.read, .word)) s (loadRegs (listRegs list) a s) := by
  have h := listRegs_loaded list a s
  rw [← listRegs_length, ← List.map_const']
  exact of_blockReads h.accesses h.reads

theorem ldmiaEffect (rb : LowReg) (list : BitVec 8) (s : State) :
    DataTrace (List.replicate (listCount list) (.read, .word)) s (ldmiaEffect rb list s) :=
  (loadRegs list (s.reg (lowReg rb)) s).then_noAccess
    ((NoAccess.ite (.refl _) ((NoAccess.refl _).setReg (lowReg rb) _)).addCycles 3)

theorem popEffect (pc : Bool) (list : BitVec 8) (s : State) :
    DataTrace (List.replicate (stackCount pc list) (.read, .word)) s (popEffect pc list s) := by
  have hload := loadRegs list (s.reg 13#4) s
  cases pc with
  | false => exact hload.then_noAccess (((NoAccess.refl _).setReg 13#4 _).addCycles 3)
  | true =>
    have hregs := listRegs_loaded list (s.reg 13#4) s
    have hreads : (Machine.loadRegs (listRegs list) (s.reg 13#4) s).reads =
        s.reads + (List.replicate (listCount list) ((.read, .word) : Access)).length := by
      rw [hregs.reads, listRegs_length, List.length_replicate]
    rw [show stackCount true list = listCount list + 1 from rfl, List.replicate_succ']
    exact (hload.then_memRead hregs.frame.bus hregs.mem hreads .word _).then_noAccess
      ((((NoAccess.refl _).branchExchange _).setReg 13#4 _).addCycles 3)

/-! ### How a meaning answers -/

theorem of_next (h : (.next u : Result State) = .next t) (hu : DataTrace as s u) : DataTrace as s t := by
  cases h
  exact hu

theorem of_unless_refused {c : Prop} [Decidable c] {r : Refusal}
    (h : (if c then .refused r else .next u : Result State) = .next t) (hu : DataTrace as s u) : DataTrace as s t := by
  split at h
  · cases h
  · exact of_next h hu

/-- An ARM instruction whose condition fails makes no access (R106). -/
theorem of_armInstr {c : Cond} {f : State → State} (h : armInstr c f s = .next t) (hf : DataTrace as s (f s)) :
    DataTrace (if condPassed s.cpsr c then as else []) s t := by
  rcases armInstr_cases c f s with ⟨hc, he⟩ | ⟨hc, he⟩ <;> cases he.symm.trans h <;> rw [hc]
  · exact hf
  · exact of_noAccess ((NoAccess.refl s).addCycles 1)

/-- An ARM instruction that makes no access whether its condition passes or fails. -/
theorem of_armInstr_noAccess {c : Cond} {f : State → State} (h : armInstr c f s = .next t) (hf : NoAccess s (f s)) :
    DataTrace (if condPassed s.cpsr c then [] else []) s t :=
  of_armInstr h (of_noAccess hf)

theorem of_next_noAccess (h : (.next u : Result State) = .next t) (hu : NoAccess s u) : DataTrace [] s t :=
  of_next h (of_noAccess hu)

end DataTrace

/-! ## One instruction -/

/-- The accesses of an instruction are those of the width table, none where an ARM condition fails (R105, R106). -/
theorem exec_dataTrace {i : Instr} {s t : State} (h : exec i s = .next t) :
    DataTrace (if (i.cond?.map (condPassed s.cpsr)).getD true then dataAccesses s i else []) s t := by
  cases i <;> dsimp only [exec] at h <;>
    simp only [Instr.cond?, dataAccesses, Option.map, Option.getD, ↓reduceIte]
  case armB => exact .of_armInstr_noAccess h (((NoAccess.refl s).setReg _ _).addCycles _)
  case armBl => exact .of_armInstr_noAccess h ((((NoAccess.refl s).setReg _ _).setReg _ _).addCycles _)
  case armBx => exact .of_armInstr_noAccess h (((NoAccess.refl s).branchExchange _).addCycles _)
  case armUndefMultiply | armUndefStoreSh10 | armUndefStoreSh11 | armUndefClass110 =>
    exact .of_armInstr_noAccess h ((NoAccess.refl s).addCycles _)
  case armAnd | armEor | armOrr | armMov | armBic | armMvn | armSub | armRsb | armAdd | armAdc | armSbc | armRsc =>
    exact .of_armInstr_noAccess h (.dpWrite ..)
  case armTst | armTeq | armCmp | armCmn => exact .of_armInstr_noAccess h (.dpCompare ..)
  case armMul | armMla => exact .of_armInstr_noAccess h (.mulWrite ..)
  case armUmull | armUmlal | armSmull | armSmlal => exact .of_armInstr_noAccess h (.mulLongWrite ..)
  case armMrsCpsr | armMrsSpsr => exact .of_armInstr_noAccess h (((NoAccess.refl s).setReg _ _).addCycles _)
  case armMsrCpsrReg | armMsrCpsrImm => exact .of_armInstr_noAccess h ((NoAccess.msrCpsr ..).addCycles _)
  case armMsrSpsrReg | armMsrSpsrImm => exact .of_armInstr_noAccess h ((NoAccess.msrSpsr ..).addCycles _)
  case armSwi => exact .of_armInstr_noAccess h ((NoAccess.raiseSwi s).addCycles _)
  case armLdr | armLdrb | armLdrh | armLdrsb | armLdrsh => exact .of_armInstr h (.armLoad ..)
  case armStr | armStrb | armStrh => exact .of_armInstr h (.armStore ..)
  case armSwp | armSwpb => exact .of_armInstr h (.armSwap ..)
  case armLdm => exact .of_armInstr h (.ldmEffect ..)
  case armStm => exact .of_armInstr h (.stmEffect ..)
  case thumbLslImm | thumbLsrImm | thumbAsrImm | thumbLslReg | thumbLsrReg | thumbAsrReg | thumbRorReg | thumbAddReg |
      thumbSubReg | thumbAddImm3 | thumbSubImm3 | thumbAddImm8 | thumbSubImm8 | thumbAdc | thumbSbc | thumbNeg |
      thumbMovImm8 | thumbAnd | thumbEor | thumbOrr | thumbBic | thumbMvn | thumbMul =>
    exact .of_next_noAccess h (.thumbWrite ..)
  case thumbTst | thumbCmpImm8 | thumbCmpReg | thumbCmn | thumbCmpHi => exact .of_next_noAccess h (.thumbCompare ..)
  case thumbAddHi | thumbMovHi | thumbAddRdPc | thumbAddRdSp | thumbAddSpImm | thumbSubSpImm | thumbB | thumbBlFirst =>
    exact .of_next_noAccess h (((NoAccess.refl s).setReg _ _).addCycles _)
  case thumbBlSecond => exact .of_next_noAccess h ((((NoAccess.refl s).setReg _ _).setReg _ _).addCycles _)
  case thumbBx => exact .of_next_noAccess h (((NoAccess.refl s).branchExchange _).addCycles _)
  case thumbBCond =>
    exact .of_next_noAccess h (.ite (((NoAccess.refl s).setReg _ _).addCycles _) ((NoAccess.refl s).addCycles _))
  case thumbSwi => exact .of_next_noAccess h ((NoAccess.raiseSwi s).addCycles _)
  case thumbUndef1011 | thumbUndef11101 => exact .of_next_noAccess h ((NoAccess.refl s).addCycles _)
  case thumbLdrPc | thumbLdrReg | thumbLdrbReg | thumbLdsb | thumbLdrhReg | thumbLdsh | thumbLdrImm | thumbLdrbImm |
      thumbLdrhImm | thumbLdrSp =>
    exact .of_next h (.thumbLoad ..)
  case thumbStrReg | thumbStrbReg | thumbStrhReg | thumbStrImm | thumbStrbImm | thumbStrhImm | thumbStrSp =>
    exact .of_next h (.thumbStore ..)
  case thumbPush => exact .of_unless_refused h (.pushEffect ..)
  case thumbPop => exact .of_unless_refused h (.popEffect ..)
  case thumbStmia => exact .of_unless_refused h (.stmiaEffect ..)
  case thumbLdmia => exact .of_unless_refused h (.ldmiaEffect ..)

/-- Settles O50: `exec_dataTrace` for the accesses; the bus laws by the first range that holds the address. -/
theorem dataAccessesOfEveryInstruction : Obligations.DataAccessesOfEveryInstruction := by
  unfold Obligations.DataAccessesOfEveryInstruction
  refine ⟨fun i s t h => ?_, fun s w addr v =>
    ⟨fun hb => ?_, fun r rest hb => ?_, fun hw => ?_, ?_, fun hr a ha => ?_⟩⟩
  · obtain ⟨l, hl, hlog⟩ := exec_dataTrace h
    exact ⟨l, hl, hlog.map_eq, hlog.aligned, fun n a hn ha => hlog.value hn ha⟩
  · simp [Bus.readHome, Bus.writeHome, hb, placeIn]
  · split
    · next h => exact Bus.homes_of_first_range hb h
    · next h => exact Bus.homes_of_later_range hb h
  · rw [State.busRead_store v hw, writeOf_value]
  · exact Bus.store_none v
  · rw [State.busRead_device w hr ha, writeOf_value]

end Sys2Proof.Machine
end

section
/-! PROOFS. The decoder and the encoder, and the condition table (30_encoding.md R151 to R164, R170, R171, R180 to R182). -/

namespace Sys2Proof

open Machine

variable {n m : Nat}

/-! ## Fields of a word laid out by `++`

The width of such a word is a sum of numerals, which the index of simp lemmas reads as a numeral: `no_index`. -/

@[simp] theorem bits_concat_low (a : BitVec n) (b : BitVec m) (lo len : Nat) (h : lo + len ≤ m) :
    bits (n := no_index (n + m)) (HAppend.hAppend (γ := BitVec (no_index (n + m))) a b) lo len = bits b lo len :=
  bits_append_low a b lo len h

@[simp] theorem bits_concat_high (a : BitVec n) (b : BitVec m) (lo len : Nat) (h : m ≤ lo) :
    bits (n := no_index (n + m)) (HAppend.hAppend (γ := BitVec (no_index (n + m))) a b) lo len = bits a (lo - m) len :=
  bits_append_high a b lo len h

@[simp] theorem getElem_concat_low (a : BitVec n) (b : BitVec m) (k : Nat) (hk : k < n + m) (h : k < m) :
    getElem (coll := BitVec (no_index (n + m))) (HAppend.hAppend (γ := BitVec (no_index (n + m))) a b) k hk = b[k] := by
  rw [BitVec.getElem_append, dif_pos h]

@[simp] theorem getElem_concat_high (a : BitVec n) (b : BitVec m) (k : Nat) (hk : k < n + m) (h : m ≤ k) :
    getElem (coll := BitVec (no_index (n + m))) (HAppend.hAppend (γ := BitVec (no_index (n + m))) a b) k hk = a[k - m] := by
  rw [BitVec.getElem_append, dif_neg (Nat.not_lt.2 h)]

/-- A vector is its high part above its low part. -/
theorem bits_append_bits (v : BitVec (n + m)) : bits v m n ++ bits v 0 m = v := by
  rw [BitVec.extractLsb'_append_extractLsb'_eq_extractLsb' (Nat.zero_add m).symm, BitVec.extractLsb'_eq_self]

/-! ## The tests of well-formedness on the fields of a word -/

/-- R153 line 7: none of the tests of lines 4 to 6. -/
theorem undefinedMultiplyOp_iff (w : Word) :
    undefinedMultiplyOp (bits w 20 5) = true ↔
      bits w 22 3 ≠ 0b000#3 ∧ bits w 23 2 ≠ 0b01#2 ∧ ¬ (bits w 23 2 = 0b10#2 ∧ bits w 20 2 = 0b00#2) := by
  simp [undefinedMultiplyOp, bits_bits, and_assoc, imp_iff_not_or]

/-- R170 line 15: none of the tests of lines 13 and 14. -/
theorem undefined1011_iff (h : Half) :
    undefined1011 (bits h 0 12) = true ↔ bits h 8 4 ≠ 0b0000#4 ∧ bits h 9 2 ≠ 0b10#2 := by
  simp [undefined1011, bits_bits]

theorem Cond.ofBits_ne_nv {b : BitVec 4} (h : b ≠ 0b1111#4) : Cond.ofBits b ≠ .nv := by
  revert b; decide

theorem Cond.toBits_ne_of_ne_nv {c : Cond} (h : c ≠ .nv) : c.toBits ≠ 0b1111#4 := by
  revert h
  cases c <;> decide

/-! ## ARM: decoding each format's encoding -/

theorem decodeArm_encodeBlock (c : Cond) (l : Bool) (a : BlockAddressing) (list : BitVec 16) :
    decodeArm (encodeBlock c l a list) = if l then .armLdm c a list else .armStm c a list := by
  simp [decodeArm, decodeBlock, encodeBlock, pack]

theorem decodeWordOffset_encodeSingle (c : Cond) (b l : Bool) (a : Addressing) (o : WordOffset) (rd : RegNum) :
    decodeWordOffset (encodeSingle c b l a o rd) = o := by
  cases o <;> simp [decodeWordOffset, encodeSingle, pack, WordOffset.cls, WordOffset.field]

theorem decodeArm_encodeSingle (c : Cond) (b l : Bool) (a : Addressing) (o : WordOffset) (rd : RegNum) :
    decodeArm (encodeSingle c b l a o rd) =
      if b then if l then .armLdrb c a o rd else .armStrb c a o rd
      else if l then .armLdr c a o rd else .armStr c a o rd := by
  have cls : bits (encodeSingle c b l a o rd) 25 3 = 0b010#3 ∨ bits (encodeSingle c b l a o rd) 25 3 = 0b011#3 := by
    cases o <;> simp [encodeSingle, pack, WordOffset.cls]
  rw [decodeArm_single cls, decodeSingle, decodeWordOffset_encodeSingle]
  simp [decodeAddressing, encodeSingle, pack]

theorem decodeHalfOffset_encodeHalf (c : Cond) (l : Bool) (sh : BitVec 2) (a : Addressing) (o : HalfOffset) (rd : RegNum) :
    decodeHalfOffset (encodeHalf c l sh a o rd) = o := by
  cases o with
  | imm8 value =>
    simpa [decodeHalfOffset, encodeHalf, pack, HalfOffset.immediate, HalfOffset.high, HalfOffset.low] using
      bits_append_bits (n := 4) (m := 4) value
  | reg rm => simp [decodeHalfOffset, encodeHalf, pack, HalfOffset.immediate, HalfOffset.low]

theorem decodeArm_encodeHalf (c : Cond) (l : Bool) {sh : BitVec 2} (a : Addressing) (o : HalfOffset) (rd : RegNum)
    (h : sh ≠ 0b00#2) : decodeArm (encodeHalf c l sh a o rd) = decodeHalfSpace c (encodeHalf c l sh a o rd) := by
  rw [decodeArm_half] <;> simp [encodeHalf, pack, h]

theorem decodeArm_encodeHalf_load (c : Cond) {sh : BitVec 2} (a : Addressing) (o : HalfOffset) (rd : RegNum)
    (h : sh ≠ 0b00#2) :
    decodeArm (encodeHalf c true sh a o rd) =
      if sh = 0b01#2 then .armLdrh c a o rd else if sh = 0b10#2 then .armLdrsb c a o rd else .armLdrsh c a o rd := by
  rw [decodeArm_encodeHalf c true a o rd h, decodeHalfSpace, decodeHalfOffset_encodeHalf]
  simp [decodeAddressing, encodeHalf, pack]

theorem decodeArm_encodeHalf_store (c : Cond) (a : Addressing) (o : HalfOffset) (rd : RegNum) :
    decodeArm (encodeHalf c false 0b01#2 a o rd) = .armStrh c a o rd := by
  rw [decodeArm_encodeHalf c false a o rd (by decide), decodeHalfSpace, decodeHalfOffset_encodeHalf]
  simp [decodeAddressing, encodeHalf, pack]

theorem decodeArm_encodeMultiply (c : Cond) (op : BitVec 4) (s : Bool) (hi lo rs rm : RegNum) (h : bits op 1 3 = 0b000#3) :
    decodeArm (encodeMultiply c op s hi lo rs rm) =
      if op.getLsbD 0 then .armMla c s hi lo rs rm else .armMul c s hi rs rm := by
  simp [decodeArm, decodeMultiplySpace, encodeMultiply, pack, h]

theorem decodeArm_encodeMultiply_long (c : Cond) (op : BitVec 4) (s : Bool) (hi lo rs rm : RegNum)
    (h : bits op 2 2 = 0b01#2) :
    decodeArm (encodeMultiply c op s hi lo rs rm) =
      if op.getLsbD 1 then if op.getLsbD 0 then .armSmlal c s hi lo rs rm else .armSmull c s hi lo rs rm
      else if op.getLsbD 0 then .armUmlal c s hi lo rs rm else .armUmull c s hi lo rs rm := by
  have short : bits op 1 3 ≠ 0b000#3 := bits_ne_of_bit 1 (by decide) (by rw [bit_of_bits h 0 (by decide)]; decide)
  simp [decodeArm, decodeMultiplySpace, encodeMultiply, pack, h, short]

theorem decodeArm_encodeSwap (c : Cond) (b : Bool) (rn rd rm : RegNum) :
    decodeArm (encodeSwap c b rn rd rm) = if b then .armSwpb c rn rd rm else .armSwp c rn rd rm := by
  have short : bits (encodeSwap c b rn rd rm) 22 3 ≠ 0b000#3 := bits_ne_of_bit 2 (by decide) (by simp [encodeSwap, pack])
  rw [decodeArm_mul (by simp [encodeSwap, pack]) (by simp [encodeSwap, pack]), decodeMultiplySpace, if_neg short]
  simp [encodeSwap, pack]

theorem decodeMultiplySpace_undefined (c : Cond) {w : Word} (h : undefinedMultiplyOp (bits w 20 5) = true) :
    decodeMultiplySpace c w = .armUndefMultiply c (bits w 20 5) (bits w 8 12) (bits w 0 4) := by
  obtain ⟨short, long, swap⟩ := (undefinedMultiplyOp_iff w).1 h
  rw [decodeMultiplySpace, if_neg short, if_neg long, if_neg swap]

theorem decodeArm_undefMultiply (c : Cond) (op : BitVec 5) (mid : BitVec 12) (low : BitVec 4)
    (h : undefinedMultiplyOp op = true) :
    decodeArm (pack (c.toBits ++ 0b000#3 ++ op ++ mid ++ 0b1001#4 ++ low)) = .armUndefMultiply c op mid low := by
  rw [decodeArm_mul, decodeMultiplySpace_undefined] <;> simp [pack, h]

theorem decodeArm_encodeMrs (c : Cond) (r : Bool) (rd : RegNum) :
    decodeArm (encodeMrs c r rd) = if r then .armMrsSpsr c rd else .armMrsCpsr c rd := by
  rw [decodeArm_psr] <;> simp [decodePsr, encodeMrs, pack]

theorem decodeArm_encodeMsrReg (c : Cond) (r : Bool) (mask : BitVec 4) (rm : RegNum) :
    decodeArm (encodeMsrReg c r mask rm) = if r then .armMsrSpsrReg c mask rm else .armMsrCpsrReg c mask rm := by
  rw [decodeArm_psr] <;> simp [decodePsr, encodeMsrReg, pack]

theorem decodeArm_encodeMsrImm (c : Cond) (r : Bool) (mask rot4 : BitVec 4) (imm8 : BitVec 8) :
    decodeArm (encodeMsrImm c r mask rot4 imm8) =
      if r then .armMsrSpsrImm c mask rot4 imm8 else .armMsrCpsrImm c mask rot4 imm8 := by
  rw [decodeArm_psr] <;> simp [decodePsr, encodeMsrImm, pack]

theorem decodeOperand2_encodeDataProcessing (c : Cond) (op : BitVec 4) (s : Bool) (rn rd : RegNum) (o : Operand2) :
    decodeOperand2 (encodeDataProcessing c op s rn rd o) = o := by
  cases o <;> simp [decodeOperand2, encodeDataProcessing, pack, Operand2.cls, Operand2.field]

/-- Opcodes 8 to 11 without S are the PSR transfers, so the encoder of a comparison sets S (R153 lines 10 to 12). -/
theorem decodeArm_encodeDataProcessing (c : Cond) (op : BitVec 4) (s : Bool) (rn rd : RegNum) (o : Operand2)
    (h : bits op 2 2 ≠ 0b10#2 ∨ s = true) :
    decodeArm (encodeDataProcessing c op s rn rd o) = decodeDataProcessing c (encodeDataProcessing c op s rn rd o) := by
  rw [decodeArm_dp]
  · simp [encodeDataProcessing, pack]
  · cases o <;> simp [encodeDataProcessing, pack, Operand2.cls]
  · cases o <;> simp [encodeDataProcessing, pack, Operand2.cls, Operand2.field]
  · simpa [encodeDataProcessing, pack] using h

theorem not_bx_of_bit27 {w : Word} (h : w.getLsbD 27 = true) : bits w 4 24 ≠ 0x12FFF1#24 :=
  bits_ne_of_bit 23 (by decide) (by rw [h]; decide)

theorem decodeArm_undefClass110 {w : Word} (h : bits w 25 3 = 0b110#3) :
    decodeArm w = .armUndefClass110 (.ofBits (bits w 28 4)) (bits w 0 25) := by
  simp [decodeArm, h, not_bx_of_bit27 (bit_of_bits h 2 (by decide))]

theorem decodeArm_swi {w : Word} (h : bits w 25 3 = 0b111#3) :
    decodeArm w = .armSwi (.ofBits (bits w 28 4)) (bits w 0 25) := by
  simp [decodeArm, h, not_bx_of_bit27 (bit_of_bits h 2 (by decide))]

/-! ## Thumb -/

theorem decodeThumb_encodeThumbAlu (op : BitVec 4) (rs rd : LowReg) :
    decodeThumb (encodeThumbAlu op rs rd) = decodeThumbAlu (encodeThumbAlu op rs rd) := by
  simp [decodeThumb, encodeThumbAlu, pack, bits]

theorem decodeThumb_encodeThumbHi (op : BitVec 2) (rs rd : RegNum) :
    decodeThumb (encodeThumbHi op rs rd) = decodeThumbHi (encodeThumbHi op rs rd) := by
  simp [decodeThumb, encodeThumbHi, pack, bits]

/-- The lines of R170 that test bits 15..12: either value of bit 11. -/
theorem top5_of_top4 {h : Half} {p : BitVec 4} (e : bits h 12 4 = p) :
    bits h 11 5 = p ++ 0#1 ∨ bits h 11 5 = p ++ 1#1 := by
  have join : bits h 12 4 ++ bits h 11 1 = bits h 11 5 := BitVec.extractLsb'_append_extractLsb'_eq_extractLsb' rfl
  rw [← join, e]
  exact (BitVec.eq_zero_or_eq_one (bits h 11 1)).imp (fun z => by rw [z]) (fun o => by rw [o])

theorem decodeThumb_regOffset {h : Half} (e : bits h 12 4 = 0b0101#4) : decodeThumb h = decodeThumbRegOffset h := by
  rcases top5_of_top4 e with p | p <;> rw [decodeThumb, p] <;> rfl

theorem decodeThumb_top1011 {h : Half} (e : bits h 12 4 = 0b1011#4) : decodeThumb h = decodeThumb1011 h := by
  rcases top5_of_top4 e with p | p <;> rw [decodeThumb, p] <;> rfl

theorem decodeThumb_bCond {h : Half} (e : bits h 12 4 = 0b1101#4) (hc : bits h 8 4 ≠ 0b1111#4) :
    decodeThumb h = .thumbBCond (.ofBits (bits h 8 4)) (bits h 0 8) := by
  rcases top5_of_top4 e with p | p
  · rw [decodeThumb, p]; rfl
  · rw [decodeThumb, p]; exact if_neg hc

theorem decodeThumb1011_stack {h : Half} (e : bits h 9 2 = 0b10#2) :
    decodeThumb1011 h =
      if h.getLsbD 11 then .thumbPop (h.getLsbD 8) (bits h 0 8) else .thumbPush (h.getLsbD 8) (bits h 0 8) := by
  have sp : bits h 8 4 ≠ 0b0000#4 := bits_ne_of_bit 2 (by decide) (by rw [bit_of_bits e 1 (by decide)]; decide)
  rw [decodeThumb1011, if_neg sp, if_pos e]

theorem decodeThumb1011_undefined {h : Half} (e : undefined1011 (bits h 0 12) = true) :
    decodeThumb1011 h = .thumbUndef1011 (bits h 0 12) := by
  obtain ⟨sp, stack⟩ := (undefined1011_iff h).1 e
  rw [decodeThumb1011, if_neg sp, if_neg stack]

/-! ## Decoding every instruction's encoding -/

/-- Three constructors need their well-formedness: two undefined encodings and the condition of format 16. -/
theorem decode_encode {i : Instr} (h : i.wellFormed = true) : decode (encode i) = i := by
  cases i <;> dsimp only [encode, decode]
  case armB | armBl => simp [decodeArm, decodeBranch, pack]
  case armStm | armLdm => simp [decodeArm_encodeBlock]
  case armStr | armLdr | armStrb | armLdrb => simp [decodeArm_encodeSingle]
  case armMul | armMla => simp [decodeArm_encodeMultiply, bits]
  case armUmull | armUmlal | armSmull | armSmlal => simp [decodeArm_encodeMultiply_long, bits]
  case armSwp | armSwpb => simp [decodeArm_encodeSwap]
  case armUndefMultiply c op mid low => exact decodeArm_undefMultiply c op mid low h
  case armStrh => exact decodeArm_encodeHalf_store ..
  case armLdrh | armLdrsb | armLdrsh => simp [decodeArm_encodeHalf_load]
  case armUndefStoreSh10 | armUndefStoreSh11 => simp [decodeArm, decodeHalfSpace, pack, bits]
  case armBx => simp [decodeArm, pack, bits]
  case armMrsCpsr | armMrsSpsr => simp [decodeArm_encodeMrs]
  case armMsrCpsrReg | armMsrSpsrReg => simp [decodeArm_encodeMsrReg]
  case armMsrCpsrImm | armMsrSpsrImm => simp [decodeArm_encodeMsrImm]
  case armAnd | armEor | armSub | armRsb | armAdd | armAdc | armSbc | armRsc | armTst | armTeq | armCmp | armCmn |
      armOrr | armMov | armBic | armMvn =>
    rw [decodeArm_encodeDataProcessing _ _ _ _ _ _ (by simp [bits]), decodeDataProcessing,
      decodeOperand2_encodeDataProcessing]
    simp [encodeDataProcessing, pack]
  case armUndefClass110 => rw [decodeArm_undefClass110] <;> simp [pack]
  case armSwi => rw [decodeArm_swi] <;> simp [pack]
  case thumbLslImm | thumbLsrImm | thumbAsrImm | thumbStrImm | thumbLdrImm | thumbStrbImm | thumbLdrbImm |
      thumbStrhImm | thumbLdrhImm =>
    simp [decodeThumb, encodeThumb5533, pack]
  case thumbAddReg | thumbSubReg | thumbAddImm3 | thumbSubImm3 => simp [decodeThumb, encodeThumb7333, pack]
  case thumbMovImm8 | thumbCmpImm8 | thumbAddImm8 | thumbSubImm8 | thumbLdrPc | thumbStrSp | thumbLdrSp |
      thumbAddRdPc | thumbAddRdSp | thumbStmia | thumbLdmia =>
    simp [decodeThumb, encodeThumb538, pack]
  case thumbAnd | thumbEor | thumbLslReg | thumbLsrReg | thumbAsrReg | thumbAdc | thumbSbc | thumbRorReg | thumbTst |
      thumbNeg | thumbCmpReg | thumbCmn | thumbOrr | thumbMul | thumbBic | thumbMvn =>
    rw [decodeThumb_encodeThumbAlu]
    simp [decodeThumbAlu, encodeThumbAlu, pack]
  case thumbAddHi rs rd | thumbCmpHi rs rd | thumbMovHi rs rd =>
    rw [decodeThumb_encodeThumbHi]
    simpa [decodeThumbHi, encodeThumbHi, pack] using
      And.intro (bits_append_bits (n := 1) (m := 3) rs) (bits_append_bits (n := 1) (m := 3) rd)
  case thumbBx rs =>
    rw [decodeThumb_encodeThumbHi]
    simpa [decodeThumbHi, encodeThumbHi, pack] using bits_append_bits (n := 1) (m := 3) rs
  case thumbStrReg | thumbStrbReg | thumbLdrReg | thumbLdrbReg | thumbStrhReg | thumbLdsb | thumbLdrhReg | thumbLdsh =>
    rw [decodeThumb_regOffset] <;> simp [decodeThumbRegOffset, encodeThumb7333, pack, bits]
  case thumbAddSpImm | thumbSubSpImm => simp [decodeThumb, decodeThumb1011, pack, bits]
  case thumbPush | thumbPop => rw [decodeThumb_top1011, decodeThumb1011_stack] <;> simp [pack, bits]
  case thumbUndef1011 rest =>
    have undef : undefined1011 rest = true := h
    rw [decodeThumb_top1011, decodeThumb1011_undefined] <;> simp [pack, undef]
  case thumbBCond c o =>
    have hc : c ≠ .nv := by simpa [Instr.wellFormed] using h
    rw [decodeThumb_bCond] <;> simp [pack, Cond.toBits_ne_of_ne_nv hc]
  case thumbSwi | thumbB | thumbUndef11101 | thumbBlFirst | thumbBlSecond => simp [decodeThumb, pack, bits]

/-- Settles O54: the formats' lemmas, one case per constructor. -/
theorem decodeOfEncode : Obligations.DecodeOfEncode := by
  unfold Obligations.DecodeOfEncode
  exact fun _ => decode_encode

/-! ## Every word and halfword decodes to a well-formed instruction -/

theorem decodeMultiplySpace_wellFormed (c : Cond) (w : Word) : (decodeMultiplySpace c w).wellFormed = true := by
  unfold decodeMultiplySpace
  dsimp only
  split_ifs with short _ long _ _ _ swap
  any_goals rfl
  exact (undefinedMultiplyOp_iff w).2 ⟨short, long, swap⟩

theorem decodeArm_wellFormed (w : Word) : (decodeArm w).wellFormed = true := by
  unfold decodeArm
  dsimp only
  split_ifs
  · unfold decodeBranch; split_ifs <;> rfl
  · unfold decodeBlock; dsimp only; split_ifs <;> rfl
  · unfold decodeSingle; dsimp only; split_ifs <;> rfl
  · exact decodeMultiplySpace_wellFormed ..
  · unfold decodeHalfSpace; dsimp only; split_ifs <;> rfl
  · rfl
  · unfold decodePsr; split_ifs <;> rfl
  · unfold decodeDataProcessing; dsimp only; split <;> rfl
  · rfl
  · rfl

theorem decodeThumb1011_wellFormed (h : Half) : (decodeThumb1011 h).wellFormed = true := by
  unfold decodeThumb1011
  split_ifs with sp _ stack
  any_goals rfl
  exact (undefined1011_iff h).2 ⟨sp, stack⟩

/-- The condition of format 16 is not 0xF: with bit 11 clear it is below 8, with bit 11 set the decoder tests it (R181). -/
theorem decodeThumb_wellFormed (h : Half) : (decodeThumb h).wellFormed = true := by
  unfold decodeThumb
  dsimp only
  split
  case h_1 => split <;> rfl
  case h_9 =>
    split_ifs
    · unfold decodeThumbHi; dsimp only; split <;> rfl
    · unfold decodeThumbAlu; dsimp only; split <;> rfl
  case h_11 | h_12 => unfold decodeThumbRegOffset; dsimp only; split <;> rfl
  case h_23 | h_24 => exact decodeThumb1011_wellFormed h
  case h_27 top5 =>
    have p : bits h 11 5 = 0b11010#5 := BitVec.eq_of_toNat_eq top5
    have hc : bits h 8 4 ≠ 0b1111#4 := bits_ne_of_bit 3 (by decide) (by rw [bit_of_bits p 0 (by decide)]; decide)
    exact bne_iff_ne.2 (Cond.ofBits_ne_nv hc)
  case h_28 =>
    split_ifs with swi
    · rfl
    · exact bne_iff_ne.2 (Cond.ofBits_ne_nv swi)
  all_goals rfl

/-- Settles O55: branch by branch of the two decoders, the tests of R153 and R170 give the well-formedness. -/
theorem decodedInstructionsAreWellFormed : Obligations.DecodedInstructionsAreWellFormed := by
  unfold Obligations.DecodedInstructionsAreWellFormed
  intro w
  cases w with
  | arm w => exact decodeArm_wellFormed w
  | thumb h => exact decodeThumb_wellFormed h

/-! ## Single words and the conditions -/

/-- Settles O4: each word is closed, so the decoder computes its instruction. -/
theorem writtenOutWordsDecode : Obligations.WrittenOutWordsDecode := by
  unfold Obligations.WrittenOutWordsDecode
  decide

/-- Settles O9: each row, on the bits of the four flags, is a fact about two or three Booleans. -/
theorem conditionTable : Obligations.ConditionTable := by
  unfold Obligations.ConditionTable
  intro p
  simp [condPassed, Psr.n, Psr.z, Psr.c, Psr.v]

end Sys2Proof
end


section
/-! PROOFS. The step and the failed condition (40_core_primitives.md R230, R231; 60_exceptions.md R730). -/

namespace Sys2Proof.Machine

open Claims

/-! ## A failed condition -/

/-- Settles O10: an ARM instruction is its effect behind its condition. -/
theorem failedConditionOnlyCountsOneCycle : Obligations.FailedConditionOnlyCountsOneCycle := by
  unfold Obligations.FailedConditionOnlyCountsOneCycle
  intro i c s hi hc
  obtain ⟨f, hf⟩ := exec_conditional hi
  rw [hf, armInstr_failed f hc]
  rfl

/-! ## The step -/

/-- The fetch writes no register but the PC. -/
theorem State.fetch_readPhys_of_ne (s : State) {p : PhysReg} (h : p ≠ .pc) : s.fetch.2.readPhys p = s.readPhys p := by
  rw [State.fetch_readPhys, if_neg h]

/-- Settles O3: `step_halted`, and `step_running` with what the fetch leaves, in each state of T. -/
theorem stepRunsTheDecodedInstruction : Obligations.StepRunsTheDecodedInstruction := by
  unfold Obligations.StepRunsTheDecodedInstruction
  refine ⟨fun s h => ⟨step_halted h, by simp [returnedCount, h]⟩, fun s w i hrun => ⟨?arm, ?thumb⟩⟩
  case arm | thumb =>
    rintro ht rfl rfl
    refine ⟨s.fetch.2, ?_, ?_⟩
    · rw [step_running hrun, State.fetch_fst, ht]
      rfl
    · simp +contextual [ht, fetchWidth, fetchStep, wordAt, halfAt, readRecord, readOf, State.fetch_readPhys_of_ne]

end Sys2Proof.Machine
end


section
/-! PROOFS. The barrel shifter and the ALU primitives (40_core_primitives.md R240 to R249). -/

namespace Sys2Proof.Machine

/-! ## The barrel shifter -/

section

variable {n : Nat}

theorem lslC_inRange (v : Word) (c imm : Bool) (h1 : 1 ≤ n) (h31 : n ≤ 31) :
    lslC v n c imm = ⟨v <<< n, v.getLsbD (32 - n)⟩ := by
  rw [lslC, if_neg (by omega), if_pos h31]

theorem lsrC_inRange (v : Word) (c imm : Bool) (h1 : 1 ≤ n) (h31 : n ≤ 31) :
    lsrC v n c imm = ⟨v >>> n, v.getLsbD (n - 1)⟩ := by
  rw [lsrC, if_neg (by omega), if_pos h31]

theorem asrC_inRange (v : Word) (c imm : Bool) (h1 : 1 ≤ n) (h31 : n ≤ 31) :
    asrC v n c imm = ⟨v.sshiftRight n, v.getLsbD (n - 1)⟩ := by
  rw [asrC, if_neg (by omega), if_neg (by omega)]

theorem rorC_inRange (v : Word) (c imm : Bool) (h1 : 1 ≤ n) (h31 : n ≤ 31) :
    rorC v n c imm = ⟨v.rotateRight n, v.getLsbD (n - 1)⟩ := by
  have hmod : n % 32 = n := Nat.mod_eq_of_lt (by omega)
  rw [rorC, if_neg (by omega), hmod, if_neg (by omega), ror32]

theorem lslC_of_gt (v : Word) (c imm : Bool) (h : 32 < n) : lslC v n c imm = ⟨0#32, false⟩ := by
  rw [lslC, if_neg (by omega), if_neg (by omega), if_neg (by omega)]

theorem lsrC_of_gt (v : Word) (c imm : Bool) (h : 32 < n) : lsrC v n c imm = ⟨0#32, false⟩ := by
  rw [lsrC, if_neg (by omega), if_neg (by omega), if_neg (by omega)]

/-- A rotation right takes bit `k` from bit `k + n`, counted around the word. -/
theorem getLsbD_rotateRight_word (v : Word) {k : Nat} (hn : n < 32) (hk : k < 32) :
    (v.rotateRight n).getLsbD k = v.getLsbD ((k + n) % 32) := by
  rw [BitVec.getLsbD_rotateRight, Nat.mod_eq_of_lt hn]
  by_cases h : k < 32 - n
  · rw [decide_eq_true h, cond_true, Nat.mod_eq_of_lt (by omega), Nat.add_comm]
  · rw [decide_eq_false h, cond_false, decide_eq_true hk, Bool.true_and, show (k + n) % 32 = k - (32 - n) by omega]

/-- An arithmetic shift right takes bit `k` from bit `k + n`, and the sign above the word. -/
theorem getLsbD_sshiftRight_word (v : Word) {k : Nat} (hk : k < 32) :
    (v.sshiftRight n).getLsbD k = if k + n < 32 then v.getLsbD (k + n) else v.getLsbD 31 := by
  rw [BitVec.getLsbD_sshiftRight, decide_eq_false (by omega), Nat.add_comm n k]
  simp [BitVec.msb_eq_getLsbD_last]

end

/-- RRX: the carry above the upper 31 bits (R243). -/
theorem rrx_eq (v : Word) (c : Bool) :
    (BitVec.ofBool c).setWidth 32 <<< 31 ||| v >>> 1 = pack (BitVec.ofBool c ++ bits v 1 31) := by
  apply BitVec.eq_of_getLsbD_eq
  intro k hk
  rw [bit_pack, BitVec.getLsbD_append, getLsbD_bits]
  by_cases h : k < 31
  · simp [h, Nat.add_comm]
  · obtain rfl : k = 31 := by omega
    simp

/-- Settles O11: each law is a branch of the shift it is about, RRX apart, which is compared bit by bit. -/
theorem shifterLaws : Obligations.ShifterLaws := by
  unfold Obligations.ShifterLaws
  intro v c imm
  refine ⟨rfl, rfl, rfl, ?rrx, rfl, rfl, rfl, fun n h => ⟨lslC_of_gt v c imm h, lsrC_of_gt v c imm h⟩,
    fun k hk => ?multiple⟩
  case rrx => rw [← rrx_eq]; rfl
  case multiple => rw [rorC, if_neg (by omega), if_pos (Nat.mul_mod_right 32 k)]

/-- Settles O12: inside the range each shift is the shift of bit vectors, whose bits the library gives. -/
theorem shiftsMoveBits : Obligations.ShiftsMoveBits := by
  unfold Obligations.ShiftsMoveBits
  intro v n c imm h1 h31
  rw [lslC_inRange v c imm h1 h31, lsrC_inRange v c imm h1 h31, asrC_inRange v c imm h1 h31,
    rorC_inRange v c imm h1 h31]
  refine ⟨fun k hk => ?lsl, fun k hk => ?lsr, fun k hk => getLsbD_sshiftRight_word v hk,
    fun k hk => getLsbD_rotateRight_word v (by omega) hk, rfl, rfl, rfl, rfl⟩
  case lsl =>
    rw [BitVec.getLsbD_shiftLeft, decide_eq_true hk, Bool.true_and, ← decide_not, decide_eq_decide.2 Nat.not_lt]
  case lsr =>
    rw [BitVec.getLsbD_ushiftRight, Nat.add_comm n k]
    by_cases h : k + n < 32
    · simp [h]
    · simp [h, BitVec.getLsbD_of_ge v (k + n) (by omega)]

/-! ## The ALU -/

theorem addWithCarry_value_toNat (a b : Word) (cin : Bool) :
    (addWithCarry a b cin).value.toNat = (a.toNat + b.toNat + cin.toNat) % 2 ^ 32 := BitVec.toNat_ofNat _ _

theorem addWithCarry_carry_iff (a b : Word) (cin : Bool) :
    (addWithCarry a b cin).carry = true ↔ a.toNat + b.toNat + cin.toNat > 2 ^ 32 - 1 := decide_eq_true_iff

theorem addWithCarry_overflow (a b : Word) (cin : Bool) :
    (addWithCarry a b cin).overflow = (a.msb == b.msb && (addWithCarry a b cin).value.msb != a.msb) := rfl

/-- Operands of one sign and a sum of the other: the exact signed sum is out of range. -/
theorem addWithCarry_overflow_iff (a b : Word) (cin : Bool) :
    (addWithCarry a b cin).overflow = true ↔
      a.toInt + b.toInt + cin.toNat < -2 ^ 31 ∨ a.toInt + b.toInt + cin.toNat > 2 ^ 31 - 1 := by
  have ha := a.isLt
  have hb := b.isLt
  have hcin := cin.toNat_le
  simp only [addWithCarry_overflow, BitVec.msb_eq_decide, addWithCarry_value_toNat, BitVec.toInt_eq_toNat_cond,
    Bool.and_eq_true, beq_iff_eq, bne_iff_ne, ne_eq, decide_eq_decide]
  split <;> split <;> omega

theorem addWithCarry_zero (a : Word) : addWithCarry a 0#32 false = ⟨a, false, false⟩ := by
  have hcarry : ¬ a.toNat > 0xFFFFFFFF := by omega
  simp [addWithCarry, Nat.not_lt.1 hcarry]

theorem subWithBorrow_zero (a : Word) : subWithBorrow a 0#32 true = ⟨a, true, false⟩ := by
  simp [subWithBorrow]

theorem toInt_complement (b : Word) : (~~~b).toInt = -1 - b.toInt := by
  have hb := b.isLt
  rw [BitVec.toInt_eq_toNat_cond, BitVec.toInt_eq_toNat_cond, BitVec.toNat_not]
  split <;> split <;> omega

/-- The difference is the sum with the complement, the borrow taken back as carry. -/
theorem sub_borrow_eq_add_complement (a b : Word) (cin : Bool) :
    a - b - BitVec.ofNat 32 (1 - cin.toNat) = BitVec.ofNat 32 (a.toNat + (~~~b).toNat + cin.toNat) := by
  have hb := b.isLt
  apply BitVec.eq_of_toNat_eq
  simp only [BitVec.toNat_sub, BitVec.toNat_not, BitVec.toNat_ofNat]
  cases cin <;> simp only [Bool.toNat_false, Bool.toNat_true] <;> omega

/-- No borrow exactly where the sum with the complement carries. -/
theorem no_borrow_eq_carry (a b : Word) (cin : Bool) :
    (if cin then decide (a.toNat ≥ b.toNat) else decide (a.toNat > b.toNat)) =
      decide (a.toNat + (~~~b).toNat + cin.toNat > 0xFFFFFFFF) := by
  have hb := b.isLt
  rw [BitVec.toNat_not]
  cases cin with
  | false => exact decide_eq_decide.2 (by simp only [Bool.toNat_false]; omega)
  | true => exact decide_eq_decide.2 (by simp only [Bool.toNat_true]; omega)

theorem subWithBorrow_eq_addWithCarry (a b : Word) (cin : Bool) :
    subWithBorrow a b cin = addWithCarry a (~~~b) cin := by
  have hmsb : (~~~b).msb = !b.msb := by simp
  simp only [subWithBorrow, addWithCarry, sub_borrow_eq_add_complement, no_borrow_eq_carry, hmsb]
  cases a.msb <;> cases b.msb <;> simp

/-- Settles O13: the laws of addition, and those of subtraction as addition of the complement, which is -1 - b. -/
theorem aluLaws : Obligations.AluLaws := by
  unfold Obligations.AluLaws
  intro a b cin
  refine ⟨subWithBorrow_eq_addWithCarry a b cin, subWithBorrow_zero a, addWithCarry_zero a,
    addWithCarry_value_toNat a b cin, addWithCarry_carry_iff a b cin, addWithCarry_overflow_iff a b cin, ?_⟩
  rw [subWithBorrow_eq_addWithCarry, addWithCarry_value_toNat, addWithCarry_carry_iff, addWithCarry_overflow_iff,
    BitVec.toNat_not, toInt_complement]
  have hb := b.isLt
  have hcin := cin.toNat_le
  exact ⟨by omega, by omega, by omega⟩

end Sys2Proof.Machine
end


section
/-! PROOFS. Every instruction but the four refused empty lists completes, after one cycle or more (40_core_primitives.md
R232; 47_thumb_load_store.md R586; 70_reset_and_hazards.md R820, R821). -/

namespace Sys2Proof.Machine

/-! ## The entry into SWI -/

@[simp] theorem State.raiseSwi_halted (s : State) : s.raiseSwi.halted = s.halted := by
  simp [State.raiseSwi, State.takeException_eq]
@[simp] theorem State.raiseSwi_stopped (s : State) : s.raiseSwi.stopped = s.stopped := by
  simp [State.raiseSwi, State.takeException_eq]
@[simp] theorem State.raiseSwi_currentPc (s : State) : s.raiseSwi.currentPc = s.currentPc := by
  simp [State.raiseSwi, State.takeException_eq]
@[simp] theorem State.raiseSwi_currentInstruction (s : State) :
    s.raiseSwi.currentInstruction = s.currentInstruction := by
  simp [State.raiseSwi, State.takeException_eq]
@[simp] theorem State.raiseSwi_bus (s : State) : s.raiseSwi.bus = s.bus := by
  simp [State.raiseSwi, State.takeException_eq]
@[simp] theorem State.raiseSwi_cycles (s : State) : s.raiseSwi.cycles = s.cycles := by
  simp [State.raiseSwi, State.takeException_eq]

/-! ## Lists that are not refused -/

theorem listCount_ne_zero {list : BitVec 8} (h : (list == 0#8) = false) : listCount list ≠ 0 :=
  mt (listCount_eq_zero list).1 (beq_eq_false_iff_ne.1 h)

theorem stackCount_ne_zero {extra : Bool} {list : BitVec 8} (h : (!extra && list == 0#8) = false) :
    stackCount extra list ≠ 0 := by
  cases extra with
  | false => exact listCount_ne_zero h
  | true => exact Nat.succ_ne_zero _

/-! ## What is kept of the environment and the fetch -/

theorem Kept.environment {s t : State} (h : Kept s t) : t.halted = s.halted ∧ t.stopped = s.stopped ∧
    t.currentPc = s.currentPc ∧ t.currentInstruction = s.currentInstruction ∧ t.bus = s.bus :=
  ⟨h.halted, h.stopped, h.currentPc, h.currentInstruction, h.bus⟩

/-! ## Cycles -/

/-- From `s` to `t` at least one cycle was counted. -/
def Counts (s t : State) : Prop := s.cycles < t.cycles

namespace Counts

variable {s t : State} {n : Nat}

/-- A positive count added at the end, where what came before took no cycle back. -/
theorem addCycles (h : s.cycles ≤ t.cycles) (hn : 0 < n) : Counts s (t.addCycles n) := by
  rw [Counts, State.addCycles_cycles]
  omega

theorem of_invKept (h : InvKept s t) (hn : 0 < n) : Counts s (t.addCycles n) := addCycles h.kept.cycles hn

theorem ite {u : State} {c : Prop} [Decidable c] (ht : Counts s t) (hu : Counts s u) :
    Counts s (if c then t else u) := by
  split
  · exact ht
  · exact hu

/-! ### The shared ends of instructions -/

theorem dpWrite (sf : Bool) (rd : RegNum) (o : DpOutcome) (s : State) : Counts s (dpWrite sf rd o s) := by
  by_cases hrd : rd = 15#4
  · subst hrd
    rw [dpWrite_15]
    refine addCycles ?_ (by decide)
    cases sf
    · simp
    · simp [State.restoreCpsr_eq]
  · rw [dpWrite_of_ne sf o s hrd]
    exact addCycles (by simp) (by decide)

theorem dpCompare (o : DpOutcome) (s : State) : Counts s (dpCompare o s) := addCycles (Nat.le_refl _) (by decide)

theorem mulWrite (sf : Bool) (rd : RegNum) (v : Word) (s : State) : Counts s (mulWrite sf rd v s) :=
  addCycles (by simp) (by decide)

theorem mulLongWrite (sf : Bool) (hi lo : RegNum) (v : BitVec 64) (s : State) : Counts s (mulLongWrite sf hi lo v s) :=
  addCycles (by simp) (by decide)

theorem armLoad (k : LoadKind) (a : Addressing) (o : Word) (rd : RegNum) (s : State) : Counts s (armLoad k a o rd s) :=
  of_invKept (((InvKept.loadValue s k _).baseWriteBack a _).setReg rd _) (by split <;> decide)

theorem armStore (w : Width) (a : Addressing) (o : Word) (rd : RegNum) (s : State) : Counts s (armStore w a o rd s) :=
  of_invKept (((InvKept.refl s).memWrite w _ _).baseWriteBack a _) (by decide)

theorem armSwap (w : Width) (k : LoadKind) (rn rd rm : RegNum) (s : State) : Counts s (armSwap w k rn rd rm s) :=
  of_invKept (((InvKept.loadValue s k _).memWrite w _ _).setReg rd _) (by decide)

theorem thumbLoad (k : LoadKind) (a : Word) (rd : LowReg) (s : State) : Counts s (thumbLoad k a rd s) :=
  of_invKept ((InvKept.loadValue s k a).setReg (lowReg rd) _) (by decide)

theorem thumbStore (w : Width) (a : Word) (rd : LowReg) (s : State) : Counts s (thumbStore w a rd s) :=
  of_invKept ((InvKept.refl s).memWrite w a _) (by decide)

theorem thumbWrite (rd : LowReg) (v : Word) (p : Psr) (hn : 0 < n) (s : State) : Counts s (thumbWrite rd v p n s) :=
  addCycles (by simp) hn

theorem thumbCompare (p : Psr) (s : State) : Counts s (thumbCompare p s) := addCycles (Nat.le_refl _) (by decide)

/-! ### Blocks of words -/

theorem ldmEffect (a : BlockAddressing) (list : BitVec 16) (s : State) : Counts s (ldmEffect a list s) :=
  have hback := (InvKept.readBlock (blockRegs list) (blockStart s a list) s).ldmWriteBack a list (blockFinal s a list)
  of_invKept ((hback.trans (.writeRegs (.ldmWrite a list) _ _)).ldmLoadPc a _) (by omega)

theorem stmEffect (a : BlockAddressing) (list : BitVec 16) (s : State) : Counts s (stmEffect a list s) :=
  have hwrite := InvKept.writeBlock (stmValue s a list) (blockRegs list) (blockStart s a list) s
  of_invKept (.ite (hwrite.setReg a.rn _) hwrite) (by omega)

theorem pushEffect (lr : Bool) (list : BitVec 8) (s : State) : Counts s (pushEffect lr list s) :=
  of_invKept ((InvKept.writeBlock s.reg (pushRegs lr list) _ s).setReg 13#4 _) (by decide)

theorem popEffect (pc : Bool) (list : BitVec 8) (s : State) : Counts s (popEffect pc list s) :=
  have hload := InvKept.loadRegs (listRegs list) (s.reg 13#4) s
  of_invKept ((InvKept.ite ((hload.trans (.memRead _ .word _)).branchExchange _) hload).setReg 13#4 _) (by decide)

theorem stmiaEffect (rb : LowReg) (list : BitVec 8) (s : State) : Counts s (stmiaEffect rb list s) :=
  of_invKept ((InvKept.writeBlock (stmiaValue s rb list) (listRegs list) _ s).setReg (lowReg rb) _) (by decide)

theorem ldmiaEffect (rb : LowReg) (list : BitVec 8) (s : State) : Counts s (ldmiaEffect rb list s) :=
  have hload := InvKept.loadRegs (listRegs list) (s.reg (lowReg rb)) s
  of_invKept (.ite hload (hload.setReg (lowReg rb) _)) (by decide)

end Counts

/-! ## How a meaning completes -/

/-- A meaning answers a next state and counts at least one cycle (R232). -/
def Completes (s : State) (r : Result State) : Prop := ∃ t, r = .next t ∧ Counts s t

namespace Completes

variable {s t : State}

theorem next (h : Counts s t) : Completes s (.next t) := ⟨t, rfl, h⟩

theorem armInstr {c : Cond} {f : State → State} (h : Counts s (f s)) : Completes s (armInstr c f s) :=
  next (.ite h (.addCycles (Nat.le_refl _) (by decide)))

theorem unless_refused {c : Prop} [Decidable c] {r : Refusal} (hc : ¬ c) (h : Counts s t) :
    Completes s (if c then .refused r else .next t) := by
  rw [if_neg hc]
  exact next h

end Completes

/-! ## One instruction -/

/-- No instruction faults and only the four empty Thumb lists are refused (R232, R586, R704). -/
theorem exec_completes {i : Instr} (hi : i.emptyThumbList = false) (s : State) : Completes s (exec i s) := by
  cases i <;> dsimp only [exec]
  case armB | armMrsCpsr | armMrsSpsr =>
    exact .armInstr (.of_invKept ((InvKept.refl s).setReg _ _) (by decide))
  case armBl => exact .armInstr (.of_invKept (((InvKept.refl s).setReg _ _).setReg _ _) (by decide))
  case armBx => exact .armInstr (.of_invKept ((InvKept.refl s).branchExchange _) (by decide))
  case armUndefMultiply | armUndefStoreSh10 | armUndefStoreSh11 | armUndefClass110 =>
    exact .armInstr (.addCycles (Nat.le_refl _) (by decide))
  case armAnd | armEor | armOrr | armMov | armBic | armMvn | armSub | armRsb | armAdd | armAdc | armSbc | armRsc =>
    exact .armInstr (.dpWrite ..)
  case armTst | armTeq | armCmp | armCmn => exact .armInstr (.dpCompare ..)
  case armMul | armMla => exact .armInstr (.mulWrite ..)
  case armUmull | armUmlal | armSmull | armSmlal => exact .armInstr (.mulLongWrite ..)
  case armLdr | armLdrb | armLdrh | armLdrsb | armLdrsh => exact .armInstr (.armLoad ..)
  case armStr | armStrb | armStrh => exact .armInstr (.armStore ..)
  case armSwp | armSwpb => exact .armInstr (.armSwap ..)
  case armLdm => exact .armInstr (.ldmEffect ..)
  case armStm => exact .armInstr (.stmEffect ..)
  case armMsrCpsrReg | armMsrCpsrImm => exact .armInstr (.addCycles (Kept.msrCpsr ..).cycles (by decide))
  case armMsrSpsrReg | armMsrSpsrImm => exact .armInstr (.of_invKept (.msrSpsr ..) (by decide))
  case armSwi => exact .armInstr (.addCycles (by simp) (by decide))
  case thumbSwi => exact .next (.addCycles (by simp) (by decide))
  case thumbLslImm | thumbLsrImm | thumbAsrImm | thumbLslReg | thumbLsrReg | thumbAsrReg | thumbRorReg | thumbAddReg |
      thumbSubReg | thumbAddImm3 | thumbSubImm3 | thumbAddImm8 | thumbSubImm8 | thumbAdc | thumbSbc | thumbNeg |
      thumbMovImm8 | thumbAnd | thumbEor | thumbOrr | thumbBic | thumbMvn | thumbMul =>
    exact .next (.thumbWrite _ _ _ (by decide) s)
  case thumbTst | thumbCmpImm8 | thumbCmpReg | thumbCmn | thumbCmpHi => exact .next (.thumbCompare ..)
  case thumbAddHi | thumbMovHi =>
    exact .next (.of_invKept ((InvKept.refl s).setReg _ _) (by split <;> decide))
  case thumbAddRdPc | thumbAddRdSp | thumbAddSpImm | thumbSubSpImm | thumbB | thumbBlFirst =>
    exact .next (.of_invKept ((InvKept.refl s).setReg _ _) (by decide))
  case thumbBlSecond => exact .next (.of_invKept (((InvKept.refl s).setReg _ _).setReg _ _) (by decide))
  case thumbBx => exact .next (.of_invKept ((InvKept.refl s).branchExchange _) (by decide))
  case thumbBCond =>
    exact .next (.ite (.of_invKept ((InvKept.refl s).setReg _ _) (by decide)) (.addCycles (Nat.le_refl _) (by decide)))
  case thumbUndef1011 | thumbUndef11101 => exact .next (.addCycles (Nat.le_refl _) (by decide))
  case thumbLdrPc | thumbLdrReg | thumbLdrbReg | thumbLdsb | thumbLdrhReg | thumbLdsh | thumbLdrImm | thumbLdrbImm |
      thumbLdrhImm | thumbLdrSp =>
    exact .next (.thumbLoad ..)
  case thumbStrReg | thumbStrbReg | thumbStrhReg | thumbStrImm | thumbStrbImm | thumbStrhImm | thumbStrSp =>
    exact .next (.thumbStore ..)
  case thumbPush lr list => exact .unless_refused (stackCount_ne_zero hi) (.pushEffect ..)
  case thumbPop pc list => exact .unless_refused (stackCount_ne_zero hi) (.popEffect ..)
  case thumbStmia rb list => exact .unless_refused (listCount_ne_zero hi) (.stmiaEffect ..)
  case thumbLdmia rb list => exact .unless_refused (listCount_ne_zero hi) (.ldmiaEffect ..)

/-- Settles O49: `exec_completes` gives the next state and its cycles, `exec_cases` what it keeps. -/
theorem everyOtherInstructionCompletes : Obligations.EveryOtherInstructionCompletes := by
  unfold Obligations.EveryOtherInstructionCompletes
  intro i s hi
  obtain ⟨t, ht, hcycles⟩ := exec_completes hi s
  refine ⟨t, ht, hcycles, ?_⟩
  rcases exec_cases ht with ⟨hk, -⟩ | ⟨-, mask, op, rfl⟩ | ⟨-, rfl⟩
  · exact hk.environment
  · exact ((Kept.msrCpsr mask op s).trans (Kept.addCycles _ 1)).environment
  · simp

end Sys2Proof.Machine
end

section
/-! PROOFS. ARM data processing and the operand forms (41_arm_dataproc.md R300 to R325; 40_core_primitives.md R234 to
R236; 44_arm_load_store.md R400, R401, R410). -/

namespace Sys2Proof.Machine

open Claims

/-! ## Operand forms -/

theorem bits_low_byte_toNat (v : Word) : (bits v 0 8).toNat = v.toNat % 256 := by
  simp [bits, BitVec.extractLsb'_toNat]

theorem writesBack_iff (a : Addressing) :
    writesBack a = true ↔ (a.pre = false ∨ a.wback = true) ∧ a.rn ≠ 15#4 := by
  simp [writesBack]

/-- The carry of a rotated immediate is its sign (R301). -/
theorem operand2_imm_carry (s : State) (rot4 : BitVec 4) (imm8 : BitVec 8) :
    (operand2 s (.imm rot4 imm8)).carry =
      if rot4 = 0#4 then s.cpsr.c else (operand2 s (.imm rot4 imm8)).value.msb := by
  simp [operand2, BitVec.msb_eq_getLsbD_last]

theorem operand2_shiftReg (s : State) (rs : RegNum) (type : ShiftType) (rm : RegNum) :
    operand2 s (.shiftReg rs type rm) =
      shift type (s.armOp12 rm) ((s.armOp rs).toNat % 256) s.cpsr.c false := by
  rw [operand2, bits_low_byte_toNat]

/-- Settles O14: each form is its definition, the carry of a rotated immediate, the shift by a low byte and the width of
the immediate offsets apart. -/
theorem operandForms : Obligations.OperandForms := by
  unfold Obligations.OperandForms
  intro s rot4 imm8 imm12 amount type rs rm a offset
  exact ⟨rfl, operand2_imm_carry s rot4 imm8, rfl, operand2_shiftReg s rs type rm, (BitVec.ofNat_toNat 32 imm12).symm,
    rfl, (BitVec.ofNat_toNat 32 imm8).symm, rfl, rfl, rfl, writesBack_iff a⟩

/-! ## The flags of an outcome (R300) -/

theorem FlagsAre.logical {s t : State} {v : Word} {c : Bool} (h : t.cpsr = (logical s v c).psr) :
    FlagsAre t v.msb (v == 0#32) c s.cpsr.v := by
  constructor <;> simp [h, Machine.logical]

theorem FlagsAre.arithmetic {s t : State} {r : AluResult} (h : t.cpsr = (arithmetic s r).psr) :
    FlagsAre t r.value.msb (r.value == 0#32) r.carry r.overflow := by
  constructor <;> simp [h, Machine.arithmetic]

/-! ## The ends of an opcode -/

/-- What an opcode with Rd below R15 leaves, from `s` to `t`: its result, its status with S, and its frame (R300, R305). -/
structure WroteRd (sf : Bool) (rd : RegNum) (o : DpOutcome) (s t : State) : Prop where
  value : t.readPhys (route s.mode rd) = o.value
  psr : sf = true → t.cpsr = o.psr
  frame : Frame [route s.mode rd] (if sf then nzcv else []) s t
  memory : SameMemory s t
  accesses : NoAccess s t
  cycles : t.cycles = s.cycles + 1

theorem dpWrite_wroteRd (sf : Bool) {rd : RegNum} {o : DpOutcome} (s : State) (hrd : rd ≠ 15#4)
    (ho : SameButFlags o.psr s.cpsr) : WroteRd sf rd o s (dpWrite sf rd o s) where
  frame := Frame.dp s sf o hrd ho.bit
  accesses := .dpWrite sf rd o s
  value := by simp [dpWrite_of_ne sf o s hrd, storedValue_of_ne s o.value hrd]
  psr hsf := by simp [dpWrite_of_ne, hrd, hsf]
  memory _ := by simp [dpWrite_of_ne sf o s hrd]
  cycles := by simp [dpWrite_of_ne sf o s hrd]

/-- What an opcode with Rd = R15 leaves: CPSR first, then the PC masked with the T it holds (R304). -/
theorem dpWrite_15_eq (sf : Bool) (o : DpOutcome) (s : State) :
    dpWrite sf 15#4 o s = ((s.setCpsr (if sf then restored s else s.cpsr)).setPc o.value).addCycles 3 := by
  rw [dpWrite_15]
  cases sf
  · rfl
  · simp only [if_true, State.restoreCpsr_eq]
    rfl

theorem Frame.dp_15 (sf : Bool) (o : DpOutcome) (s : State) :
    Frame [.pc] (if sf then allBits else []) s (dpWrite sf 15#4 o s) := by
  rw [dpWrite_15_eq]
  constructor
  case regs => simp_all
  case cpsr =>
    intro k hk
    cases sf
    · rfl
    · have hge : 32 ≤ k := by simpa [allBits] using hk
      rw [BitVec.getLsbD_of_ge _ _ hge, BitVec.getLsbD_of_ge _ _ hge]
  all_goals simp

/-! ## Each family as its outcome -/

theorem exec_arithOp (op : ArithOp) {c : Cond} (sf : Bool) (rn rd : RegNum) (o : Operand2) {s : State}
    (hc : condPassed s.cpsr c = true) :
    exec (op.instr c sf rn rd o) s =
      .next (dpWrite sf rd (arithmetic s (op.result (s.armOp rn) (operand2 s o).value s.cpsr.c)) s) := by
  cases op <;> rw [ArithOp.instr, exec] <;> exact armInstr_passed _ hc

theorem exec_logicOp (op : LogicOp) {c : Cond} (sf : Bool) (rn rd : RegNum) (o : Operand2) {s : State}
    (hc : condPassed s.cpsr c = true) :
    exec (op.instr c sf rn rd o) s =
      .next (dpWrite sf rd (logical s (op.result (s.armOp rn) (operand2 s o).value) (operand2 s o).carry) s) := by
  cases op <;> rw [LogicOp.instr, exec] <;> exact armInstr_passed _ hc

/-- An opcode that writes Rd ends as `dpWrite` of its value, with some status. -/
theorem exec_writingOp (op : WritingOp) {c : Cond} (sf : Bool) (rn rd : RegNum) (o : Operand2) {s : State}
    (hc : condPassed s.cpsr c = true) :
    ∃ psr, exec (op.instr c sf rn rd o) s =
      .next (dpWrite sf rd ⟨op.value (s.armOp rn) (operand2 s o).value s.cpsr.c, psr⟩ s) := by
  cases op with
  | arith op => exact ⟨_, exec_arithOp op sf rn rd o hc⟩
  | logic op => exact ⟨_, exec_logicOp op sf rn rd o hc⟩

/-- The outcome of a comparison of `a` with operand 2 (R318 to R321). -/
def compareOutcome (s : State) (a : Word) (b : ShiftResult) : CompareOp → DpOutcome
  | .tst => logical s (a &&& b.value) b.carry
  | .teq => logical s (a ^^^ b.value) b.carry
  | .cmp => arithmetic s (subWithBorrow a b.value true)
  | .cmn => arithmetic s (addWithCarry a b.value false)

theorem exec_compareOp (op : CompareOp) {c : Cond} (rn : RegNum) (o : Operand2) {s : State}
    (hc : condPassed s.cpsr c = true) :
    exec (op.instr c rn o) s = .next (dpCompare (compareOutcome s (s.armOp rn) (operand2 s o) op) s) := by
  cases op <;> rw [CompareOp.instr, exec] <;> exact armInstr_passed _ hc

theorem SameButFlags.compareOutcome (s : State) (a : Word) (b : ShiftResult) (op : CompareOp) :
    SameButFlags (compareOutcome s a b op).psr s.cpsr := by
  cases op with
  | tst | teq => exact .logical ..
  | cmp | cmn => exact .arithmetic ..

/-! ## The statements -/

/-- Settles O15: the opcode ends as `dpWrite` of its ALU result. -/
theorem arithmeticDataProcessing : Obligations.ArithmeticDataProcessing := by
  unfold Obligations.ArithmeticDataProcessing
  intro op c sf rn rd o s hc hrd
  have h := dpWrite_wroteRd sf s hrd (.arithmetic s (op.result (s.armOp rn) (operand2 s o).value s.cpsr.c))
  exact ⟨_, exec_arithOp op sf rn rd o hc, h.value, fun hsf => .arithmetic (h.psr hsf), h.frame, h.memory, h.accesses,
    h.cycles⟩

/-- Settles O16: the opcode ends as `dpWrite` of its logical result with the shifter's carry. -/
theorem logicalDataProcessing : Obligations.LogicalDataProcessing := by
  unfold Obligations.LogicalDataProcessing
  intro op c sf rn rd o s hc hrd
  have h := dpWrite_wroteRd sf s hrd
    (.logical s (op.result (s.armOp rn) (operand2 s o).value) (operand2 s o).carry)
  exact ⟨_, exec_logicOp op sf rn rd o hc, h.value, fun hsf => .logical (h.psr hsf), h.frame, h.memory, h.accesses,
    h.cycles⟩

/-- Settles O17: a comparison writes its outcome's status alone. -/
theorem comparisonsSetFlagsAlone : Obligations.ComparisonsSetFlagsAlone := by
  unfold Obligations.ComparisonsSetFlagsAlone
  intro op c rn o s hc
  refine ⟨_, exec_compareOp op rn o hc, ?_, Frame.cpsrOnly s _ 1 (SameButFlags.compareOutcome s _ _ op).bit,
    fun _ => rfl, .dpCompare _ s, rfl⟩
  cases op with
  | tst | teq => exact .logical rfl
  | cmp | cmn => exact .arithmetic rfl

/-- Settles O18: the twelve opcodes end as `dpWrite` with Rd = R15, which takes its value alone from the outcome. -/
theorem dataProcessingWritesThePc : Obligations.DataProcessingWritesThePc := by
  unfold Obligations.DataProcessingWritesThePc
  intro op c sf rn o s hc
  obtain ⟨psr, hexec⟩ := exec_writingOp op sf rn 15#4 o hc
  refine ⟨_, hexec, ?_, ?_, Frame.dp_15 sf _ s, fun _ => ?_, .dpWrite sf _ _ s, ?_⟩ <;> simp [dpWrite_15_eq]

end Sys2Proof.Machine
end

section
/-! PROOFS. The six ARM multiplies (42_arm_multiply.md R350 to R357). -/

namespace Sys2Proof.Machine

open Claims

/-! ## The products in numbers

The model multiplies and adds words; the rules speak of the numbers they stand for (R351 to R356). -/

theorem mul_eq_ofNat {w : Nat} (a b : BitVec w) : a * b = BitVec.ofNat w (a.toNat * b.toNat) := by
  simp [BitVec.ofNat_mul]

theorem mul_add_eq_ofNat {w : Nat} (a b c : BitVec w) :
    a * b + c = BitVec.ofNat w (a.toNat * b.toNat + c.toNat) := by
  simp [BitVec.ofNat_add, mul_eq_ofNat]

theorem setWidth_mul_setWidth {w : Nat} (v : Nat) (a b : BitVec w) :
    a.setWidth v * b.setWidth v = BitVec.ofNat v (a.toNat * b.toNat) := by
  simp only [BitVec.ofNat_mul, BitVec.ofNat_toNat]

/-- The sign extension of a word is its signed number in the wider type. -/
theorem signExtend_mul_signExtend {w : Nat} (v : Nat) (a b : BitVec w) :
    a.signExtend v * b.signExtend v = BitVec.ofInt v (a.toInt * b.toInt) := by
  simp only [BitVec.signExtend, BitVec.ofInt_mul]

theorem accumulator_eq_ofNat (s : State) (rdHi rdLo : RegNum) :
    accumulator s rdHi rdLo = BitVec.ofNat 64 ((s.armOp rdHi).toNat * 2 ^ 32 + (s.armOp rdLo).toNat) := by
  apply BitVec.eq_of_toNat_eq
  have hhi := (s.armOp rdHi).isLt
  have hlo := (s.armOp rdLo).isLt
  rw [BitVec.toNat_ofNat, Nat.mod_eq_of_lt (by omega), ← Nat.shiftLeft_eq, Nat.shiftLeft_add_eq_or_of_lt hlo,
    accumulator, pack, BitVec.toNat_cast, BitVec.toNat_append]

theorem bits_low_word (v : BitVec 64) : bits v 0 32 = BitVec.ofNat 32 v.toNat := rfl

theorem bits_high_word (v : BitVec 64) : bits v 32 32 = BitVec.ofNat 32 (v.toNat / 2 ^ 32) := by
  rw [← Nat.shiftRight_eq_div_pow]
  rfl

/-! ## The end of a multiply -/

/-- What every multiply leaves, from `s` to `t`, whatever the registers `regs` it wrote: N and Z of the whole result `v`
with S, and its frame (R357). -/
structure EndedMultiply {w : Nat} (sf : Bool) (regs : List PhysReg) (v : BitVec w) (n : Nat) (s t : State) : Prop where
  flags : sf = true → FlagsAre t v.msb (v == 0#w) s.cpsr.c s.cpsr.v
  frame : Frame regs (if sf then [31, 30] else []) s t
  memory : SameMemory s t
  accesses : NoAccess s t
  cycles : t.cycles = s.cycles + n

/-- The status, written over a state `u` that differs from `s` in `regs` alone. -/
theorem EndedMultiply.of_registers {w : Nat} (sf : Bool) {regs : List PhysReg} (v : BitVec w) (n : Nat) {s u : State}
    (hframe : Frame regs [] s u) (hmem : SameMemory s u) (hacc : NoAccess s u) (hcycles : u.cycles = s.cycles) :
    EndedMultiply sf regs v n s ((u.setCpsr (if sf then s.cpsr.setNZ v else s.cpsr)).addCycles n) where
  flags hsf := by constructor <;> simp [hsf]
  frame := { hframe with
    cpsr := fun k hk => by
      cases sf
      · rfl
      · exact Psr.setNZ_other s.cpsr v k hk }
  memory := hmem
  accesses := hacc
  cycles := congrArg (· + n) hcycles

theorem mulWrite_ended (sf : Bool) (rd : RegNum) (v : Word) (s : State) :
    EndedMultiply sf [route s.mode rd] v 2 s (mulWrite sf rd v s) :=
  .of_registers sf v 2 (.setReg s rd v) (fun _ => by simp) ((NoAccess.refl s).setReg rd v) (by simp)

theorem mulWrite_value (sf : Bool) (rd : RegNum) (v : Word) (s : State) :
    (mulWrite sf rd v s).readPhys (route s.mode rd) = written s rd v := by
  simp [mulWrite, storedValue, written]

/-- Two registers written, one after the other. -/
theorem Frame.setReg_setReg (s : State) (i j : RegNum) (v w : Word) :
    Frame [route s.mode j, route s.mode i] [] s ((s.setReg i v).setReg j w) := by
  constructor <;> simp_all

theorem mulLongWrite_ended (sf : Bool) (rdHi rdLo : RegNum) (v : BitVec 64) (s : State) :
    EndedMultiply sf [route s.mode rdHi, route s.mode rdLo] v 3 s (mulLongWrite sf rdHi rdLo v s) :=
  .of_registers sf v 3 (.setReg_setReg s rdLo rdHi _ _) (fun _ => by simp)
    (((NoAccess.refl s).setReg rdLo _).setReg rdHi _) (by simp)

/-- The high word is written last, so it stands where RdHi = RdLo (R353). -/
theorem mulLongWrite_high (sf : Bool) (rdHi rdLo : RegNum) (v : BitVec 64) (s : State) :
    (mulLongWrite sf rdHi rdLo v s).readPhys (route s.mode rdHi) =
      written s rdHi (BitVec.ofNat 32 (v.toNat / 2 ^ 32)) := by
  rw [← bits_high_word]
  simp [mulLongWrite, storedValue, written]

theorem mulLongWrite_low (sf : Bool) {rdHi rdLo : RegNum} (v : BitVec 64) (s : State) (h : rdLo ≠ rdHi) :
    (mulLongWrite sf rdHi rdLo v s).readPhys (route s.mode rdLo) = written s rdLo (BitVec.ofNat 32 v.toNat) := by
  rw [← bits_low_word]
  simp [mulLongWrite, storedValue, written, route_inj, h]

/-! ## The statements -/

/-- Settles O19: both end as `mulWrite` of the number the rule gives. -/
theorem multiplyAndAccumulate : Obligations.MultiplyAndAccumulate := by
  unfold Obligations.MultiplyAndAccumulate
  intro c sf rd rn rs rm s hc
  constructor
  · rw [exec, execArmMul, armInstr_passed _ hc, mul_eq_ofNat]
    have h := mulWrite_ended sf rd (BitVec.ofNat 32 ((s.armOp rm).toNat * (s.armOp rs).toNat)) s
    exact ⟨_, rfl, mulWrite_value .., h.flags, h.frame, h.memory, h.accesses, h.cycles⟩
  · rw [exec, execArmMla, armInstr_passed _ hc, mul_add_eq_ofNat]
    have h := mulWrite_ended sf rd
      (BitVec.ofNat 32 ((s.armOp rm).toNat * (s.armOp rs).toNat + (s.armOp rn).toNat)) s
    exact ⟨_, rfl, mulWrite_value .., h.flags, h.frame, h.memory, h.accesses, h.cycles⟩

/-- Settles O20: each of the four ends as `mulLongWrite` of the number the rule gives, modulo 2^64. -/
theorem longMultiplies : Obligations.LongMultiplies := by
  unfold Obligations.LongMultiplies
  intro c sf rdHi rdLo rs rm s hc result u i acc
  have completes {j : Instr} {v : BitVec 64} (hj : exec j s = .next (mulLongWrite sf rdHi rdLo v s)) :
      result j v := by
    have h := mulLongWrite_ended sf rdHi rdLo v s
    exact ⟨_, hj, mulLongWrite_high .., mulLongWrite_low sf v s, h.flags, h.frame, h.memory, h.accesses, h.cycles⟩
  refine ⟨completes ?_, completes ?_, completes ?_, completes ?_⟩
  · rw [exec, execArmUmull, armInstr_passed _ hc, setWidth_mul_setWidth]
  · rw [exec, execArmUmlal, armInstr_passed _ hc, setWidth_mul_setWidth, accumulator_eq_ofNat, ← BitVec.ofNat_add]
  · rw [exec, execArmSmull, armInstr_passed _ hc, signExtend_mul_signExtend]
  · rw [exec, execArmSmlal, armInstr_passed _ hc, signExtend_mul_signExtend, accumulator_eq_ofNat, BitVec.ofInt_add,
      BitVec.ofInt_natCast]

end Sys2Proof.Machine
end

section
/-! PROOFS. The ARM branches and BX in both states (43_arm_branch.md R370 to R372; 46_thumb_alu.md R533). -/

namespace Sys2Proof.Machine

open Claims

/-! ## The offset in numbers -/

/-- The offset field counts words, signed (R163, R370). -/
theorem armBranchOffset_eq_ofInt (offset : BitVec 24) :
    armBranchOffset offset = BitVec.ofInt 32 (4 * offset.toInt) := by
  rw [armBranchOffset, pack, BitVec.signExtend, BitVec.cast_eq, BitVec.toInt_append_zero]
  rfl

/-! ## The end of a branch -/

/-- What every branch leaves, from `s` to `t`, whatever the registers `regs` and the CPSR bits `bitsWritten` it wrote:
the PC masked with the T that stands then (R37, R238), and its frame. -/
structure Branched (regs : List PhysReg) (bitsWritten : List Nat) (target : Word) (s t : State) : Prop where
  pc : t.pc = maskPc t.cpsr.t target
  frame : Frame regs bitsWritten s t
  memory : SameMemory s t
  accesses : NoAccess s t
  cycles : t.cycles = s.cycles + 3

namespace Branched

variable {regs : List PhysReg} {bitsWritten : List Nat} {s t u : State}

/-- The target, written over a state `u` that differs from `s` in `regs` and `bitsWritten` alone. -/
theorem of_setPc (target : Word) (hframe : Frame regs bitsWritten s u) (hmem : SameMemory s u) (hacc : NoAccess s u)
    (hcycles : u.cycles = s.cycles) : Branched (.pc :: regs) bitsWritten target s ((u.setPc target).addCycles 3) where
  pc := rfl
  frame := { hframe with
    regs := fun p hp => by
      obtain ⟨hpc, hregs⟩ := List.ne_and_not_mem_of_not_mem_cons hp
      simpa [hpc] using hframe.regs p hregs }
  memory := hmem
  accesses := hacc.setPc target
  cycles := congrArg (· + 3) hcycles

/-- A branch that leaves T alone masks the PC with the T it found. -/
theorem pc_of_t_kept {target : Word} (h : Branched regs bitsWritten target s t) (h5 : 5 ∉ bitsWritten) :
    t.pc = maskPc s.cpsr.t target := by
  have ht : t.cpsr.t = s.cpsr.t := h.frame.cpsr 5 h5
  rw [h.pc, ht]

end Branched

theorem setPc_branched (s : State) (target : Word) :
    Branched [.pc] [] target s ((s.setPc target).addCycles 3) :=
  .of_setPc target (.cpsrOnly s s.cpsr 0 fun _ _ => rfl) (fun _ => rfl) (NoAccess.refl s) rfl

/-- A branch with link: LR of the current mode first, then the PC (R371). -/
theorem setLr_setPc_branched (s : State) (link target : Word) :
    Branched [.pc, route s.mode 14#4] [] target s (((s.setReg 14#4 link).setPc target).addCycles 3) :=
  .of_setPc target (.setReg s 14#4 link) (fun _ => by simp) ((NoAccess.refl s).setReg 14#4 link) (by simp)

theorem reg_14_setLr_setPc (s : State) (link target : Word) :
    (((s.setReg 14#4 link).setPc target).addCycles 3).reg 14#4 = link := by
  simp [State.reg, storedValue]

/-! ## BX -/

theorem Psr.setT_other (p : Psr) (b : Bool) (k : Nat) (h : k ∉ [5]) : (p.setT b).getLsbD k = p.getLsbD k := by
  rw [Psr.setT, Psr.getLsbD_setBit p 5 b k (by decide), if_neg (by simpa using h)]

theorem State.t_branchExchange (s : State) (v : Word) : (s.branchExchange v).cpsr.t = v.getLsbD 0 :=
  Psr.t_setT s.cpsr (v.getLsbD 0)

theorem branchExchange_branched (s : State) (v : Word) :
    Branched [.pc] [5] v s ((s.branchExchange v).addCycles 3) :=
  .of_setPc v (.cpsrOnly s _ 0 (Psr.setT_other s.cpsr (v.getLsbD 0))) (fun _ => rfl) ((NoAccess.refl s).setCpsr _) rfl

/-- T is written first, so bit 0 of the target chooses the mask (R238). -/
theorem State.pc_branchExchange (s : State) (v : Word) :
    (s.branchExchange v).pc = if v.getLsbD 0 then v &&& 0xFFFFFFFE#32 else v &&& 0xFFFFFFFC#32 := by
  rw [branchExchange, setPc_pc, setCpsr_cpsr, Psr.t_setT, maskPc]

/-! ## The statements -/

/-- Settles O21: both end in a write of the PC with the offset as the number of words it stands for, BL over the state
with LR written. -/
theorem armBranchAndLink : Obligations.ArmBranchAndLink := by
  unfold Obligations.ArmBranchAndLink
  intro c offset s hc target
  constructor
  · rw [exec, execArmB, armInstr_passed _ hc, armBranchOffset_eq_ofInt]
    have h := setPc_branched s target
    exact ⟨_, rfl, h.pc_of_t_kept List.not_mem_nil, h.frame, h.memory, h.accesses, h.cycles⟩
  · rw [exec, execArmBl, armInstr_passed _ hc, armBranchOffset_eq_ofInt]
    have h := setLr_setPc_branched s (s.currentPc + 4) target
    exact ⟨_, rfl, h.pc_of_t_kept List.not_mem_nil, reg_14_setLr_setPc .., h.frame, h.memory, h.accesses, h.cycles⟩

/-- Settles O22: both end as `branchExchange` of the operand, read with R15 as the state has it. -/
theorem branchAndExchange : Obligations.BranchAndExchange := by
  unfold Obligations.BranchAndExchange
  intro c rm s result
  have completes {i : Instr} {v : Word} (hi : exec i s = .next ((s.branchExchange v).addCycles 3)) : result i v := by
    have h := branchExchange_branched s v
    exact ⟨_, hi, s.t_branchExchange v, s.pc_branchExchange v, h.frame, h.memory, h.accesses, h.cycles⟩
  constructor
  · intro hc
    exact completes (by rw [exec, execArmBx, armInstr_passed _ hc, State.armOp])
  · exact completes rfl

end Sys2Proof.Machine
end

section
/-! PROOFS. The ARM single, halfword and signed transfers and the swaps (44_arm_load_store.md R400 to R416, R440,
R441). -/

namespace Sys2Proof.Machine

open Claims

/-! ## What a load gives -/

theorem and_three_toNat (addr : Word) : (addr &&& 3#32).toNat = addr.toNat % 4 := by
  rw [BitVec.toNat_and]
  exact Nat.and_two_pow_sub_one_eq_mod addr.toNat 2

theorem getLsbD_zero_iff_odd (addr : Word) : addr.getLsbD 0 = true ↔ addr.toNat % 2 = 1 := by
  rw [BitVec.getLsbD, Nat.testBit_zero, decide_eq_true_iff]

theorem loadedValue_word (s : State) (addr : Word) : loadedValue s .word addr = ldrValue s addr := by
  rw [loadedValue, and_three_toNat]
  rfl

theorem loadedValue_byte (s : State) (addr : Word) : loadedValue s .byte addr = zextByteAt s addr := rfl

theorem loadedValue_signedByte (s : State) (addr : Word) : loadedValue s .signedByte addr = ldrsbValue s addr := rfl

theorem loadedValue_half (s : State) (addr : Word) : loadedValue s .half addr = ldrhValue s addr := by
  simp only [loadedValue, getLsbD_zero_iff_odd]
  rfl

theorem loadedValue_signedHalf (s : State) (addr : Word) : loadedValue s .signedHalf addr = ldrshValue s addr := by
  simp only [loadedValue, getLsbD_zero_iff_odd]
  rfl

/-- LDRSH reads the byte at an odd address, else the halfword (R415). -/
theorem readRecord_signedHalf (s : State) (addr : Word) :
    readRecord s (loadWidth .signedHalf addr) addr = ldrshRead s addr := by
  simp only [loadWidth, getLsbD_zero_iff_odd, ldrshRead]
  split <;> rfl

/-! ## The bus record -/

theorem writeOf_eq (w : Width) (addr v : Word) : writeOf w addr v = ⟨.write, w, align w addr, busValue w v⟩ := by
  rw [busValue_eq]
  rfl

/-! ## Transfers -/

theorem mem_baseRegs {s : State} {a : Addressing} {p : PhysReg} :
    p ∈ baseRegs s a ↔ writesBack a = true ∧ p = route s.mode a.rn := by
  unfold baseRegs
  split <;> simp [*]

/-- Rd is written last, so it stands where the base is Rd (R402). -/
theorem loadsTo_of_armLoad (k : LoadKind) {i : Instr} {s : State} {a : Addressing} {offset addr : Word} {rd : RegNum}
    {value : Word} {access : BusAccess} (hi : exec i s = .next (armLoad k a offset rd s))
    (haddr : transferAddress s a offset = addr) (hvalue : loadedValue s k addr = value)
    (haccess : readRecord s (loadWidth k addr) addr = access) : LoadsTo i s a offset rd value [access] := by
  rw [armLoad, State.loadValue_eq, haddr, hvalue, haccess] at hi
  refine ⟨_, hi, ?value, fun hw hne => ?base, ?frame, fun _ => ?memory, ?accesses, ?cycles⟩
  case value => simp [storedValue, written]
  case base => simp [baseWriteBack_readPhys, route_inj, hw, hne]
  case frame =>
    constructor
    case regs =>
      intro p hp
      obtain ⟨hrd, hbase⟩ := List.ne_and_not_mem_of_not_mem_cons hp
      simp [baseWriteBack_readPhys, hrd, mt mem_baseRegs.2 hbase]
    all_goals simp
  case memory => simp
  case accesses => exact .afterReads (by simp [← haccess, readRecord]) (by simp) (by simp)
  case cycles => simp

/-- The data is read before the write-back (R402). -/
theorem storesFrom_of_armStore {i : Instr} {s : State} {w : Width} {a : Addressing} {offset : Word} {rd : RegNum}
    (hi : exec i s = .next (armStore w a offset rd s)) :
    StoresFrom i s w a offset (transferAddress s a offset) (s.armOp12 rd) := by
  refine ⟨_, hi, Memory.stored ?memory, fun hw => ?base, ?frame, ?accesses, ?cycles⟩
  case memory => simp [armStore]
  case base => simp [armStore, baseWriteBack_readPhys, hw]
  case frame =>
    constructor
    case regs =>
      intro p hp
      simp [armStore, baseWriteBack_readPhys, mt mem_baseRegs.2 hp]
    all_goals simp [armStore]
  case accesses => exact .writes (by simp [writeOf]) (by simp [armStore, writeOf_eq]) (by simp [armStore])
  case cycles => simp [armStore]

/-! ## The statements -/

/-- Settles O25: each of the five ends as `armLoad` of its kind, whose value and access are those of its rule. -/
theorem armLoads : Obligations.ArmLoads := by
  unfold Obligations.ArmLoads
  intro c a wo ho rd s hc wa ha
  refine ⟨loadsTo_of_armLoad .word ?ldr rfl (loadedValue_word s wa) rfl,
    loadsTo_of_armLoad .byte ?ldrb rfl (loadedValue_byte s wa) rfl,
    loadsTo_of_armLoad .half ?ldrh rfl (loadedValue_half s ha) rfl,
    loadsTo_of_armLoad .signedByte ?ldrsb rfl (loadedValue_signedByte s ha) rfl,
    loadsTo_of_armLoad .signedHalf ?ldrsh rfl (loadedValue_signedHalf s ha) (readRecord_signedHalf s ha)⟩
  case ldr => rw [exec, execArmLdr, armInstr_passed _ hc]
  case ldrb => rw [exec, execArmLdrb, armInstr_passed _ hc]
  case ldrh => rw [exec, execArmLdrh, armInstr_passed _ hc]
  case ldrsb => rw [exec, execArmLdrsb, armInstr_passed _ hc]
  case ldrsh => rw [exec, execArmLdrsh, armInstr_passed _ hc]

/-- Settles O26: each of the three ends as `armStore` of its width. -/
theorem armStores : Obligations.ArmStores := by
  unfold Obligations.ArmStores
  intro c a wo ho rd s hc data wa ha
  refine ⟨storesFrom_of_armStore ?str, storesFrom_of_armStore ?strb, storesFrom_of_armStore ?strh⟩
  case str => rw [exec, execArmStr, armInstr_passed _ hc]
  case strb => rw [exec, execArmStrb, armInstr_passed _ hc]
  case strh => rw [exec, execArmStrh, armInstr_passed _ hc]

/-- Settles O27: both end as `armSwap`, whose read changes neither memory nor the platform the store finds. -/
theorem swaps : Obligations.Swaps := by
  unfold Obligations.Swaps
  intro c rn rd rm s hc addr result
  have completes (k : LoadKind) {i : Instr} {w : Width} (hw : loadWidth k addr = w)
      (hi : exec i s = .next (armSwap w k rn rd rm s)) : result i w (loadedValue s k addr) := by
    have haddr : s.armOp rn = addr := rfl
    rw [armSwap, State.loadValue_eq, haddr] at hi
    refine ⟨_, hi, ?value, Memory.stored ?memory, ?frame, ⟨?accesses, ?reads⟩, ?cycles⟩
    case value => simp [storedValue, written]
    case memory => simp
    case frame => constructor <;> simp_all
    case accesses => simp [← hw, writeOf_eq, readOf, readRecord]
    case reads => simp [readOf, writeOf]
    case cycles => simp
  constructor
  · rw [← loadedValue_word]
    exact completes .word rfl (by rw [exec, execArmSwp, armInstr_passed _ hc])
  · rw [← loadedValue_byte]
    exact completes .byte rfl (by rw [exec, execArmSwpb, armInstr_passed _ hc])

end Sys2Proof.Machine
end

section
/-! PROOFS. The ARM block transfers (44_arm_load_store.md R420 to R427, R434). -/

namespace Sys2Proof.Machine

open Claims

/-! ## Addresses and lists -/

theorem wordsSize_eq_mul (n : Nat) : wordsSize n = 4 * BitVec.ofNat 32 n := by
  rw [wordsSize, BitVec.ofNat_mul]
  rfl

/-- Settles O28: the rows of R421 are the branches of `blockStart` and `blockFinal`; the lists ascend by number. -/
theorem blockAddressesAndRegisterLists : Obligations.BlockAddressesAndRegisterLists := by
  unfold Obligations.BlockAddressesAndRegisterLists
  intro s a list thumbList base n
  refine ⟨?ia, ?ib, ?da, ?db, fun h => if_pos h, mem_blockRegs, blockRegs_ascending list,
    mem_listRegs (by decide) thumbList, listRegs_ascending (by decide) thumbList⟩
  case ia | ib | da | db =>
    intro hp hu
    rw [blockStart, blockFinal, wordsSize_eq_mul, hp, hu]
    exact ⟨rfl, rfl⟩

theorem blockRegs_nodup (list : BitVec 16) : (blockRegs list).Nodup := nodup_of_ascending (blockRegs_ascending list)

/-! ## Blocks of words -/

theorem blockReads_eq_readOf (s : State) {regs : List RegNum} (hnd : regs.Nodup) (a : Word) :
    blockReads s regs a = regs.map fun i => readOf (later s (slot regs i)) .word (slotAddress regs a i) :=
  blockReads_eq s hnd a

theorem blockWrites_eq_writeOf (value : RegNum → Word) {regs : List RegNum} (hnd : regs.Nodup) (a : Word) :
    blockWrites value regs a = regs.map fun i => writeOf .word (slotAddress regs a i) (value i) := by
  rw [blockWrites_eq value hnd]
  exact List.map_congr_left fun i _ => (writeOf_eq ..).symm

/-- What a block of loads leaves in memory and on the bus. -/
theorem readBlock_of_blockReads {regs : List RegNum} (hnd : regs.Nodup) {a : Word} {s t : State} (hmem : t.mem = s.mem)
    (hacc : t.accesses = s.accesses ++ blockReads s regs a) (hreads : t.reads = s.reads + regs.length) :
    ReadBlock regs a s t where
  memory x := by rw [hmem]
  accessed := by
    rw [blockReads_eq_readOf s hnd] at hacc
    exact .afterReads (by simp [readOf]) hacc (by simpa using hreads)

theorem storedBlock_of_blockMem {regs : List RegNum} (hnd : regs.Nodup) {value : RegNum → Word} {a : Word} {s t : State}
    (hmem : t.mem = blockMem s.bus value regs a s.mem) (hacc : t.accesses = s.accesses ++ blockWrites value regs a)
    (hreads : t.reads = s.reads) : StoredBlock regs a value s t where
  inside i hi home hhome k hk hlater := by
    have hslot := List.idxOf_lt_length_of_mem hi
    rw [hmem, blockMem_inside s value hslot hhome hk, List.getElem_idxOf hslot]
    intro j hij hj
    have hjslot := hnd.idxOf_getElem j hj
    simpa only [slotAddress, slot, hjslot] using
      hlater regs[j] (List.getElem_mem hj) (by simpa only [slot, hjslot] using hij)
  outside x hx := by
    rw [hmem]
    refine blockMem_outside s value fun j hj => ?_
    have hjslot := hnd.idxOf_getElem j hj
    simpa only [slotAddress, slot, hjslot] using hx regs[j] (List.getElem_mem hj)
  accessed := by
    rw [blockWrites_eq_writeOf value hnd] at hacc
    exact .writes (by simp [writeOf]) hacc hreads

/-- The values of the registers of a block alone count. -/
theorem storedBlock_congr {regs : List RegNum} {start : Word} {f g : RegNum → Word} {s t : State}
    (h : StoredBlock regs start f s t) (hfg : ∀ i, i ∈ regs → f i = g i) : StoredBlock regs start g s t where
  inside i hi := by
    rw [← hfg i hi]
    exact h.inside i hi
  outside := h.outside
  accessed := by
    have hvalues : regs.map (fun i => writeOf .word (slotAddress regs start i) (f i)) =
        regs.map fun i => writeOf .word (slotAddress regs start i) (g i) :=
      List.map_congr_left fun i hi => by rw [hfg i hi]
    exact hvalues ▸ h.accessed

/-! ## LDM -/

/-- One list of registers written after another. -/
theorem WroteRegs.trans {l m : List PhysReg} {s t u : State} (h : WroteRegs l s t) (hm : WroteRegs m t u) :
    WroteRegs (l ++ m) s u where
  frame := {
    regs := fun p hp => by
      obtain ⟨hl, hr⟩ := not_or.1 (mt List.mem_append.2 hp)
      rw [hm.frame.regs p hr, h.frame.regs p hl]
    cpsr := fun k _ => by rw [hm.cpsr, h.cpsr]
    spsr := hm.frame.spsr.trans h.frame.spsr
    halted := hm.frame.halted.trans h.frame.halted
    stopped := hm.frame.stopped.trans h.frame.stopped
    currentPc := hm.frame.currentPc.trans h.frame.currentPc
    currentInstruction := hm.frame.currentInstruction.trans h.frame.currentInstruction
    bus := hm.frame.bus.trans h.frame.bus }
  cpsr := hm.cpsr.trans h.cpsr
  mem := hm.mem.trans h.mem
  reads := hm.reads.trans h.reads
  accesses := hm.accesses.trans h.accesses
  cycles := hm.cycles.trans h.cycles

theorem WroteRegs.writePhys (s : State) (p : PhysReg) (v : Word) : WroteRegs [p] s (s.writePhys p v) := by
  refine ⟨⟨?regs, ?_, ?_, ?_, ?_, ?_, ?_, ?_⟩, ?_, ?_, ?_, ?_, ?_⟩ <;> simp_all

theorem WroteRegs.refl (s : State) : WroteRegs [] s s :=
  ⟨⟨fun _ _ => rfl, fun _ _ => rfl, rfl, rfl, rfl, rfl, rfl, rfl⟩, rfl, rfl, rfl, rfl, rfl⟩

/-! ### The base -/

/-- Whether LDM writes the base back: asked for, not loaded, and not R15 (R422, R424). -/
def LdmBacks (a : BlockAddressing) (list : BitVec 16) : Prop :=
  a.wback = true ∧ list.getLsbD a.rn.toNat = false ∧ a.rn ≠ 15#4

theorem ldmWriteBack_of_backs {a : BlockAddressing} {list : BitVec 16} (h : LdmBacks a list) (v : Word) (s : State) :
    ldmWriteBack a list v s = s.writePhys (route s.mode a.rn) v := by
  obtain ⟨hw, hlist, h15⟩ := h
  rw [ldmWriteBack, if_pos (by simp [hw, hlist, h15]), State.setReg_eq, storedValue_of_ne s v h15]

theorem ldmWriteBack_of_not_backs {a : BlockAddressing} {list : BitVec 16} (h : ¬ LdmBacks a list) (v : Word)
    (s : State) : ldmWriteBack a list v s = s := if_neg (by simpa [LdmBacks, and_assoc] using h)

theorem ldmWriteBack_wrote (a : BlockAddressing) (list : BitVec 16) (v : Word) (s : State) :
    ∃ l, WroteRegs l s (ldmWriteBack a list v s) ∧ ∀ p, p ∈ l → LdmBacks a list ∧ p = route s.mode a.rn := by
  by_cases h : LdmBacks a list
  · rw [ldmWriteBack_of_backs h]
    exact ⟨_, .writePhys s _ v, fun p hp => ⟨h, List.mem_singleton.1 hp⟩⟩
  · rw [ldmWriteBack_of_not_backs h]
    exact ⟨_, .refl s, fun p hp => absurd hp List.not_mem_nil⟩

/-- A base that is written back is not loaded. -/
theorem LdmBacks.not_mem {a : BlockAddressing} {list : BitVec 16} (h : LdmBacks a list) : a.rn ∉ blockRegs list := by
  obtain ⟨_, hlist, h15⟩ := h
  by_cases h0 : list = 0#16
  · simp [h0, blockRegs, h15]
  · simp [mem_blockRegs h0, hlist]

/-! ### The registers below R15 -/

/-- Each register number has its own storage, in the User bank and out of it. -/
theorem regNumOf_ldmTarget (s : State) (a : BlockAddressing) (list : BitVec 16) (i : RegNum) :
    regNumOf (ldmTarget s a list i) = i := by
  unfold ldmTarget
  split <;> exact regNumOf_route _ i

theorem ldmTarget_inj {s : State} {a : BlockAddressing} {list : BitVec 16} {i j : RegNum}
    (h : ldmTarget s a list i = ldmTarget s a list j) : i = j := by
  rw [← regNumOf_ldmTarget s a list i, h, regNumOf_ldmTarget]

theorem ldmTarget_eq_pc (s : State) (a : BlockAddressing) (list : BitVec 16) (i : RegNum) :
    ldmTarget s a list i = .pc ↔ i = 15#4 := by
  unfold ldmTarget
  split <;> exact route_eq_pc _ i

/-- Below R15, `ldmWrite` is a write of the storage the rule names (R424, R434). -/
theorem ldmWrite_eq (a : BlockAddressing) (list : BitVec 16) {s t : State} {i : RegNum} (v : Word)
    (hm : t.mode = s.mode) (hi : i ≠ 15#4) : ldmWrite a list t i v = t.writePhys (ldmTarget s a list i) v := by
  have hbank : (a.sbit && !loadsPc list) = true ↔ a.sbit = true ∧ 15#4 ∉ blockRegs list := by
    simp [← loadsPc_iff]
  unfold ldmWrite ldmTarget
  simp only [hbank]
  split
  · rw [State.setUserReg_eq, storedValue_of_ne t v hi]
  · rw [State.setReg_eq, storedValue_of_ne t v hi, hm]

/-- The words LDM loads, by register. -/
def ldmWords (a : BlockAddressing) (list : BitVec 16) (s : State) : List (RegNum × Word) :=
  (blockRegs list).map fun i => (i, blockWordAt s (blockRegs list) (blockStart s a list) i)

/-- Those of the registers below R15. -/
def ldmWordsBelow (a : BlockAddressing) (list : BitVec 16) (s : State) : List (RegNum × Word) :=
  (ldmWords a list s).filter fun p => p.1 != 15#4

theorem mem_ldmWordsBelow {a : BlockAddressing} {list : BitVec 16} {s : State} {p : RegNum × Word} :
    p ∈ ldmWordsBelow a list s ↔
      p.1 ∈ blockRegs list ∧ p.1 ≠ 15#4 ∧ p.2 = blockWordAt s (blockRegs list) (blockStart s a list) p.1 := by
  obtain ⟨i, v⟩ := p
  constructor
  · intro h
    obtain ⟨hword, h15⟩ := List.mem_filter.1 h
    obtain ⟨j, hj, rfl, rfl⟩ := by simpa only [ldmWords, List.mem_map, Prod.mk.injEq] using hword
    exact ⟨hj, bne_iff_ne.1 h15, rfl⟩
  · rintro ⟨hi, h15, hv⟩
    exact List.mem_filter.2 ⟨List.mem_map.2 ⟨i, hi, Prod.ext rfl hv.symm⟩, bne_iff_ne.2 h15⟩

theorem ldmWordsBelow_nodup (a : BlockAddressing) (list : BitVec 16) (s : State) :
    ((ldmWordsBelow a list s).map Prod.fst).Nodup := by
  have hregs : (ldmWords a list s).map Prod.fst = blockRegs list := by simp [ldmWords, Function.comp_def]
  have hsub : List.Sublist ((ldmWordsBelow a list s).map Prod.fst) ((ldmWords a list s).map Prod.fst) :=
    List.filter_sublist.map Prod.fst
  exact hsub.nodup (hregs ▸ blockRegs_nodup list)

/-! ### R15 -/

theorem restored_congr {s t : State} (hc : t.cpsr = s.cpsr) (hs : t.spsr = s.spsr) : restored t = restored s := by
  rw [restored, restored, hc, hs, State.mode_congr (congrArg Psr.m hc)]

theorem restoreCpsr_eq_restored (s : State) : s.restoreCpsr = s.setCpsr (restored s) := State.restoreCpsr_eq s

theorem ldmLoadPc_ldmWords (a : BlockAddressing) (list : BitVec 16) (s u : State) :
    ldmLoadPc a (ldmWords a list s) u =
      if 15#4 ∈ blockRegs list then
        (u.setCpsr (if a.sbit then restored u else u.cpsr)).setPc
          (blockWordAt s (blockRegs list) (blockStart s a list) 15#4)
      else u := by
  rw [ldmLoadPc, ldmWords, find?_map_fst]
  by_cases h : 15#4 ∈ blockRegs list
  · simp only [if_pos h, restoreCpsr_eq_restored]
    cases a.sbit <;> rfl
  · simp only [if_neg h]

theorem ldmLoadPc_readPhys (a : BlockAddressing) (list : BitVec 16) (s u : State) {p : PhysReg}
    (h : 15#4 ∈ blockRegs list → p ≠ .pc) : (ldmLoadPc a (ldmWords a list s) u).readPhys p = u.readPhys p := by
  rw [ldmLoadPc_ldmWords]
  by_cases h15 : 15#4 ∈ blockRegs list
  · rw [if_pos h15, State.readPhys_setPc, if_neg (h h15), State.setCpsr_readPhys]
  · rw [if_neg h15]

theorem ldmLoadPc_spsr (a : BlockAddressing) (list : BitVec 16) (s u : State) :
    (ldmLoadPc a (ldmWords a list s) u).spsr = u.spsr := by
  rw [ldmLoadPc_ldmWords]
  split <;> simp

theorem ldmLoadPc_mem (a : BlockAddressing) (list : BitVec 16) (s u : State) :
    (ldmLoadPc a (ldmWords a list s) u).mem = u.mem := by
  rw [ldmLoadPc_ldmWords]
  split <;> simp

theorem ldmLoadPc_cycles (a : BlockAddressing) (list : BitVec 16) (s u : State) :
    (ldmLoadPc a (ldmWords a list s) u).cycles = u.cycles := by
  rw [ldmLoadPc_ldmWords]
  split <;> simp

/-! ### The whole effect -/

/-- The state with the words read and the base written back. -/
def ldmBacked (a : BlockAddressing) (list : BitVec 16) (s : State) : State :=
  ldmWriteBack a list (blockFinal s a list) (s.afterReads (blockReads s (blockRegs list) (blockStart s a list)))

/-- The state LDM leaves before it loads R15. -/
def ldmBelow15 (a : BlockAddressing) (list : BitVec 16) (s : State) : State :=
  writeRegs (ldmWrite a list) (ldmWordsBelow a list s) (ldmBacked a list s)

theorem ldmEffect_eq (a : BlockAddressing) (list : BitVec 16) (s : State) :
    ldmEffect a list s =
      (ldmLoadPc a (ldmWords a list s) (ldmBelow15 a list s)).addCycles
        (2 + listCount list + (if loadsPc list then 2 else 0)) := by
  rw [ldmEffect, readBlock_eq (blockRegs_nodup list)]
  rfl

theorem ldmBacked_wrote (a : BlockAddressing) (list : BitVec 16) (s : State) :
    ∃ l, WroteRegs l (s.afterReads (blockReads s (blockRegs list) (blockStart s a list))) (ldmBacked a list s) ∧
      ∀ p, p ∈ l → LdmBacks a list ∧ p = route s.mode a.rn :=
  ldmWriteBack_wrote a list _ _

theorem ldmBelow15_eq_foldl (a : BlockAddressing) (list : BitVec 16) (s : State) :
    ldmBelow15 a list s =
      (ldmWordsBelow a list s).foldl (fun t p => t.writePhys (ldmTarget s a list p.1) p.2) (ldmBacked a list s) := by
  obtain ⟨l, hbacked, -⟩ := ldmBacked_wrote a list s
  have hmode : (ldmBacked a list s).mode = s.mode := State.mode_congr (congrArg Psr.m hbacked.cpsr)
  refine writeRegs_eq (ldmWrite a list) _ s.mode (fun _ _ v => ldmWrite_eq a list v) _ _ hmode fun p hp => ?_
  obtain ⟨-, h15, -⟩ := mem_ldmWordsBelow.1 hp
  exact h15

/-- What LDM leaves before it loads R15. -/
structure LoadedBelow15 (a : BlockAddressing) (list : BitVec 16) (s u : State) : Prop where
  word : ∀ i, i ∈ blockRegs list → i ≠ 15#4 →
    u.readPhys (ldmTarget s a list i) = blockWordAt s (blockRegs list) (blockStart s a list) i
  base : LdmBacks a list → u.readPhys (route s.mode a.rn) = blockFinal s a list
  other : ∀ p, (∀ i, i ∈ blockRegs list → i ≠ 15#4 → p ≠ ldmTarget s a list i) →
    (LdmBacks a list → p ≠ route s.mode a.rn) → u.readPhys p = s.readPhys p
  cpsr : u.cpsr = s.cpsr
  spsr : u.spsr = s.spsr
  block : ReadBlock (blockRegs list) (blockStart s a list) s u
  cycles : u.cycles = s.cycles

theorem ldmBelow15_loaded (a : BlockAddressing) (list : BitVec 16) (s : State) :
    LoadedBelow15 a list s (ldmBelow15 a list s) := by
  obtain ⟨l, hbacked, hl⟩ := ldmBacked_wrote a list s
  have hwrote := hbacked.trans
    (foldl_writePhys_wrote (ldmTarget s a list) (ldmWordsBelow a list s) (ldmBacked a list s))
  rw [ldmBelow15_eq_foldl]
  refine ⟨fun i hi h15 => ?word, fun hb => ?base, fun p hp hb => ?other, hwrote.cpsr, hwrote.frame.spsr, ?block,
    hwrote.cycles⟩
  case word =>
    exact foldl_writePhys_written _ (fun _ _ => ldmTarget_inj) (ldmWordsBelow_nodup a list s) _
      (mem_ldmWordsBelow.2 ⟨hi, h15, rfl⟩)
  case base =>
    rw [foldl_writePhys_read, ldmBacked, ldmWriteBack_of_backs hb]
    · simp
    · intro p hp e
      have hreg : a.rn = p.1 := by rw [← regNumOf_route s.mode a.rn, e, regNumOf_ldmTarget]
      exact hb.not_mem (hreg ▸ (mem_ldmWordsBelow.1 hp).1)
  case other =>
    refine (hwrote.frame.regs p fun hm => ?_).trans (State.afterReads_readPhys s _ p)
    rcases List.mem_append.1 hm with hm | hm
    · obtain ⟨hbacks, hbase⟩ := hl p hm
      exact hb hbacks hbase
    · obtain ⟨x, hx, e⟩ := List.mem_map.1 hm
      obtain ⟨hmem, h15, -⟩ := mem_ldmWordsBelow.1 hx
      exact hp x.1 hmem h15 e.symm
  case block =>
    refine readBlock_of_blockReads (blockRegs_nodup list) hwrote.mem hwrote.accesses (hwrote.reads.trans ?_)
    rw [State.afterReads_reads, blockReads_length]

theorem exec_armLdm {c : Cond} (a : BlockAddressing) (list : BitVec 16) {s : State} (hc : condPassed s.cpsr c = true) :
    exec (.armLdm c a list) s = .next (ldmEffect a list s) := by
  rw [exec, execArmLdm, armInstr_passed _ hc]

theorem LdmBacks.route_ne_pc {a : BlockAddressing} {list : BitVec 16} (h : LdmBacks a list) (m : Mode) :
    route m a.rn ≠ .pc := by
  obtain ⟨-, -, h15⟩ := h
  exact mt (route_eq_pc m a.rn).1 h15

/-- Settles O29: the state before R15 is loaded has the words and the base; the load of R15 writes CPSR and the PC
alone. -/
theorem loadMultiple : Obligations.LoadMultiple := by
  unfold Obligations.LoadMultiple
  intro c a list s hc regs start word backs
  have hu := ldmBelow15_loaded a list s
  obtain ⟨hhalted, hstopped, hcurrentPc, hcurrent, hbus⟩ := (InvKept.ldmEffect a list s).kept.environment
  refine ⟨_, exec_armLdm a list hc, fun i hi h15 => ?word, fun hb => ?base, fun h15 => ?pc, fun h15 => ?noPc,
    fun p hp hb => ?other, ?spsr, hhalted, hstopped, hcurrentPc, hcurrent, hbus, ⟨fun x => ?memory, ?accessed⟩, ?cycles⟩
  all_goals rw [ldmEffect_eq]
  case word =>
    have hne : ldmTarget s a list i ≠ .pc := mt (ldmTarget_eq_pc s a list i).1 h15
    rw [State.addCycles_readPhys, ldmLoadPc_readPhys _ _ _ _ fun _ => hne, hu.word i hi h15]
  case base =>
    rw [State.addCycles_readPhys, ldmLoadPc_readPhys _ _ _ _ fun _ => LdmBacks.route_ne_pc hb _, hu.base hb]
  case pc =>
    rw [ldmLoadPc_ldmWords, if_pos h15, restored_congr hu.cpsr hu.spsr, hu.cpsr]
    exact ⟨rfl, rfl⟩
  case noPc =>
    have hpc := hu.other .pc (fun i _ hi e => hi ((ldmTarget_eq_pc s a list i).1 e.symm))
      (fun hb e => hb.route_ne_pc s.mode e.symm)
    rw [ldmLoadPc_ldmWords, if_neg h15]
    exact ⟨hu.cpsr, hpc⟩
  case other =>
    have hpc (h15 : 15#4 ∈ regs) : p ≠ .pc := fun e => hp _ h15 (e.trans ((ldmTarget_eq_pc s a list _).2 rfl).symm)
    rw [State.addCycles_readPhys, ldmLoadPc_readPhys _ _ _ _ hpc, hu.other p (fun i hi _ => hp i hi) hb]
  case spsr => rw [State.addCycles_spsr, ldmLoadPc_spsr, hu.spsr]
  case memory => rw [State.addCycles_mem, ldmLoadPc_mem, hu.block.memory]
  case accessed =>
    obtain ⟨hacc, hreads⟩ := (NoAccess.refl (ldmBelow15 a list s)).ldmLoadPc a (ldmWords a list s)
    obtain ⟨hacc', hreads'⟩ := hu.block.accessed
    exact ⟨hacc.trans hacc', hreads.trans hreads'⟩
  case cycles =>
    rw [State.addCycles_cycles, ldmLoadPc_cycles, hu.cycles, ← Nat.add_assoc, ← Nat.add_assoc]
    simp only [loadsPc_iff]
    rfl

/-! ## STM -/

/-- A written-back base is stored as it was exactly where it is the lowest listed (R422). -/
theorem stmValue_eq (s : State) (a : BlockAddressing) (list : BitVec 16) {i : RegNum} (hi : i ∈ blockRegs list) :
    stmValue s a list i =
      if i = 15#4 then s.currentPc + 12
      else if i = a.rn ∧ a.wback = true ∧ (∃ j, j ∈ blockRegs list ∧ j.toNat < i.toNat) then blockFinal s a list
      else if a.sbit then s.userReg i else s.reg i := by
  unfold stmValue
  by_cases h15 : i = 15#4
  · rw [if_pos h15, if_pos h15]
  · have hregs : blockRegs list = listRegs list := if_neg fun h0 => h15 (by simpa [h0, blockRegs] using hi)
    have hlowest : i = a.rn → ((listRegs list).head? ≠ some a.rn ↔ ∃ j, j ∈ blockRegs list ∧ j.toNat < i.toNat) := by
      rintro rfl
      rw [← hregs]
      exact head?_ne_iff (blockRegs_ascending list) hi
    rw [if_neg h15, if_neg h15]
    exact if_congr (and_congr_right fun e => and_congr_right fun _ => hlowest e) rfl rfl

theorem exec_armStm {c : Cond} (a : BlockAddressing) (list : BitVec 16) {s : State} (hc : condPassed s.cpsr c = true) :
    exec (.armStm c a list) s = .next (stmEffect a list s) := by
  rw [exec, execArmStm, armInstr_passed _ hc]

/-- STM as its block of stores and its write-back. -/
theorem stmEffect_eq (a : BlockAddressing) (list : BitVec 16) (s : State) :
    stmEffect a list s =
      (if a.wback && a.rn != 15#4 then
        (writeBlock (stmValue s a list) (blockRegs list) (blockStart s a list) s).writePhys (route s.mode a.rn)
          (blockFinal s a list)
      else writeBlock (stmValue s a list) (blockRegs list) (blockStart s a list) s).addCycles (2 + listCount list) := by
  rw [stmEffect]
  congr 1
  split
  · next h =>
    obtain ⟨-, h15⟩ := Bool.and_eq_true_iff.1 h
    have h15 := bne_iff_ne.1 h15
    rw [State.setReg_eq, storedValue_of_ne _ _ h15, writeBlock_eq]
    simp
  · rfl

/-- Settles O30: the words of the block by slot; the write-back of the base comes after them. -/
theorem storeMultiple : Obligations.StoreMultiple := by
  unfold Obligations.StoreMultiple
  intro c a list s hc regs value backs
  refine ⟨_, exec_armStm a list hc, ?block, fun hb => ?base, ?frame, ?cycles⟩
  all_goals rw [stmEffect_eq, writeBlock_eq]
  case block =>
    refine storedBlock_congr (storedBlock_of_blockMem (blockRegs_nodup list) ?_ ?_ ?_) fun i hi =>
      stmValue_eq s a list hi
    all_goals split <;> simp
  case base =>
    obtain ⟨hw, h15⟩ := hb
    simp [hw, h15]
  case frame =>
    split
    · constructor <;> simp_all
    · constructor <;> simp
  case cycles => split <;> simp [listCount, Nat.add_assoc]

end Sys2Proof.Machine
end

section
/-! PROOFS. The PSR transfers, the undefined encodings, and what User mode cannot reach (45_arm_psr_swi.md R470 to R476;
48_thumb_branch.md R625; 60_exceptions.md R725). -/

namespace Sys2Proof.Machine

open Claims

/-! ## The undefined encodings -/

/-- An ARM instruction whose effect is one cycle does the same with a failed condition (R230, R476). -/
theorem armInstr_addCycles_one (c : Cond) (s : State) :
    armInstr c (fun s => s.addCycles 1) s = .next (s.addCycles 1) := by
  rw [armInstr, ite_self]

/-- Settles O24: four stand behind a condition, which makes no difference, two do not. -/
theorem undefinedEncodingsDoNothing : Obligations.UndefinedEncodingsDoNothing := by
  unfold Obligations.UndefinedEncodingsDoNothing
  intro i s hi
  split at hi
  case h_1 | h_2 | h_3 | h_4 => exact armInstr_addCycles_one _ s
  case h_5 | h_6 => rfl
  case h_7 => exact hi.elim

/-! ## MRS -/

/-- User and System mode have no SPSR to read (R42). -/
theorem Spsrs.get?_eq_none {m : Mode} (x : Spsrs) (h : m.hasSpsr = false) : x.get? m = none := by
  rw [← Option.isNone_iff_eq_none, ← Option.not_isSome, Spsrs.get?_isSome, h, Bool.not_false]

/-- In User and System mode the current SPSR reads as CPSR (R42). -/
theorem State.currentSpsr_of_not_hasSpsr {s : State} (h : s.mode.hasSpsr = false) : s.currentSpsr = s.cpsr := by
  rw [currentSpsr, Spsrs.get?_eq_none s.spsr h, Option.getD_none]

theorem State.currentSpsr_of_get? {s : State} {p : Psr} (h : s.spsr.get? s.mode = some p) : s.currentSpsr = p := by
  rw [currentSpsr, h, Option.getD_some]

/-- Settles O31: both end in a write of Rd, with CPSR or what the current SPSR reads as. -/
theorem statusReads : Obligations.StatusReads := by
  unfold Obligations.StatusReads
  intro c rd s hc result
  have completes {i : Instr} {v : Word} (hi : exec i s = .next ((s.setReg rd v).addCycles 1)) : result i v :=
    ⟨_, hi, by simp [storedValue, written], Frame.reg s rd v 1, fun _ => by simp,
      ((NoAccess.refl s).setReg rd v).addCycles 1, by simp⟩
  refine ⟨completes ?_, fun h => completes ?_, fun p h => completes ?_⟩
  · rw [exec, execArmMrsCpsr, armInstr_passed _ hc]
  · rw [exec, execArmMrsSpsr, armInstr_passed _ hc, State.currentSpsr_of_not_hasSpsr h]
  · rw [exec, execArmMrsSpsr, armInstr_passed _ hc, State.currentSpsr_of_get? h]

/-! ## MSR to CPSR -/

/-- The bits MSR may write of CPSR are the bytes R473 names. -/
theorem getLsbD_cpsrBytes (s : State) (mask : BitVec 4) {k : Nat} (hk : k < 32) :
    (cpsrBytes s mask).getLsbD k = cpsrByte s mask (k / 8) := by
  have hflags : ∀ j : Fin 32, (0xFF000000#32).getLsbD j = (j.val / 8 == 3) := by decide
  by_cases hm : s.mode = .user
  · simp [cpsrBytes, cpsrByte, hm, getLsbD_maskBytes mask k hk, hflags ⟨k, hk⟩]
  · simp [cpsrBytes, cpsrByte, hm, getLsbD_maskBytes mask k hk]

/-- The control byte is written whole or not at all. -/
theorem bits_cpsrBytes_control (s : State) (mask : BitVec 4) :
    bits (cpsrBytes s mask) 0 8 = 0xFF#8 ↔ cpsrByte s mask 0 = true := by
  have hones : ∀ j : Fin 8, (0xFF#8).getLsbD j = true := by decide
  have hbyte : ∀ k, k < 8 → (cpsrBytes s mask).getLsbD (0 + k) = cpsrByte s mask 0 := fun k hk => by
    rw [getLsbD_cpsrBytes s mask (by omega), Nat.zero_add, Nat.div_eq_of_lt hk]
  rw [bits_eq_iff]
  constructor
  · intro h
    rw [← hbyte 0 (by decide), h 0 (by decide)]
    exact hones 0
  · intro h k hk
    rw [hbyte k hk, h, hones ⟨k, hk⟩]

/-- The status word MSR asks for: the selected bytes of the operand over CPSR. -/
def msrMerged (mask : BitVec 4) (op : Word) (s : State) : Psr := mergeBytes (cpsrBytes s mask) s.cpsr op

theorem getLsbD_msrMerged (mask : BitVec 4) (op : Word) (s : State) {k : Nat} (hk : k < 32) :
    (msrMerged mask op s).getLsbD k = if cpsrByte s mask (k / 8) then op.getLsbD k else s.cpsr.getLsbD k := by
  rw [msrMerged, getLsbD_mergeBytes _ _ _ k hk, getLsbD_cpsrBytes s mask hk]

/-- With the control byte selected, the mode asked for is the operand's. -/
theorem m_msrMerged {mask : BitVec 4} {s : State} (op : Psr) (h : cpsrByte s mask 0 = true) :
    (msrMerged mask op s).m = op.m := by
  rw [Psr.m, bits_eq_iff]
  intro k hk
  rw [Nat.zero_add, getLsbD_msrMerged mask op s (by omega), Nat.div_eq_of_lt (by omega), if_pos h, Psr.m, getLsbD_bits]
  simp [hk]

/-- The status word with the control byte written but for its mode field (R472). -/
def msrControl (old new : Psr) : Psr :=
  let upper : Psr := pack (bits new 8 24 ++ bits old 0 8)
  ((upper.setI new.i).setF new.f).setT new.t

theorem getLsbD_msrControl (old new : Psr) {k : Nat} (h5 : 5 ≤ k) (hk : k < 32) :
    (msrControl old new).getLsbD k = new.getLsbD k := by
  rw [msrControl, Psr.setT, Psr.getLsbD_setBit _ _ _ _ (by decide), Psr.setF, Psr.getLsbD_setBit _ _ _ _ (by decide),
    Psr.setI, Psr.getLsbD_setBit _ _ _ _ (by decide), getLsbD_upperBytes _ _ hk]
  split_ifs with ht hf hi hlow
  · rw [ht, Psr.t]
  · rw [hf, Psr.f]
  · rw [hi, Psr.i]
  · omega
  · rfl

theorem m_msrControl (old new : Psr) : (msrControl old new).m = old.m := by
  rw [msrControl, Psr.m_setT, Psr.m_setF, Psr.m_setI, m_upperBytes]

/-- MSR to CPSR with the control byte selected: the mode field is written where the mode is valid (R472). -/
theorem msrCpsr_control {mask : BitVec 4} {s : State} (op : Psr) (h : cpsrByte s mask 0 = true) :
    (msrCpsr mask op s).cpsr =
      if (Mode.ofBits? op.m).isSome then (msrControl s.cpsr (msrMerged mask op s)).setM op.m
      else msrControl s.cpsr (msrMerged mask op s) := by
  have hm := m_msrMerged op h
  rw [msrMerged] at hm ⊢
  dsimp only [msrCpsr]
  rw [if_pos ((bits_cpsrBytes_control s mask).2 h), hm, State.switchMode_false, msrControl]
  split <;> rfl

theorem msrCpsr_no_control {mask : BitVec 4} {s : State} (op : Psr) (h : cpsrByte s mask 0 = false) :
    (msrCpsr mask op s).cpsr = pack (bits (msrMerged mask op s) 8 24 ++ bits s.cpsr 0 8) := by
  dsimp only [msrCpsr]
  rw [if_neg (by rw [bits_cpsrBytes_control, h]; decide)]
  rfl

/-- Every bit above the mode field is the operand's where MSR writes its byte. -/
theorem getLsbD_msrCpsr (mask : BitVec 4) (op : Psr) (s : State) {k : Nat} (h5 : 5 ≤ k) (hk : k < 32) :
    (msrCpsr mask op s).cpsr.getLsbD k = if cpsrByte s mask (k / 8) then op.getLsbD k else s.cpsr.getLsbD k := by
  rw [← getLsbD_msrMerged mask op s hk]
  cases h : cpsrByte s mask 0 with
  | true =>
    rw [msrCpsr_control op h]
    split
    · rw [Psr.getLsbD_setM, if_neg (by omega), getLsbD_msrControl _ _ h5 hk]
    · exact getLsbD_msrControl _ _ h5 hk
  | false =>
    rw [msrCpsr_no_control op h, getLsbD_upperBytes _ _ hk]
    split
    · rw [getLsbD_msrMerged mask op s hk, Nat.div_eq_of_lt ‹_›, h]; rfl
    · rfl

/-- The mode field is the operand's where the control byte is written and the mode is valid (R472). -/
theorem m_msrCpsr (mask : BitVec 4) (op : Psr) (s : State) :
    (msrCpsr mask op s).cpsr.m =
      if cpsrByte s mask 0 && (Mode.ofBits? op.m).isSome then op.m else s.cpsr.m := by
  cases h : cpsrByte s mask 0 with
  | true =>
    rw [msrCpsr_control op h, Bool.true_and]
    split
    · rw [Psr.m_setM]
    · rw [m_msrControl]
  | false => rw [msrCpsr_no_control op h, m_upperBytes]; rfl

/-- CPSR written, nothing else. -/
theorem Frame.setCpsr_allBits (s : State) (p : Psr) (n : Nat) : Frame [] allBits s ((s.setCpsr p).addCycles n) :=
  .cpsrOnly s p n fun k hk => by
    have hge : 32 ≤ k := by simpa [allBits] using hk
    rw [BitVec.getLsbD_of_ge _ _ hge, BitVec.getLsbD_of_ge _ _ hge]

/-- An instruction that ends as `msrCpsr` does what R472 and R473 say. -/
theorem msrCpsr_of_exec {i : Instr} {mask : BitVec 4} {op : Psr} {s : State}
    (hi : exec i s = .next ((msrCpsr mask op s).addCycles 1)) : MsrCpsr i mask op s := by
  refine ⟨_, hi, fun k h8 hk => getLsbD_msrCpsr mask op s (by omega) hk, fun k h5 hk => ?_, m_msrCpsr mask op s, ?_⟩
  · rw [← Nat.div_eq_of_lt hk]
    exact getLsbD_msrCpsr mask op s h5 (by omega)
  · obtain ⟨p, hp⟩ := msrCpsr_eq_setCpsr mask op s
    rw [hp]
    exact ⟨.setCpsr_allBits s p 1, fun _ => rfl, NoAccess.refl s, rfl⟩

/-- Settles O32: the two forms end as `msrCpsr`, with their operand. -/
theorem statusWrites : Obligations.StatusWrites := by
  unfold Obligations.StatusWrites
  intro c mask rm rot4 imm8 s hc
  refine ⟨msrCpsr_of_exec ?register, msrCpsr_of_exec ?immediate⟩
  case register => rw [exec, execArmMsrCpsrReg, armInstr_passed _ hc, State.armOp]
  case immediate => rw [exec, execArmMsrCpsrImm, armInstr_passed _ hc, rotatedImm, ror32]

/-! ## MSR to SPSR -/

/-- A write of an SPSR a mode does not have has no effect (R43). -/
theorem Spsrs.set_of_not_hasSpsr (x : Spsrs) {m : Mode} (v : Psr) (h : m.hasSpsr = false) : x.set m v = x := by
  cases m with
  | user | system => rfl
  | fiq | irq | supervisor | abort | undefined => cases h

/-- An instruction that ends as `msrSpsr` does what R474 and R43 say. -/
theorem msrSpsr_of_exec {i : Instr} {mask : BitVec 4} {op : Word} {s : State}
    (hi : exec i s = .next ((msrSpsr mask op s).addCycles 1)) : MsrSpsr i mask op s := by
  refine ⟨_, hi, fun m hm => s.spsr.get?_set_of_ne _ hm, fun hhas old hold => ?_, fun hnone => ?_,
    fun p => by simp [msrSpsr, State.setCurrentSpsr], rfl, rfl, rfl, rfl, rfl, rfl, fun _ => rfl,
    .msrSpsr mask op s, rfl⟩
  · refine ⟨mergeBytes (maskBytes mask) old op, ?_, fun k hk => ?_⟩
    · rw [← State.currentSpsr_of_get? hold]
      exact (Spsrs.get?_set ..).trans (if_pos hhas)
    · rw [getLsbD_mergeBytes _ _ _ k hk, getLsbD_maskBytes mask k hk]
  · exact Spsrs.set_of_not_hasSpsr s.spsr _ hnone

/-- Settles O33: the two forms end as `msrSpsr`, with their operand. -/
theorem savedStatusWrites : Obligations.SavedStatusWrites := by
  unfold Obligations.SavedStatusWrites
  intro c mask rm rot4 imm8 s hc
  refine ⟨msrSpsr_of_exec ?register, msrSpsr_of_exec ?immediate⟩
  case register => rw [exec, execArmMsrSpsrReg, armInstr_passed _ hc, State.armOp]
  case immediate => rw [exec, execArmMsrSpsrImm, armInstr_passed _ hc, rotatedImm, ror32]

/-! ## What User mode cannot reach -/

/-- An instruction other than SWI keeps what `Kept` says. -/
theorem exec_kept {i : Instr} {s t : State} (h : exec i s = .next t)
    (hswi : ¬ ((∃ c comment, i = .armSwi c comment) ∨ ∃ value8, i = .thumbSwi value8)) : Kept s t := by
  rcases exec_cases h with hk | ⟨-, mask, op, rfl⟩ | ⟨hi, -⟩
  · exact hk.kept
  · exact (Kept.msrCpsr mask op s).trans (.addCycles _ 1)
  · exact absurd hi hswi

/-- Settles O59: what an instruction other than SWI keeps, in User mode. -/
theorem userModeCannotReachOtherModes : Obligations.UserModeCannotReachOtherModes := by
  unfold Obligations.UserModeCannotReachOtherModes
  intro i s t huser h harm hthumb
  have hswi : ¬ ((∃ c comment, i = .armSwi c comment) ∨ ∃ value8, i = .thumbSwi value8) := by
    rintro (⟨c, comment, hi⟩ | ⟨value8, hi⟩)
    · exact harm c comment hi
    · exact hthumb value8 hi
  have hk := (exec_kept h hswi).user huser
  exact ⟨hk.fiq8, fun k hne => ⟨hk.sp k hne, hk.lr k hne⟩, hk.spsr, hk.m, hk.i, hk.f, hk.reserved⟩

end Sys2Proof.Machine
end

section
/-! PROOFS. Thumb formats 1 to 5 but BX: shifts, arithmetic, logic, comparisons, hi-register moves (46_thumb_alu.md R500
to R532). -/

namespace Sys2Proof.Machine

open Claims

/-! ## Flags -/

theorem FlagsAre.setNZ {s t : State} {v : Word} (h : t.cpsr = s.cpsr.setNZ v) :
    FlagsAre t v.msb (v == 0#32) s.cpsr.c s.cpsr.v := by
  constructor <;> simp [h]

/-- To set N and Z alone is to set all four flags, C and V to what they are. -/
theorem Psr.setNZCV_c_v (p : Psr) (v : Word) : p.setNZCV v p.c p.v = p.setNZ v := by
  apply BitVec.eq_of_getLsbD_eq
  intro k _
  rw [Psr.getLsbD_setNZCV, Psr.getLsbD_setNZ]
  obtain rfl | hc := eq_or_ne k 29
  · rfl
  obtain rfl | hv := eq_or_ne k 28
  · rfl
  rw [if_neg hc, if_neg hv]

/-! ## The end of an operation that writes a low register -/

theorem thumbWrite_readPhys_rd (rd : LowReg) (v : Word) (p : Psr) (n : Nat) (s : State) :
    (thumbWrite rd v p n s).readPhys (route s.mode (lowReg rd)) = v := by
  simp [thumbWrite]

theorem thumbWrite_sameMemory (rd : LowReg) (v : Word) (p : Psr) (n : Nat) (s : State) :
    SameMemory s (thumbWrite rd v p n s) := fun _ => by simp [thumbWrite]

theorem thumbWrite_cycles (rd : LowReg) (v : Word) (p : Psr) (n : Nat) (s : State) :
    (thumbWrite rd v p n s).cycles = s.cycles + n := by
  simp [thumbWrite]

/-! ## Each family as its end -/

theorem exec_thumbShiftOp (op : ThumbShiftOp) (s : State) :
    exec op.instr s =
      .next (thumbShift op.rd (op.result (fun i => s.reg (lowReg i)) s.cpsr.c) op.cycles s) := by
  cases op <;> rfl

theorem exec_thumbArith (op : ThumbArith) (s : State) :
    exec op.instr s = .next (thumbArithmetic op.rd (op.result (fun i => s.reg (lowReg i)) s.cpsr.c) s) := by
  cases op <;> rfl

theorem exec_thumbLogic (op : ThumbLogic) (s : State) :
    exec op.instr s =
      .next (thumbWrite op.rd (op.result fun i => s.reg (lowReg i))
        (s.cpsr.setNZ (op.result fun i => s.reg (lowReg i))) op.cycles s) := by
  cases op <;> rfl

/-- TST, which sets N and Z alone, ends as the others with the C and V it finds. -/
theorem exec_thumbCompareOp (op : ThumbCompareOp) (s : State) :
    exec op.instr s = .next (thumbCompare (arithmetic s (op.result s)).psr s) := by
  cases op with
  | tst rs rd =>
    rw [arithmetic, ThumbCompareOp.result, Psr.setNZCV_c_v]
    rfl
  | cmpImm8 | cmp | cmn | cmpHi => rfl

/-! ## The statements -/

/-- Settles O34: each shift ends as `thumbShift` of the shifter's result. -/
theorem thumbShifts : Obligations.ThumbShifts := by
  unfold Obligations.ThumbShifts
  intro op s r
  exact ⟨_, exec_thumbShiftOp op s, thumbWrite_readPhys_rd .., .logical rfl,
    Frame.regCpsr s _ _ _ _ (Psr.setNZC_other s.cpsr r.value r.carry), thumbWrite_sameMemory _ _ _ _ s, .thumbWrite ..,
    thumbWrite_cycles ..⟩

/-- Settles O35: each operation ends as the model's `thumbArithmetic` of the ALU's result. -/
theorem thumbArithmeticOperations : Obligations.ThumbArithmetic := by
  unfold Obligations.ThumbArithmetic
  intro op s r
  exact ⟨_, exec_thumbArith op s, thumbWrite_readPhys_rd .., .arithmetic rfl,
    Frame.regCpsr s _ _ _ _ (Psr.setNZCV_other s.cpsr r.value r.carry r.overflow), thumbWrite_sameMemory _ _ _ _ s,
    .thumbWrite .., thumbWrite_cycles ..⟩

/-- Settles O36: each operation ends as `thumbWrite` of its result and the status with N and Z of it. -/
theorem thumbLogicAndMultiply : Obligations.ThumbLogicAndMultiply := by
  unfold Obligations.ThumbLogicAndMultiply
  intro op s v
  exact ⟨_, exec_thumbLogic op s, thumbWrite_readPhys_rd .., .setNZ rfl,
    Frame.regCpsr s _ _ _ _ (Psr.setNZ_other s.cpsr v), thumbWrite_sameMemory _ _ _ _ s, .thumbWrite ..,
    thumbWrite_cycles ..⟩

/-- Settles O37: each comparison writes the status of its result alone. -/
theorem thumbComparisonsSetFlagsAlone : Obligations.ThumbComparisonsSetFlagsAlone := by
  unfold Obligations.ThumbComparisonsSetFlagsAlone
  intro op s r
  exact ⟨_, exec_thumbCompareOp op s, .arithmetic rfl,
    Frame.cpsrOnly s _ 1 (Psr.setNZCV_other s.cpsr r.value r.carry r.overflow), fun _ => rfl, .thumbCompare .., rfl⟩

/-- Settles O38: both end in a write of Rd, with R15 read as cur + 4. -/
theorem thumbHiRegisterMoves : Obligations.ThumbHiRegisterMoves := by
  unfold Obligations.ThumbHiRegisterMoves
  intro rs rd s x result
  have completes {i : Instr} {v : Word}
      (hi : exec i s = .next ((s.setReg rd v).addCycles (if rd = 15#4 then 3 else 1))) : result i v :=
    ⟨_, hi, by simp [storedValue, written], Frame.reg s rd v _, fun _ => by simp,
      ((NoAccess.refl s).setReg rd v).addCycles _, by simp⟩
  exact ⟨completes rfl, completes rfl⟩

end Sys2Proof.Machine
end

section
/-! PROOFS. Thumb formats 6 to 13: single transfers, addresses from PC and SP, SP adjustment (47_thumb_load_store.md R560
to R581). -/

namespace Sys2Proof.Machine

open Claims

/-! ## Addresses -/

theorem immOffsetAddress_eq (s : State) (offset5 : BitVec 5) {k : Nat} (hk : k ≤ 27) (rb : LowReg) :
    immOffsetAddress s offset5 k rb = s.reg (lowReg rb) + BitVec.ofNat 32 (offset5.toNat * 2 ^ k) := by
  rw [immOffsetAddress, scaled_eq offset5 k (by omega)]

theorem scaled_words {n : Nat} (imm : BitVec n) (hn : n ≤ 30) : scaled imm 2 = BitVec.ofNat 32 (imm.toNat * 4) :=
  scaled_eq imm 2 (by omega)

/-- The address of a PC-relative load is a word address (R561). -/
theorem pcRelative_aligned (a : Word) (n : Nat) : (align .word a + BitVec.ofNat 32 (n * 4)).toNat % 4 = 0 := by
  rw [BitVec.toNat_add, align_word_toNat, BitVec.toNat_ofNat]
  omega

/-- Nothing rotates at a word address (R561). -/
theorem ldrValue_of_aligned {s : State} {addr : Word} (h : addr.toNat % 4 = 0) : ldrValue s addr = wordAt s addr := by
  simp [ldrValue, h, BitVec.rotateRight, BitVec.rotateRightAux]

/-! ## Transfers -/

theorem thumbLoads_of_thumbLoad (k : LoadKind) {i : Instr} {s : State} {a addr : Word} {rd : LowReg} {value : Word}
    {access : BusAccess} (hi : exec i s = .next (thumbLoad k a rd s)) (haddr : a = addr)
    (hvalue : loadedValue s k addr = value) (haccess : readRecord s (loadWidth k addr) addr = access) :
    ThumbLoads i s rd value [access] := by
  rw [thumbLoad, State.loadValue_eq, haddr, hvalue, haccess] at hi
  refine ⟨_, hi, ?value, ?frame, fun _ => ?memory, ?accesses, ?cycles⟩
  case value => simp
  case frame => constructor <;> simp_all
  case memory => simp
  case accesses => exact .afterReads (by simp [← haccess, readRecord]) (by simp) (by simp)
  case cycles => simp

theorem thumbStores_of_thumbStore {i : Instr} {s : State} {w : Width} {a addr : Word} {rd : LowReg}
    (hi : exec i s = .next (thumbStore w a rd s)) (haddr : a = addr) : ThumbStores i s w addr rd := by
  rw [thumbStore, haddr] at hi
  refine ⟨_, hi, Memory.stored rfl, ?frame, ?accesses, rfl⟩
  case frame => constructor <;> simp
  case accesses => exact .writes (by simp [writeOf]) (by simp [writeOf_eq]) rfl

/-! ## The statements -/

/-- Settles O39: each of the ten ends as `thumbLoad` of its kind, whose value and access are those of its rule. -/
theorem thumbLoadForms : Obligations.ThumbLoadForms := by
  unfold Obligations.ThumbLoadForms
  intro ro rb rd offset5 word8 s base reg imm pcRel spRel
  have himm (k : Nat) (hk : k ≤ 27) : immOffsetAddress s offset5 k rb = imm (2 ^ k) :=
    immOffsetAddress_eq s offset5 hk rb
  have hpc : s.thumbPcBase + scaled word8 2 = pcRel := congrArg (_ + ·) (scaled_words word8 (by decide))
  have hsp : s.reg 13#4 + scaled word8 2 = spRel := congrArg (_ + ·) (scaled_words word8 (by decide))
  have hpcValue : loadedValue s .word pcRel = wordAt s pcRel :=
    (loadedValue_word s pcRel).trans (ldrValue_of_aligned (pcRelative_aligned (s.currentPc + 4) word8.toNat))
  exact ⟨thumbLoads_of_thumbLoad .word rfl hpc hpcValue rfl,
    thumbLoads_of_thumbLoad .word rfl rfl (loadedValue_word s reg) rfl,
    thumbLoads_of_thumbLoad .byte rfl rfl (loadedValue_byte s reg) rfl,
    thumbLoads_of_thumbLoad .signedByte rfl rfl (loadedValue_signedByte s reg) rfl,
    thumbLoads_of_thumbLoad .half rfl rfl (loadedValue_half s reg) rfl,
    thumbLoads_of_thumbLoad .signedHalf rfl rfl (loadedValue_signedHalf s reg) (readRecord_signedHalf s reg),
    thumbLoads_of_thumbLoad .word rfl (himm 2 (by decide)) (loadedValue_word s (imm 4)) rfl,
    thumbLoads_of_thumbLoad .byte rfl (himm 0 (by decide)) (loadedValue_byte s (imm 1)) rfl,
    thumbLoads_of_thumbLoad .half rfl (himm 1 (by decide)) (loadedValue_half s (imm 2)) rfl,
    thumbLoads_of_thumbLoad .word rfl hsp (loadedValue_word s spRel) rfl⟩

/-- Settles O40: each of the seven ends as `thumbStore` of its width. -/
theorem thumbStoreForms : Obligations.ThumbStoreForms := by
  unfold Obligations.ThumbStoreForms
  intro ro rb rd offset5 word8 s base reg imm spRel
  have himm (k : Nat) (hk : k ≤ 27) : immOffsetAddress s offset5 k rb = imm (2 ^ k) :=
    immOffsetAddress_eq s offset5 hk rb
  have hsp : s.reg 13#4 + scaled word8 2 = spRel := congrArg (_ + ·) (scaled_words word8 (by decide))
  exact ⟨thumbStores_of_thumbStore rfl rfl, thumbStores_of_thumbStore rfl rfl, thumbStores_of_thumbStore rfl rfl,
    thumbStores_of_thumbStore rfl (himm 2 (by decide)), thumbStores_of_thumbStore rfl (himm 0 (by decide)),
    thumbStores_of_thumbStore rfl (himm 1 (by decide)), thumbStores_of_thumbStore rfl hsp⟩

/-- Settles O41: each of the four ends in a write of one register that is not R15. -/
theorem thumbAddressGeneration : Obligations.ThumbAddressGeneration := by
  unfold Obligations.ThumbAddressGeneration
  intro rd word8 sword7 s result sp
  have completes {i : Instr} {d : RegNum} {v w : Word} (hd : d ≠ 15#4)
      (hi : exec i s = .next ((s.setReg d v).addCycles 1)) (hv : v = w) : result i d w := by
    rw [hv] at hi
    exact ⟨_, hi, by simp [storedValue, hd], Frame.reg s d w 1, fun _ => by simp,
      ((NoAccess.refl s).setReg d w).addCycles 1, by simp⟩
  have hword := scaled_words word8 (by decide)
  have hsword := scaled_words sword7 (by decide)
  exact ⟨completes (lowReg_ne_15 rd) rfl (congrArg (s.thumbPcBase + ·) hword),
    completes (lowReg_ne_15 rd) rfl (congrArg (sp + ·) hword), completes (by decide) rfl (congrArg (sp + ·) hsword),
    completes (by decide) rfl (congrArg (sp - ·) hsword)⟩

end Sys2Proof.Machine
end

section
/-! PROOFS. Thumb formats 14 and 15: PUSH, POP, STMIA, LDMIA and their empty lists (47_thumb_load_store.md R582 to
R586). -/

namespace Sys2Proof.Machine

open Claims

/-! ## Register lists -/

theorem listRegs_nodup (list : BitVec 8) : (listRegs list).Nodup :=
  nodup_of_ascending (listRegs_ascending (by decide) list)

/-- The last register of PUSH and POP, LR or the PC, is not in the list of low registers. -/
theorem not_mem_listRegs (list : BitVec 8) {i : RegNum} (hi : 8 ≤ i.toNat) : i ∉ listRegs list := fun h => by
  rw [mem_listRegs (by decide), BitVec.getLsbD_of_ge list i.toNat hi] at h
  cases h

theorem listRegs_append_nodup (extra : Bool) (list : BitVec 8) {i : RegNum} (hi : 8 ≤ i.toNat) :
    (listRegs list ++ (if extra then [i] else [])).Nodup := by
  have hlist := listRegs_nodup list
  cases extra with
  | false => simpa using hlist
  | true => exact List.concat_eq_append ▸ hlist.concat (not_mem_listRegs list hi)

theorem listRegs_append_length (extra : Bool) (list : BitVec 8) (i : RegNum) :
    (listRegs list ++ (if extra then [i] else [])).length = stackCount extra list := by
  cases extra <;> simp [stackCount, listRegs_length]

theorem lowReg_mem_listRegs (rb : LowReg) (list : BitVec 8) :
    lowReg rb ∈ listRegs list ↔ list.getLsbD rb.toNat = true := by
  have hnum : (lowReg rb).toNat = rb.toNat := BitVec.toNat_setWidth_of_le (by decide)
  rw [mem_listRegs (by decide), hnum]

/-- A list with a register, or with LR or the PC, is not refused (R586). -/
theorem stackCount_ne_zero_of_or {extra : Bool} {list : BitVec 8} (h : extra = true ∨ list ≠ 0#8) :
    stackCount extra list ≠ 0 := by
  cases extra with
  | false => exact mt (listCount_eq_zero list).1 (h.resolve_left (by decide))
  | true => exact Nat.succ_ne_zero _

/-! ## Frames -/

theorem Frame.trans {regs regs' : List PhysReg} {l l' : List Nat} {s t u : State} (h : Frame regs l s t)
    (h' : Frame regs' l' t u) : Frame (regs ++ regs') (l ++ l') s u where
  regs p hp := by
    obtain ⟨hl, hr⟩ := not_or.1 (mt List.mem_append.2 hp)
    rw [h'.regs p hr, h.regs p hl]
  cpsr k hk := by
    obtain ⟨hl, hr⟩ := not_or.1 (mt List.mem_append.2 hk)
    rw [h'.cpsr k hr, h.cpsr k hl]
  spsr := h'.spsr.trans h.spsr
  halted := h'.halted.trans h.halted
  stopped := h'.stopped.trans h.stopped
  currentPc := h'.currentPc.trans h.currentPc
  currentInstruction := h'.currentInstruction.trans h.currentInstruction
  bus := h'.bus.trans h.bus

theorem Frame.mono {regs regs' : List PhysReg} {l : List Nat} {s t : State} (h : Frame regs l s t)
    (hsub : regs ⊆ regs') : Frame regs' l s t :=
  { h with regs := fun p hp => h.regs p (mt (@hsub p) hp) }

theorem Frame.addCycles {regs : List PhysReg} {l : List Nat} {s t : State} (h : Frame regs l s t) (n : Nat) :
    Frame regs l s (t.addCycles n) :=
  { h with regs := fun p hp => (State.addCycles_readPhys t n p).trans (h.regs p hp) }

/-- What leaves bits 4..0 of CPSR leaves the mode. -/
theorem Frame.mode {regs : List PhysReg} {l : List Nat} {s t : State} (h : Frame regs l s t)
    (hl : ∀ k, k ∈ l → 5 ≤ k) : t.mode = s.mode := by
  refine State.mode_congr (BitVec.eq_of_getLsbD_eq fun k hk => ?_)
  simpa [Psr.m, hk] using h.cpsr k fun hm => absurd (hl k hm) (by omega)

/-! ## The stores of PUSH and STMIA -/

/-- A block of stores, then the base. -/
theorem storesBlock_of_writeBlock {i : Instr} {s : State} {value : RegNum → Word} {regs : List RegNum}
    {start final : Word} {base : RegNum} (hnd : regs.Nodup) (hbase : base ≠ 15#4)
    (hi : exec i s = .next (((writeBlock value regs start s).setReg base final).addCycles 2)) :
    ∃ t, exec i s = .next t ∧ StoredBlock regs start value s t ∧ t.readPhys (route s.mode base) = final ∧
      Frame [route s.mode base] [] s t ∧ t.cycles = s.cycles + 2 := by
  rw [writeBlock_eq] at hi
  refine ⟨_, hi, storedBlock_of_blockMem hnd (by simp) (by simp) (by simp), ?base, ?frame, by simp⟩
  case base => simp [storedValue, hbase]
  case frame => constructor <;> simp_all

/-- A listed base is stored as it was exactly where it is the lowest (R584). -/
theorem stmiaValue_eq (s : State) (rb : LowReg) (list : BitVec 8) {i : RegNum} (hi : i ∈ listRegs list) :
    stmiaValue s rb list i =
      if i = lowReg rb ∧ (∃ j, j ∈ listRegs list ∧ j.toNat < i.toNat) then
        s.reg (lowReg rb) + wordsSize (listCount list)
      else s.reg i := by
  have hlowest : i = lowReg rb →
      ((listRegs list).head? ≠ some (lowReg rb) ↔ ∃ j, j ∈ listRegs list ∧ j.toNat < i.toNat) := by
    rintro rfl
    exact head?_ne_iff (listRegs_ascending (by decide) list) hi
  exact if_congr (and_congr_right hlowest) rfl rfl

/-! ## The loads of POP and LDMIA -/

/-- The words of one list do not depend on the registers listed after it. -/
theorem blockWordAt_append (s : State) {regs : List RegNum} (more : List RegNum) (start : Word) {i : RegNum}
    (hi : i ∈ regs) : blockWordAt s (regs ++ more) start i = blockWordAt s regs start i := by
  simp only [blockWordAt, slotAddress, slot, List.idxOf_append_of_mem hi]

/-- The slot of a register listed last. -/
theorem slot_append_last {regs : List RegNum} {i : RegNum} (hi : i ∉ regs) : slot (regs ++ [i]) i = regs.length := by
  rw [slot, List.idxOf_append_of_notMem hi, List.idxOf_cons_self, Nat.add_zero]

/-- The read of a register listed last. -/
theorem blockReads_append_last (s : State) {regs : List RegNum} {i : RegNum} (hnd : (regs ++ [i]).Nodup)
    (hi : i ∉ regs) (start : Word) :
    blockReads s (regs ++ [i]) start =
      blockReads s regs start ++ [readOf (later s regs.length) .word (start + wordsSize regs.length)] := by
  rw [blockReads_eq_readOf s hnd, blockReads_eq_readOf s hnd.of_append_left, List.map_append, List.map_singleton,
    slotAddress, slot_append_last hi]
  congr 1
  exact List.map_congr_left fun j hj => by simp only [slotAddress, slot, List.idxOf_append_of_mem hj]

/-- The loads over, memory and the bus are left alone. -/
theorem readBlock_then_noAccess {regs : List RegNum} {start : Word} {s t u : State} (h : ReadBlock regs start s t)
    (hmem : SameMemory t u) (hacc : NoAccess t u) : ReadBlock regs start s u where
  memory x := (hmem x).trans (h.memory x)
  accessed := by
    obtain ⟨ha, hr⟩ := h.accessed
    obtain ⟨ha', hr'⟩ := hacc
    exact ⟨ha'.trans ha, hr'.trans hr⟩

/-- What the loads of a block of registers leave, before the base is written: the words, and of CPSR at most
`bitsWritten` changed. What the PC is loaded with is not said here. -/
structure BlockLoaded (regs : List RegNum) (start : Word) (bitsWritten : List Nat) (s u : State) : Prop where
  word : ∀ i, i ∈ regs → i ≠ 15#4 → u.readPhys (route s.mode i) = blockWordAt s regs start i
  frame : Frame (regs.map (route s.mode)) bitsWritten s u
  block : ReadBlock regs start s u
  cycles : u.cycles = s.cycles

theorem loadRegs_blockLoaded (list : BitVec 8) (start : Word) (s : State) :
    BlockLoaded (listRegs list) start [] s (loadRegs (listRegs list) start s) :=
  have h := listRegs_loaded list start s
  ⟨fun i hi _ => h.value i hi, h.frame, readBlock_of_blockReads (listRegs_nodup list) h.mem h.accesses h.reads,
    h.cycles⟩

/-- The base written last, where it is not loaded. -/
theorem BlockLoaded.setBase {regs : List RegNum} {start : Word} {l : List Nat} {s u t : State} {base : RegNum}
    {final : Word} {n : Nat} (h : BlockLoaded regs start l s u) (hl : ∀ k, k ∈ l → 5 ≤ k) (hbase : base ∉ regs)
    (h15 : base ≠ 15#4) (ht : t = (u.setReg base final).addCycles n) :
    (∀ i, i ∈ regs → i ≠ 15#4 → t.readPhys (route s.mode i) = blockWordAt s regs start i) ∧
      t.readPhys (route s.mode base) = final ∧ Frame (regs.map (route s.mode) ++ [route s.mode base]) l s t ∧
      ReadBlock regs start s t ∧ t.cycles = s.cycles + n := by
  subst ht
  have hmode : u.mode = s.mode := h.frame.mode hl
  refine ⟨fun i hi hi15 => ?word, ?base, ?frame, ?block, ?cycles⟩
  case word =>
    have hne : i ≠ base := fun e => hbase (e ▸ hi)
    rw [State.addCycles_readPhys, State.readPhys_setReg, hmode, if_neg (mt (route_inj _ _ _).1 hne), h.word i hi hi15]
  case base => rw [State.addCycles_readPhys, State.readPhys_setReg, hmode, if_pos rfl, storedValue_of_ne _ _ h15]
  case frame =>
    have hset := Frame.reg u base final n
    rw [hmode] at hset
    simpa using h.frame.trans hset
  case block =>
    exact readBlock_then_noAccess h.block (fun _ => by simp) (((NoAccess.refl u).setReg base final).addCycles n)
  case cycles => rw [State.addCycles_cycles, State.setReg_cycles, h.cycles]

/-! ## The load of the PC -/

theorem Frame.branchExchange (s : State) (v : Word) : Frame [.pc] [5] s (s.branchExchange v) := by
  have h := (branchExchange_branched s v).frame
  exact ⟨h.regs, h.cpsr, h.spsr, h.halted, h.stopped, h.currentPc, h.currentInstruction, h.bus⟩

theorem Frame.afterReads (s : State) (l : List BusAccess) : Frame [] [] s (s.afterReads l) := by
  constructor <;> simp

section

variable {regs : List RegNum} {start : Word} {s t : State}

/-- After the loads of `regs` the next read is the last of a block with one register more. -/
theorem LoadedRegs.memRead_last (h : LoadedRegs regs start s t) {i : RegNum} (hi : i ∉ regs) :
    t.memRead .word (start + wordsSize regs.length) =
      (blockWordAt s (regs ++ [i]) start i,
        t.afterReads [readOf (later s regs.length) .word (start + wordsSize regs.length)]) := by
  have hreads : t.reads = (later s regs.length).reads := h.reads
  rw [State.memRead_eq, readRecord_congr (s := later s regs.length) h.frame.bus h.mem hreads,
    State.busRead_congr (s := later s regs.length) h.frame.bus h.mem hreads, blockWordAt, slotAddress,
    slot_append_last hi]
  rfl

/-- A read and a load of the PC from it, as POP ends its loads (R583). -/
theorem LoadedRegs.then_branchExchange (h : LoadedRegs regs start s t) (hnd : (regs ++ [15#4]).Nodup)
    (h15 : 15#4 ∉ regs) (w : Word) :
    BlockLoaded (regs ++ [15#4]) start [5] s
      ((t.afterReads [readOf (later s regs.length) .word (start + wordsSize regs.length)]).branchExchange w) := by
  have hpc := (Frame.afterReads t [readOf (later s regs.length) .word (start + wordsSize regs.length)]).trans
    (Frame.branchExchange _ w)
  refine ⟨fun i hi hi15 => ?word, ?frame, readBlock_of_blockReads hnd h.mem ?accesses ?reads, h.cycles⟩
  case word =>
    have hmem : i ∈ regs := (List.mem_append.1 hi).resolve_right (by simpa using hi15)
    have hne : route s.mode i ∉ [] ++ [PhysReg.pc] := by simpa [route_eq_pc] using hi15
    rw [hpc.regs _ hne, h.value i hmem, blockWordAt_append s _ _ hmem]
    rfl
  case frame => simpa using h.frame.trans hpc
  case accesses =>
    rw [blockReads_append_last s hnd h15, ← List.append_assoc, ← h.accesses]
    rfl
  case reads =>
    rw [List.length_append, ← Nat.add_assoc, ← h.reads]
    rfl

end

/-! ## POP -/

/-- The state POP leaves before it moves SP. -/
def popLoaded (pc : Bool) (list : BitVec 8) (s : State) : State :=
  let s1 := loadRegs (listRegs list) (s.reg 13#4) s
  if pc then
    let r := s1.memRead .word (s.reg 13#4 + wordsSize (listCount list))
    r.2.branchExchange r.1
  else s1

/-- The word POP reads for the PC: the last of its block. -/
def popPcWord (list : BitVec 8) (s : State) : Word := blockWordAt s (listRegs list ++ [15#4]) (s.reg 13#4) 15#4

theorem popLoaded_true (list : BitVec 8) (s : State) :
    popLoaded true list s =
      ((loadRegs (listRegs list) (s.reg 13#4) s).afterReads
        [readOf (later s (listRegs list).length) .word (s.reg 13#4 + wordsSize (listRegs list).length)]).branchExchange
          (popPcWord list s) := by
  have hread := (listRegs_loaded list (s.reg 13#4) s).memRead_last (not_mem_listRegs list (i := 15#4) (by decide))
  rw [popLoaded, if_pos rfl, ← listRegs_length, hread]
  rfl

theorem popLoaded_blockLoaded (pc : Bool) (list : BitVec 8) (s : State) :
    BlockLoaded (listRegs list ++ (if pc then [15#4] else [])) (s.reg 13#4) (if pc then [5] else []) s
      (popLoaded pc list s) := by
  cases pc with
  | false => exact (List.append_nil (listRegs list)).symm ▸ loadRegs_blockLoaded list (s.reg 13#4) s
  | true =>
    rw [popLoaded_true]
    exact (listRegs_loaded list (s.reg 13#4) s).then_branchExchange (listRegs_append_nodup true list (by decide))
      (not_mem_listRegs list (by decide)) _

theorem popLoaded_t_pc (list : BitVec 8) (s : State) :
    (popLoaded true list s).cpsr.t = (popPcWord list s).getLsbD 0 ∧
      (popLoaded true list s).pc = maskPc (popLoaded true list s).cpsr.t (popPcWord list s) := by
  rw [popLoaded_true]
  exact ⟨State.t_branchExchange .., rfl⟩

/-! ## The statements -/

/-- Settles O42: the block of stores, then SP, which is not stored. -/
theorem pushStoresBelowSp : Obligations.PushStoresBelowSp := by
  unfold Obligations.PushStoresBelowSp
  intro lr list s h regs bottom
  have hbottom : bottom = s.reg 13#4 - wordsSize (stackCount lr list) :=
    congrArg (s.reg 13#4 - wordsSize ·) (listRegs_append_length lr list 14#4)
  refine storesBlock_of_writeBlock (listRegs_append_nodup lr list (by decide)) (by decide) ?_
  rw [exec, execThumbPush, if_neg (stackCount_ne_zero_of_or h), pushEffect, hbottom]
  rfl

/-- Settles O44: the block of stores, then the base; what is stored of a listed base is `stmiaValue_eq`. -/
theorem stmiaStoresAndAdvances : Obligations.StmiaStoresAndAdvances := by
  unfold Obligations.StmiaStoresAndAdvances
  intro rb list s h regs base final value
  have hfinal : final = base + wordsSize (listCount list) :=
    congrArg (base + wordsSize ·) (listRegs_length list)
  have hi : exec (.thumbStmia rb list) s =
      .next (((writeBlock (stmiaValue s rb list) regs base s).setReg (lowReg rb) final).addCycles 2) := by
    rw [exec, execThumbStmia, if_neg (mt (listCount_eq_zero list).1 h), stmiaEffect, hfinal]
  obtain ⟨t, hexec, hblock, hrest⟩ := storesBlock_of_writeBlock (listRegs_nodup list) (lowReg_ne_15 rb) hi
  refine ⟨t, hexec, storedBlock_congr hblock fun i hm => ?_, hrest⟩
  rw [stmiaValue_eq s rb list hm, ← hfinal]

/-- Settles O43: the block of loads, the PC with its T last; then SP, which is not loaded. -/
theorem popLoadsFromSp : Obligations.PopLoadsFromSp := by
  unfold Obligations.PopLoadsFromSp
  intro pc list s h regs bottom word
  have hu := popLoaded_blockLoaded pc list s
  have hbits : ∀ k, k ∈ (if pc then [5] else []) → 5 ≤ k := by cases pc <;> simp
  have hsp : 13#4 ∉ regs := by cases pc <;> simp [regs, not_mem_listRegs]
  have hi : exec (.thumbPop pc list) s =
      .next (((popLoaded pc list s).setReg 13#4 (bottom + wordsSize regs.length)).addCycles 3) := by
    rw [exec, execThumbPop, if_neg (stackCount_ne_zero_of_or h), listRegs_append_length]
    rfl
  obtain ⟨hword, hbase, hrest⟩ := hu.setBase hbits hsp (by decide) rfl
  refine ⟨_, hi, fun i hm => hword i (List.mem_append_left _ hm) (ne_15_of_mem_listRegs hm), ?target, hbase, hrest⟩
  case target =>
    rintro rfl
    rw [State.addCycles_pc, State.addCycles_cpsr, State.setReg_cpsr, State.setReg_pc, if_neg (by decide)]
    exact popLoaded_t_pc list s

/-- Settles O45: the block of loads, then the base where it is not loaded. -/
theorem ldmiaLoadsAndAdvances : Obligations.LdmiaLoadsAndAdvances := by
  unfold Obligations.LdmiaLoadsAndAdvances
  intro rb list s h regs base
  have hu := loadRegs_blockLoaded list base s
  have hi : exec (.thumbLdmia rb list) s = .next (ldmiaEffect rb list s) :=
    if_neg (mt (listCount_eq_zero list).1 h)
  rw [ldmiaEffect, ← listRegs_length] at hi
  by_cases hm : lowReg rb ∈ regs
  · rw [if_pos ((lowReg_mem_listRegs rb list).1 hm)] at hi
    exact ⟨_, hi, fun i hr => hu.word i hr (ne_15_of_mem_listRegs hr), fun hn => absurd hm hn,
      (hu.frame.mono (List.subset_cons_self _ _)).addCycles 3,
      readBlock_then_noAccess hu.block (fun _ => rfl) ((NoAccess.refl _).addCycles 3), congrArg (· + 3) hu.cycles⟩
  · rw [if_neg (mt (lowReg_mem_listRegs rb list).2 hm)] at hi
    obtain ⟨hword, hbase, hframe, hrest⟩ := hu.setBase (by simp) hm (lowReg_ne_15 rb) rfl
    exact ⟨_, hi, fun i hr => hword i hr (ne_15_of_mem_listRegs hr), fun _ => hbase,
      hframe.mono (List.perm_append_singleton _ _).subset, hrest⟩

/-- Settles O48: the decoder computes on each of the eight base registers; a count of 0 refuses. -/
theorem emptyThumbListsAreRefused : Obligations.EmptyThumbListsAreRefused := by
  unfold Obligations.EmptyThumbListsAreRefused
  intro rb s
  obtain ⟨hstmia, hldmia⟩ : decodeThumb (0xC000#16 ||| rb.setWidth 16 <<< 8) = .thumbStmia rb 0#8 ∧
      decodeThumb (0xC800#16 ||| rb.setWidth 16 <<< 8) = .thumbLdmia rb 0#8 := by
    revert rb
    decide
  exact ⟨by decide, by decide, hstmia, hldmia, rfl, rfl, rfl, rfl⟩

end Sys2Proof.Machine
end

section
/-! PROOFS. Exceptions: the entry, the restore after it, the IRQ input, SWI, and the one way out of User mode
(60_exceptions.md R706 to R711, R726, R741; 45_arm_psr_swi.md R475; 48_thumb_branch.md R621). -/

namespace Sys2Proof.Claims.Entered

open Machine

/-! ## What an entry leaves -/

variable {vector lr v : Word} {m : Mode} {s t : State}

theorem addCycles (h : Entered vector m lr s t) (n : Nat) : Entered vector m lr s (t.addCycles n) :=
  { h with regs := fun p hpc hlr => (State.addCycles_readPhys t n p).trans (h.regs p hpc hlr) }

theorem setHalted (h : Entered vector m lr s t) (b : Bool) : Entered vector m lr s (t.setHalted b) :=
  { h with regs := fun p hpc hlr => (State.setHalted_readPhys t b p).trans (h.regs p hpc hlr) }

/-- A value in the entered mode's LR before the entry is lost in it: the LR that R710 and R711 write first. -/
theorem of_lr_written (h : Entered vector m lr (s.writePhys (.lr m.bankKey) v) t) : Entered vector m lr s t :=
  { h with regs := fun p hpc hlr => by rw [h.regs p hpc hlr, State.readPhys_writePhys, if_neg hlr] }

theorem mode_eq (h : Entered vector m lr s t) : t.mode = m := by
  rw [State.mode, h.mode, Mode.ofBits?_toBits, Option.getD_some]

/-- The restore finds the old CPSR in the SPSR of the entered mode and takes it whole, its mode being valid (R741). -/
theorem restoreCpsr_eq (h : Entered vector m lr s t) (hm : m.hasSpsr = true) (hs : s.modeValid = true) :
    t.restoreCpsr = t.setCpsr s.cpsr := by
  have hsaved : t.spsr.get? t.mode = some s.cpsr := by rw [h.mode_eq, h.saved, if_pos hm]
  have hmerge : mergeMode t.cpsr s.cpsr = s.cpsr := mergeMode_of_valid hs
  rw [State.restoreCpsr_eq, hsaved]
  exact congrArg t.setCpsr hmerge

end Sys2Proof.Claims.Entered

namespace Sys2Proof.Machine

open Claims

theorem entryPsr_fiqMask (p : Psr) (vector : Word) (m : Mode) :
    (entryPsr p vector m).f = (p.f || (m == .fiq) || vector == 0#32) := by
  rw [entryPsr_f]
  split
  · next h => rcases h with rfl | rfl <;> simp
  · next h =>
    obtain ⟨hm, hv⟩ := not_or.1 h
    rw [beq_false_of_ne hm, beq_false_of_ne hv, Bool.or_false, Bool.or_false]

/-- The bits above the control byte through the mode switch of an entry. -/
theorem entryPsr_setM_upper (p : Psr) (vector : Word) (m : Mode) (b : BitVec 5) {k : Nat} (hk : 8 ≤ k) :
    (entryPsr (p.setM b) vector m).getLsbD k = p.getLsbD k := by
  rw [entryPsr_upper _ _ _ k hk, Psr.getLsbD_setM, if_neg (by omega)]

theorem State.takeException_cpsr (s : State) (vector : Word) (m : Mode) :
    (s.takeException vector m).cpsr = entryPsr (s.cpsr.setM m.toBits) vector m := by
  simp [takeException_eq]

theorem State.takeException_spsr (s : State) (vector : Word) (m : Mode) :
    (s.takeException vector m).spsr = s.spsr.set m s.cpsr := by
  simp [takeException_eq]

theorem State.takeException_readPhys (s : State) (vector : Word) (m : Mode) (p : PhysReg) :
    (s.takeException vector m).readPhys p =
      if p = .pc then maskPc false vector else if p = .lr m.bankKey then s.pc else s.readPhys p := by
  simp [takeException_eq]

@[simp] theorem State.takeException_halted (s : State) (vector : Word) (m : Mode) :
    (s.takeException vector m).halted = s.halted := by simp [takeException_eq]
@[simp] theorem State.takeException_stopped (s : State) (vector : Word) (m : Mode) :
    (s.takeException vector m).stopped = s.stopped := by simp [takeException_eq]
@[simp] theorem State.takeException_cycles (s : State) (vector : Word) (m : Mode) :
    (s.takeException vector m).cycles = s.cycles := by simp [takeException_eq]

theorem State.takeException_entered (s : State) (vector : Word) (m : Mode) :
    Entered vector m s.pc s (s.takeException vector m) where
  mode := by rw [takeException_cpsr, entryPsr_m, Psr.m_setM]
  irqMasked := by rw [takeException_cpsr, entryPsr_i]
  armState := by rw [takeException_cpsr, entryPsr_t]
  fiqMask := by rw [takeException_cpsr, entryPsr_fiqMask, Psr.f_setM]
  upper k hk := by rw [takeException_cpsr, entryPsr_setM_upper s.cpsr vector m _ hk]
  saved := by rw [takeException_spsr, Spsrs.get?_set]
  others n hn := by rw [takeException_spsr, Spsrs.get?_set_of_ne _ _ hn]
  lr := by simp [takeException_readPhys]
  pc := (takeException_readPhys s vector m .pc).trans (if_pos rfl)
  regs p hpc hlr := by rw [takeException_readPhys, if_neg hpc, if_neg hlr]
  memory a := by simp [takeException_eq]
  accesses := by simp [NoAccess, takeException_eq]
  currentPc := by simp [takeException_eq]
  currentInstruction := by simp [takeException_eq]
  bus := by simp [takeException_eq]

/-- SWI and IRQ write the LR of their mode, then enter it, which leaves the raw PC there (R706, R710, R711). -/
theorem State.takeException_lr_written_entered (s : State) (vector v : Word) (m : Mode) :
    Entered vector m s.pc s ((s.writePhys (.lr m.bankKey) v).takeException vector m) :=
  have hpc : (s.writePhys (.lr m.bankKey) v).pc = s.pc := rfl
  (hpc ▸ takeException_entered (s.writePhys (.lr m.bankKey) v) vector m).of_lr_written

/-- Settles O51, which asks for a mode with an SPSR; an entry leaves the same in every mode. -/
theorem takeExceptionLaw : Obligations.TakeExceptionLaw := by
  unfold Obligations.TakeExceptionLaw
  exact fun s vector m _ => ⟨s.takeException_entered vector m, by simp, by simp⟩

/-! ## The restore after an entry -/

/-- Settles O52: the restore after an entry is a write of the old CPSR, so registers are read through the old mode's
routes, from storage the entry left alone. -/
theorem restoreUndoesTheEntry : Obligations.RestoreUndoesTheEntry := by
  unfold Obligations.RestoreUndoesTheEntry
  intro s vector m hs hm
  have h := s.takeException_entered vector m
  rw [h.restoreCpsr_eq hm hs]
  refine ⟨rfl, rfl, fun i hi hlr => ?_⟩
  have hpc : route s.mode i ≠ .pc := mt (route_eq_pc s.mode i).1 hi
  exact (State.setCpsr_readPhys _ _ _).trans (h.regs (route s.mode i) hpc hlr)

/-! ## The IRQ input -/

theorem State.triggerIrq_masked {s : State} (h : s.cpsr.i = true) : s.triggerIrq = s := if_pos h

theorem State.triggerIrq_taken {s : State} (h : s.cpsr.i = false) :
    s.triggerIrq = ((s.writePhys (.lr .irq) s.pc).takeException 0x00000018#32 .irq).setHalted false := by
  rw [triggerIrq, h, if_neg Bool.false_ne_true, Config.vectorIrq]

/-- Settles O53: the entry sets I, which masks a second request. -/
theorem irqInput : Obligations.IrqInput := by
  unfold Obligations.IrqInput
  refine fun s => ⟨State.triggerIrq_masked, fun hi => ?_⟩
  have hentered : Entered 0x00000018#32 .irq s.pc s s.triggerIrq := by
    rw [State.triggerIrq_taken hi]
    exact (s.takeException_lr_written_entered _ s.pc .irq).setHalted false
  refine ⟨hentered, ?_, ?_, ?_, State.triggerIrq_masked hentered.irqMasked⟩ <;> simp [State.triggerIrq_taken hi]

/-! ## SWI -/

theorem State.raiseSwi_entered (s : State) : Entered 0x00000008#32 .supervisor s.pc s s.raiseSwi :=
  s.takeException_lr_written_entered _ _ .supervisor

/-- Settles O23: both end as `raiseSwi`; the clauses on the next instruction's address are the raw PC rewritten. -/
theorem softwareInterruptEntersSupervisor : Obligations.SoftwareInterruptEntersSupervisor := by
  unfold Obligations.SoftwareInterruptEntersSupervisor
  intro c comment value8 s result
  have completes {i : Instr} (hi : exec i s = .next (s.raiseSwi.addCycles 3)) : result i s.pc :=
    ⟨_, hi, s.raiseSwi_entered.addCycles 3, by simp, by simp, by simp⟩
  have harm (hc : condPassed s.cpsr c = true) : result (.armSwi c comment) s.pc :=
    completes (by rw [exec, execArmSwi, armInstr_passed _ hc])
  have hthumb : result (.thumbSwi value8) s.pc := completes rfl
  exact ⟨harm, fun hc hpc => hpc ▸ harm hc, hthumb, fun hpc => hpc ▸ hthumb⟩

/-! ## The one way out of User mode -/

/-- Settles O58: an instruction other than SWI keeps User mode, and so does an SWI whose condition fails. -/
theorem userModeIsLeftOnlyBySwi : Obligations.UserModeIsLeftOnlyBySwi := by
  unfold Obligations.UserModeIsLeftOnlyBySwi
  intro i s t huser h hleft
  have left_of_kept (hk : Kept s t) : False := hleft ((hk.user huser).m.trans huser)
  rcases exec_cases h with hk | ⟨-, mask, op, rfl⟩ | ⟨hswi, rfl⟩
  · exact (left_of_kept hk.kept).elim
  · exact (left_of_kept ((Kept.msrCpsr mask op s).trans (.addCycles _ 1))).elim
  · have hentered := s.raiseSwi_entered.addCycles 3
    exact ⟨hentered.mode, hentered.pc, hswi⟩

end Sys2Proof.Machine
end

section
/-! PROOFS. Thumb formats 16, 18 and 19 (48_thumb_branch.md R620, R622 to R624). -/

namespace Sys2Proof.Machine

open Claims

/-! ## Offsets in numbers -/

/-- A branch offset field counts halfwords, signed. -/
theorem signExtend_append_zero {n : Nat} (offset : BitVec n) :
    (pack (offset ++ 0b0#1) : BitVec (n + 1)).signExtend 32 = BitVec.ofInt 32 (2 * offset.toInt) := by
  rw [pack, BitVec.signExtend, BitVec.cast_eq, BitVec.toInt_append_zero]
  rfl

theorem thumbBranchOffset8_eq_ofInt (offset : BitVec 8) :
    thumbBranchOffset8 offset = BitVec.ofInt 32 (2 * offset.toInt) := signExtend_append_zero offset

theorem thumbBranchOffset11_eq_ofInt (offset : BitVec 11) :
    thumbBranchOffset11 offset = BitVec.ofInt 32 (2 * offset.toInt) := signExtend_append_zero offset

/-- The upper half of the BL offset counts blocks of 4096 bytes, signed (R623). -/
theorem signExtend_shiftLeft_12 (offset : BitVec 11) :
    offset.signExtend 32 <<< 12 = BitVec.ofInt 32 (offset.toInt * 4096) := by
  rw [BitVec.shiftLeft_eq_mul_twoPow, BitVec.signExtend, BitVec.ofInt_mul]
  rfl

/-! ## The statements -/

/-- Settles O46: taken, both end in a write of the PC with the offset as the number of bytes it stands for. -/
theorem thumbBranches : Obligations.ThumbBranches := by
  unfold Obligations.ThumbBranches
  intro c soffset8 offset11 s jumps
  have completes {i : Instr} {target : Word} (hi : exec i s = .next ((s.setPc target).addCycles 3)) :
      jumps i target := by
    have h := setPc_branched s target
    exact ⟨_, hi, h.pc_of_t_kept List.not_mem_nil, h.frame, h.memory, h.accesses, h.cycles⟩
  refine ⟨fun hc => completes ?taken, fun hc => ?skipped, completes ?always⟩
  case taken => rw [exec, execThumbBCond, if_pos hc, thumbBranchOffset8_eq_ofInt, State.setReg_15]
  case skipped => rw [exec, execThumbBCond, hc, if_neg Bool.false_ne_true, State.addCycles]
  case always => rw [exec, execThumbB, thumbBranchOffset11_eq_ofInt, State.setReg_15]

/-- Settles O47: the first half is a write of LR; the second reads LR, then is a branch with link. -/
theorem thumbBranchWithLink : Obligations.ThumbBranchWithLink := by
  unfold Obligations.ThumbBranchWithLink
  intro offset11 s
  constructor
  · rw [exec, execThumbBlFirst, signExtend_shiftLeft_12]
    exact ⟨_, rfl, by simp [State.reg_setReg], Frame.reg s 14#4 _ 1, fun _ => by simp,
      ((NoAccess.refl s).setReg 14#4 _).addCycles 1, by simp⟩
  · rw [exec, execThumbBlSecond, scaled_eq offset11 1 (by decide)]
    have h := setLr_setPc_branched s ((s.currentPc + 2) ||| 1#32) (s.reg 14#4 + BitVec.ofNat 32 (offset11.toNat * 2))
    exact ⟨_, rfl, reg_14_setLr_setPc .., h.pc_of_t_kept List.not_mem_nil, h.frame, h.memory, h.accesses, h.cycles⟩

end Sys2Proof.Machine
end
